-- ==== Sys2Proof/Word.lean ====
section
/-! DEFINITION. The words of the block (00_scope.md R8, R10): the 8-bit command and the 16-bit payload or result. -/

namespace Sys2Proof

/-- A command value or a config byte: `CMD_WIDTH` bits (R8). -/
abbrev Byte := BitVec 8

/-- A payload or result: `WORD` bits, signed where the operation says so (R8, R92 (b)). -/
abbrev Word := BitVec 16

/-- One line level or one bit on the wire: true is 1 (high), false is 0 (low) (R10, R14). -/
abbrev Bit := Bool

end Sys2Proof
end

