-- ==== Sys2Proof/Config.lean ====
section
/-! DEFINITION. The parameters of 00_scope.md R8 and the free values the spec leaves open.
The opaque constants have no body: a theorem about them holds for every value they could have. -/

namespace Sys2Proof

/-- Names one line, "which bit of the GPIO bus"; the spec leaves the type open (R8, D8), the model takes the
naturals, so that no range of line numbers is assumed. DESIGN CHOICE, safe (log entry 6). -/
abbrev LineId := Nat

/-- Refers to one port register; the spec leaves the type open (R8, D9). DESIGN CHOICE, safe (log entry 6). -/
abbrev PortRef := Nat

/-- Says which handle an operation is called on; any number of handles may exist (R8, R103 (a)).
DESIGN CHOICE, safe (log entry 5): the spec gives handles no identifiers (R103 (d)). -/
abbrev HandleId := Nat

/-- A line's direction (R14, R23). -/
inductive Dir where
  | input
  | output
deriving DecidableEq, Repr, Inhabited

/-- `CMD[name]`: the byte value of each of the eleven commands (R8, R50), a parameter of the model. -/
structure CmdTable where
  startConv : Byte
  stopConv : Byte
  readTemp : Byte
  readHTemp : Byte
  readLTemp : Byte
  writeHTemp : Byte
  writeLTemp : Byte
  readCounter : Byte
  readSlope : Byte
  readConfig : Byte
  writeConfig : Byte
deriving DecidableEq, Repr

/-- The parameters the spec leaves OPEN (R8). They are held in the state as configuration no step writes, so that
a statement about every state is a statement about every value of them. -/
structure Params where
  cmds : CmdTable
  /-- `T_UNIT_US`, the "one minimum timing unit" of a clock phase, in microseconds. -/
  tUnitUs : Nat
  /-- `T_NV_MS`, the settle delay after WRITE_CONFIG, in milliseconds. -/
  tNvMs : Nat
deriving DecidableEq, Repr

namespace Config

/-- `MAX_WIDTH`, the largest payload width the engine admits (R8, D5). -/
def maxWidth : Nat := 16

/-- `CMD_WIDTH`, the bits in a command (R8). -/
def cmdWidth : Nat := 8

/-- FREE VALUE (log entry 10): one less than the timing unit at reset, so that the unit is at least 1 (R8, D6). -/
opaque timingUnitPred : Nat

/-- `T_UNIT_US` at reset: OPEN, a natural number at least 1 (R8). -/
def timingUnit : Nat := timingUnitPred + 1

/-- FREE VALUE (log entry 10): `T_NV_MS` at reset, OPEN (R8, D7). -/
opaque settleMs : Nat

/-- FREE VALUE (log entry 7): the level a line has before anything drove it (R33, U14). -/
opaque preInitOut : LineId → Bit

/-- FREE VALUE (log entry 7): the direction a line has before anything set it (R33, U14). -/
opaque preInitDir : LineId → Dir

/-- FREE VALUE (log entry 11): the level that sample number `n` of the run reads (R43, U9). -/
opaque sample : Nat → Bit

end Config

end Sys2Proof
end

