-- ==== Sys2Proof/Syntax.lean ====
section
/-! DEFINITION. The instructions: one constructor per row of spec/opcode_table.json, eleven commands (30_encoding.md
R50) and nineteen host operations (R57). -/

namespace Sys2Proof

/-- The eleven commands (R50). -/
inductive Command where
  | startConv
  | stopConv
  | readTemp
  | readHTemp
  | readLTemp
  | writeHTemp
  | writeLTemp
  | readCounter
  | readSlope
  | readConfig
  | writeConfig
deriving DecidableEq, Repr

/-- Which way a command's payload goes (R50). -/
inductive Direction where
  | none
  | write
  | read
deriving DecidableEq, Repr

/-- The six chip registers the block addresses by command (R30). The block holds no copy of them. -/
inductive ChipRegister where
  | temperature
  | highThreshold
  | lowThreshold
  | counter
  | slope
  | config
deriving DecidableEq, Repr

/-- One operation the host can issue, or one command frame. A command row is the primitive call that sends the
command at its table width and in its table direction (R48, R50, R86). DEDUCED, safe (log entry 2). -/
inductive Instr where
  /-- START_CONV: a write frame of width 0. -/
  | cmdStartConv (h : HandleId)
  /-- STOP_CONV: a write frame of width 0 (R86). -/
  | cmdStopConv (h : HandleId)
  /-- READ_TEMP: a read frame of width 9. -/
  | cmdReadTemp (h : HandleId)
  /-- READ_H_TEMP: a read frame of width 9. -/
  | cmdReadHTemp (h : HandleId)
  /-- READ_L_TEMP: a read frame of width 9. -/
  | cmdReadLTemp (h : HandleId)
  /-- WRITE_H_TEMP: a write frame of width 9; the payload is a whole word of which nine bits are sent (R66). -/
  | cmdWriteHTemp (h : HandleId) (payload : Word)
  /-- WRITE_L_TEMP: a write frame of width 9. -/
  | cmdWriteLTemp (h : HandleId) (payload : Word)
  /-- READ_COUNTER: a read frame of width 8. -/
  | cmdReadCounter (h : HandleId)
  /-- READ_SLOPE: a read frame of width 8. -/
  | cmdReadSlope (h : HandleId)
  /-- READ_CONFIG: a read frame of width 8. -/
  | cmdReadConfig (h : HandleId)
  /-- WRITE_CONFIG: a write frame of width 8, with no settle delay of its own (R114). -/
  | cmdWriteConfig (h : HandleId) (payload : Word)
  /-- R106. -/
  | init (h : HandleId) (clk dq rst : LineId) (pOut pDir pIn : PortRef)
  /-- R107. -/
  | release (h : HandleId)
  /-- R66. -/
  | writeTransaction (h : HandleId) (cmd : Byte) (payload : Word) (w : Nat)
  /-- R67. -/
  | readTransaction (h : HandleId) (cmd : Byte) (w : Nat)
  /-- R74. -/
  | startConversion (h : HandleId)
  /-- R75. -/
  | readTempC (h : HandleId)
  /-- R76. -/
  | readTempF (h : HandleId)
  /-- R77. -/
  | readTempRaw (h : HandleId)
  /-- R78. -/
  | readHighC (h : HandleId)
  /-- R79. -/
  | readLowC (h : HandleId)
  /-- R80. -/
  | readCounter (h : HandleId)
  /-- R81. -/
  | readSlope (h : HandleId)
  /-- R82. -/
  | readConfig (h : HandleId)
  /-- R83. -/
  | writeConfig (h : HandleId) (c : Byte)
  /-- R84. -/
  | writeHighC (h : HandleId) (t : Word)
  /-- R85. -/
  | writeLowC (h : HandleId) (t : Word)
  /-- R87. -/
  | decodeC (r : Word)
  /-- R88. -/
  | toF (c : Word)
  /-- R89. -/
  | encodeT (t : Word)
deriving DecidableEq, Repr

/-- One request of the host: an opcode word and its operand words, whole integers of the host, since no value is
handed over as bytes (20_memory.md R38). DESIGN CHOICE, safe (log entry 3). -/
abbrev Request := List Nat

end Sys2Proof
end

