-- ==== Sys2Proof/Machine/Table.lean ====
section
/-! DEFINITION. The command table (30_encoding.md R50), the chip registers (10_state.md R30) and the default command
values. -/

namespace Sys2Proof

/-- `WIDTH[name]`, the payload width of a command (R50). -/
def Command.width : Command → Nat
  | .startConv => 0
  | .stopConv => 0
  | .readTemp => 9
  | .readHTemp => 9
  | .readLTemp => 9
  | .writeHTemp => 9
  | .writeLTemp => 9
  | .readCounter => 8
  | .readSlope => 8
  | .readConfig => 8
  | .writeConfig => 8

/-- The direction column of R50. -/
def Command.direction : Command → Direction
  | .startConv => .none
  | .stopConv => .none
  | .readTemp => .read
  | .readHTemp => .read
  | .readLTemp => .read
  | .writeHTemp => .write
  | .writeLTemp => .write
  | .readCounter => .read
  | .readSlope => .read
  | .readConfig => .read
  | .writeConfig => .write

/-- The chip register a command reaches (R30, R50). -/
def Command.register : Command → Option ChipRegister
  | .startConv => none
  | .stopConv => none
  | .readTemp => some .temperature
  | .readHTemp => some .highThreshold
  | .readLTemp => some .lowThreshold
  | .writeHTemp => some .highThreshold
  | .writeLTemp => some .lowThreshold
  | .readCounter => some .counter
  | .readSlope => some .slope
  | .readConfig => some .config
  | .writeConfig => some .config

/-- The width of a chip register (R30). -/
def ChipRegister.width : ChipRegister → Nat
  | .temperature => 9
  | .highThreshold => 9
  | .lowThreshold => 9
  | .counter => 8
  | .slope => 8
  | .config => 8

/-- All eleven commands, in the order of R50. -/
def Command.all : List Command :=
  [.startConv, .stopConv, .readTemp, .readHTemp, .readLTemp, .writeHTemp, .writeLTemp, .readCounter, .readSlope,
    .readConfig, .writeConfig]

/-- `CMD[name]` under an assignment of the parameter (R8). -/
def CmdTable.code (t : CmdTable) : Command → Byte
  | .startConv => t.startConv
  | .stopConv => t.stopConv
  | .readTemp => t.readTemp
  | .readHTemp => t.readHTemp
  | .readLTemp => t.readLTemp
  | .writeHTemp => t.writeHTemp
  | .writeLTemp => t.writeLTemp
  | .readCounter => t.readCounter
  | .readSlope => t.readSlope
  | .readConfig => t.readConfig
  | .writeConfig => t.writeConfig

/-- The eleven values are pairwise distinct (R51). -/
def CmdTable.distinct (t : CmdTable) : Bool :=
  decide ((Command.all.map t.code).Nodup)

/-- The default command values of R50. PRESUMED by the spec itself from the DS1620's data sheet (G2), unsafe
(log entry 9): a statement that needs one of them takes the table as a premise. -/
def Config.defaultCmds : CmdTable where
  startConv := 0xEE
  stopConv := 0x22
  readTemp := 0xAA
  readHTemp := 0xA1
  readLTemp := 0xA2
  writeHTemp := 0x01
  writeLTemp := 0x02
  readCounter := 0xA0
  readSlope := 0xA9
  readConfig := 0xAC
  writeConfig := 0x0C

/-- The parameters at reset: the default commands, and the two OPEN delays as free constants (R8). -/
def Config.params : Params where
  cmds := Config.defaultCmds
  tUnitUs := Config.timingUnit
  tNvMs := Config.settleMs

/-- What R8 and R51 ask of any assignment of the parameters. -/
def Params.wf (p : Params) : Bool :=
  p.cmds.distinct && decide (1 ≤ p.tUnitUs)

end Sys2Proof
end

