-- ==== Sys2Proof/Decode.lean ====
section
/-! DEFINITION. Requests of the host to instructions and back. Where spec/opcode_table.json gives a row a word, that
word is the opcode; a row it gives none has an operation number of the model's own (log entries 3 and 4). -/

namespace Sys2Proof

/-- Why a list of words is no request. -/
inductive DecodeError where
  /-- There is no opcode word. -/
  | empty
  /-- The opcode word is no row of the table. -/
  | unknownWord
  /-- The number of operand words is not the row's. -/
  | operandCount
  /-- An operand word does not fit the operand's width. -/
  | operandTooWide
  /-- The transform selector of a temperature read is not 0, 1 or 2. -/
  | unknownTransform
deriving DecidableEq, Repr

/-- An opcode word: 17 bits hold the longest word the table gives a row, bit 17 marks the model's own numbers. -/
abbrev OpWord := BitVec 18

/-- What an opcode word can stand for. The three temperature reads send the same wire word, so they are one row here
and an operand tells them apart (log entry 4). -/
inductive Row where
  | command (c : Command)
  | startConversion
  | readTemperature
  | readHighC
  | readLowC
  | readCounter
  | readSlope
  | readConfig
  | writeConfig
  | writeHighC
  | writeLowC
  | init
  | release
  | writeTransaction
  | readTransaction
  | decodeC
  | toF
  | encodeT
deriving DecidableEq, Repr

/-- One line of the opcode table: a word `w` is of this row when `w &&& mask = pattern`. -/
structure OpcodeRow where
  mask : OpWord
  pattern : OpWord
  row : Row
deriving DecidableEq, Repr

/-- The command rows: `match` in bits 7..0 as R50's default value; the table's payload_width place (bit 9 or bit 8) may
hold either value, and every other bit is 0. -/
def commandRows : List OpcodeRow :=
  [⟨0x3FFFF, 0xEE, .command .startConv⟩,
   ⟨0x3FFFF, 0x22, .command .stopConv⟩,
   ⟨0x3FDFF, 0xAA, .command .readTemp⟩,
   ⟨0x3FDFF, 0xA1, .command .readHTemp⟩,
   ⟨0x3FDFF, 0xA2, .command .readLTemp⟩,
   ⟨0x3FDFF, 0x01, .command .writeHTemp⟩,
   ⟨0x3FDFF, 0x02, .command .writeLTemp⟩,
   ⟨0x3FEFF, 0xA0, .command .readCounter⟩,
   ⟨0x3FEFF, 0xA9, .command .readSlope⟩,
   ⟨0x3FEFF, 0xAC, .command .readConfig⟩,
   ⟨0x3FEFF, 0x0C, .command .writeConfig⟩]

/-- The operation rows whose wire bits the table writes out, cell 0 leftmost, read as one number: the eight command
bits, then the payload bits. Sampled bits `s` are no operand and may hold anything. -/
def operationRows : List OpcodeRow :=
  [⟨0x3FFFF, 0b01110111, .startConversion⟩,
   ⟨0x3FE00, 0b01010101000000000, .readTemperature⟩,
   ⟨0x3FE00, 0b10000101000000000, .readHighC⟩,
   ⟨0x3FE00, 0b01000101000000000, .readLowC⟩,
   ⟨0x3FF00, 0b0000010100000000, .readCounter⟩,
   ⟨0x3FF00, 0b1001010100000000, .readSlope⟩,
   ⟨0x3FF00, 0b0011010100000000, .readConfig⟩,
   ⟨0x3FF00, 0b0011000000000000, .writeConfig⟩,
   ⟨0x3FF00, 0b10000000000000000, .writeHighC⟩,
   ⟨0x3FF00, 0b01000000000000000, .writeLowC⟩]

/-- The operations to which the table gives no word, or a word of variable length: the model's own numbers, with
bit 17 set. DESIGN CHOICE, safe (log entry 3). -/
def numberedRows : List OpcodeRow :=
  [⟨0x3FFFF, 0x20000, .init⟩,
   ⟨0x3FFFF, 0x20001, .release⟩,
   ⟨0x3FFFF, 0x20002, .writeTransaction⟩,
   ⟨0x3FFFF, 0x20003, .readTransaction⟩,
   ⟨0x3FFFF, 0x20004, .decodeC⟩,
   ⟨0x3FFFF, 0x20005, .toF⟩,
   ⟨0x3FFFF, 0x20006, .encodeT⟩]

/-- The whole opcode table. -/
def opcodeRows : List OpcodeRow :=
  commandRows ++ operationRows ++ numberedRows

/-- The word is of the row. -/
def OpcodeRow.covers (r : OpcodeRow) (w : OpWord) : Bool :=
  decide (w &&& r.mask = r.pattern)

/-- The row of an opcode word. -/
def rowOf (w : OpWord) : Option Row :=
  (opcodeRows.find? (fun r => r.covers w)).map OpcodeRow.row

/-- How many operand words a row takes: those of R57, less the bits its word holds, plus the transform selector of a
temperature read and the high byte of a threshold. -/
def Row.arity : Row → Nat
  | .command .writeHTemp => 2
  | .command .writeLTemp => 2
  | .command .writeConfig => 2
  | .command _ => 1
  | .startConversion => 1
  | .readTemperature => 2
  | .readHighC => 1
  | .readLowC => 1
  | .readCounter => 1
  | .readSlope => 1
  | .readConfig => 1
  | .writeConfig => 1
  | .writeHighC => 2
  | .writeLowC => 2
  | .init => 7
  | .release => 1
  | .writeTransaction => 4
  | .readTransaction => 3
  | .decodeC => 1
  | .toF => 1
  | .encodeT => 1

/-- An 8-bit operand word. -/
def byteOperand (n : Nat) : Except DecodeError Byte :=
  if n < 256 then .ok (BitVec.ofNat 8 n) else .error .operandTooWide

/-- A 16-bit operand word. -/
def wordOperand (n : Nat) : Except DecodeError Word :=
  if n < 65536 then .ok (BitVec.ofNat 16 n) else .error .operandTooWide

/-- The eight payload bits a row's word holds in wire order (cell 8 leftmost), as a byte (R37). -/
def wireByte (w : OpWord) : Byte :=
  (w.setWidth 8).reverse

/-- A threshold from its high byte and the low byte that the word holds in wire order (R56). -/
def thresholdOf (w : OpWord) (high : Byte) : Word :=
  high ++ wireByte w

/-- A command row's frame on handle `h` with payload `p` (0 for a command that takes none). -/
def commandInstr (c : Command) (h : HandleId) (p : Word) : Instr :=
  match c with
  | .startConv => .cmdStartConv h
  | .stopConv => .cmdStopConv h
  | .readTemp => .cmdReadTemp h
  | .readHTemp => .cmdReadHTemp h
  | .readLTemp => .cmdReadLTemp h
  | .writeHTemp => .cmdWriteHTemp h p
  | .writeLTemp => .cmdWriteLTemp h p
  | .readCounter => .cmdReadCounter h
  | .readSlope => .cmdReadSlope h
  | .readConfig => .cmdReadConfig h
  | .writeConfig => .cmdWriteConfig h p

/-- The temperature read that a transform selector names. -/
def temperatureInstr (h : HandleId) : Nat → Except DecodeError Instr
  | 0 => .ok (.readTempC h)
  | 1 => .ok (.readTempF h)
  | 2 => .ok (.readTempRaw h)
  | _ + 3 => .error .unknownTransform

/-- A row, its word and its operand words to an instruction. -/
def decodeRow (r : Row) (w : OpWord) (args : List Nat) : Except DecodeError Instr :=
  match r, args with
  | .command c, [h] =>
      if c.direction = .write then .error .operandCount else .ok (commandInstr c h 0)
  | .command c, [h, p] =>
      if c.direction = .write then (wordOperand p).map (commandInstr c h) else .error .operandCount
  | .startConversion, [h] => .ok (.startConversion h)
  | .readTemperature, [h, k] => temperatureInstr h k
  | .readHighC, [h] => .ok (.readHighC h)
  | .readLowC, [h] => .ok (.readLowC h)
  | .readCounter, [h] => .ok (.readCounter h)
  | .readSlope, [h] => .ok (.readSlope h)
  | .readConfig, [h] => .ok (.readConfig h)
  | .writeConfig, [h] => .ok (.writeConfig h (wireByte w))
  | .writeHighC, [h, t] => (byteOperand t).map fun b => .writeHighC h (thresholdOf w b)
  | .writeLowC, [h, t] => (byteOperand t).map fun b => .writeLowC h (thresholdOf w b)
  | .init, [h, clk, dq, rst, pOut, pDir, pIn] => .ok (.init h clk dq rst pOut pDir pIn)
  | .release, [h] => .ok (.release h)
  | .writeTransaction, [h, cmd, p, n] =>
      match byteOperand cmd, wordOperand p with
      | .ok c, .ok v => .ok (.writeTransaction h c v n)
      | .error e, _ => .error e
      | _, .error e => .error e
  | .readTransaction, [h, cmd, n] => (byteOperand cmd).map fun c => .readTransaction h c n
  | .decodeC, [v] => (wordOperand v).map .decodeC
  | .toF, [v] => (wordOperand v).map .toF
  | .encodeT, [v] => (wordOperand v).map .encodeT
  | _, _ => .error .operandCount

/-- An opcode word as the host hands it over: 18 bits, or no row. -/
def opWord (n : Nat) : Except DecodeError OpWord :=
  if n < 2 ^ 18 then .ok (BitVec.ofNat 18 n) else .error .unknownWord

/-- The decoder: total on any list of words, refusing by name. -/
def decode : Request → Except DecodeError Instr
  | [] => .error .empty
  | n :: args =>
    match opWord n with
    | .error e => .error e
    | .ok w =>
      match rowOf w with
      | none => .error .unknownWord
      | some r => decodeRow r w args

/-- The word of a payload byte in wire order under a row's pattern. -/
def withWireByte (pattern : Nat) (b : Byte) : Nat :=
  pattern + b.reverse.toNat

/-- The encoder: the request of an instruction, from the same table. -/
def encode : Instr → Request
  | .cmdStartConv h => [0xEE, h]
  | .cmdStopConv h => [0x22, h]
  | .cmdReadTemp h => [0xAA, h]
  | .cmdReadHTemp h => [0xA1, h]
  | .cmdReadLTemp h => [0xA2, h]
  | .cmdWriteHTemp h p => [0x01, h, p.toNat]
  | .cmdWriteLTemp h p => [0x02, h, p.toNat]
  | .cmdReadCounter h => [0xA0, h]
  | .cmdReadSlope h => [0xA9, h]
  | .cmdReadConfig h => [0xAC, h]
  | .cmdWriteConfig h p => [0x0C, h, p.toNat]
  | .init h clk dq rst pOut pDir pIn => [0x20000, h, clk, dq, rst, pOut, pDir, pIn]
  | .release h => [0x20001, h]
  | .writeTransaction h cmd p w => [0x20002, h, cmd.toNat, p.toNat, w]
  | .readTransaction h cmd w => [0x20003, h, cmd.toNat, w]
  | .startConversion h => [0b01110111, h]
  | .readTempC h => [0b01010101000000000, h, 0]
  | .readTempF h => [0b01010101000000000, h, 1]
  | .readTempRaw h => [0b01010101000000000, h, 2]
  | .readHighC h => [0b10000101000000000, h]
  | .readLowC h => [0b01000101000000000, h]
  | .readCounter h => [0b0000010100000000, h]
  | .readSlope h => [0b1001010100000000, h]
  | .readConfig h => [0b0011010100000000, h]
  | .writeConfig h c => [withWireByte 0b0011000000000000 c, h]
  | .writeHighC h t => [withWireByte 0b10000000000000000 (t.setWidth 8), h, (t >>> 8).toNat]
  | .writeLowC h t => [withWireByte 0b01000000000000000 (t.setWidth 8), h, (t >>> 8).toNat]
  | .decodeC r => [0x20004, r.toNat]
  | .toF c => [0x20005, c.toNat]
  | .encodeT t => [0x20006, t.toNat]

/-- The request the table's word `w` of `nbits` bits stands for, with every operand word 0 (log entry 4). -/
def tableRequest (nbits w : Nat) : Request :=
  match opWord (w % 2 ^ nbits) with
  | .error _ => [w % 2 ^ nbits]
  | .ok v =>
    match rowOf v with
    | none => [w % 2 ^ nbits]
    | some r => (w % 2 ^ nbits) :: List.replicate r.arity 0

/-- The instruction the decoder reads from a word of the opcode table, operand words 0. -/
def decodeTableWord (nbits w : Nat) : Option Instr :=
  match decode (tableRequest nbits w) with
  | .ok i => some i
  | .error _ => none

end Sys2Proof
end

