-- ==== Sys2Proof/Machine/State.lean ====
section
/-! DEFINITION. The state of the block (10_state.md), as plain data, and the state at reset (R33, R108). -/

namespace Sys2Proof.Machine

/-- The three lines of a handle (R15, R20). -/
inductive Pin where
  | clk
  | dq
  | rst
deriving DecidableEq, Repr

/-- The device handle (R20). -/
structure Handle where
  /-- The handle is valid: initialised and not released. -/
  bound : Bool
  clk : LineId
  dq : LineId
  rst : LineId
  portOut : PortRef
  portDir : PortRef
  portIn : PortRef
deriving DecidableEq, Repr

/-- What the block last drove on a line and which direction it last set (R23). -/
structure Latch where
  out : Bit
  dir : Dir
deriving DecidableEq, Repr

/-- One event: one call of a collaborator (R13, R14). -/
inductive Event where
  | drive (l : LineId) (b : Bit)
  | setDir (l : LineId) (d : Dir)
  | sample (l : LineId) (b : Bit)
  | delayUs (n : Nat)
  | delayMs (n : Nat)
  | exclEnter
  | exclExit
deriving DecidableEq, Repr

/-- One entry of the trace: an event and the handle whose operation performed it. -/
structure Entry where
  handle : HandleId
  event : Event
deriving DecidableEq, Repr

/-- One event still to perform, its lines named by the handle's pins. `sample i` reads DQ into bit `i` of the
accumulator (R65, R67); the delays are the parameters' (R64, R83). -/
inductive Act where
  | drive (p : Pin) (b : Bit)
  | setDir (p : Pin) (d : Dir)
  | sample (i : Nat)
  | delayUnit
  | delaySettle
  | exclEnter
  | exclExit
deriving DecidableEq, Repr

/-- What an operation returns of the accumulator (R55, R57, R90). -/
inductive Result where
  /-- No result. -/
  | nothing
  /-- The accumulator as it is. -/
  | raw
  /-- `decodeC` of the accumulator. -/
  | celsius
  /-- `toF` of `decodeC` of the accumulator. -/
  | fahrenheit
deriving DecidableEq, Repr

/-- What an operation does after its last event (R110). -/
inductive Finish where
  /-- It returns. -/
  | returns (r : Result)
  /-- It returns the zero-equivalent of an invalid handle (R62). -/
  | guarded (r : Result)
  /-- startConversion after its first config read: poll if 1SHOT is set, else return (R74). -/
  | testOneShot
  /-- startConversion after a poll read: return if DONE is set, else poll again (R74). -/
  | untilDone
  /-- init: the handle becomes valid (R106). -/
  | bind
deriving DecidableEq, Repr

/-- An operation in progress (R18, R29): the events it still performs, in order, which hold the bits of its command and
payload that are not yet sent, the read accumulator, and what follows the last event. -/
structure Task where
  acts : List Act
  acc : Word
  fin : Finish
deriving DecidableEq, Repr

/-- How an operation ended (R95). -/
inductive Ending where
  /-- `Done(v)`. -/
  | done (v : Option Word)
  /-- `NoOp`, with the zero-equivalent where the operation has a result. -/
  | noOp (v : Option Word)
deriving DecidableEq, Repr

/-- One operation's end: the handle it was called on (none for the codec, which needs no handle) and its outcome. -/
structure Return where
  handle : Option HandleId
  ending : Ending
deriving DecidableEq, Repr

/-- Who moves next (R44, R103 (a)). DESIGN CHOICE, safe (log entry 13). -/
inductive Turn where
  /-- The host issues its next operation, which runs with no other handle's event in between. -/
  | call
  /-- The host issues its next operation, whose events are then performed one by one. -/
  | issue
  /-- The operation in progress on a handle performs one event (R18). -/
  | event (h : HandleId)
  /-- The operation in progress on a handle runs on with no other handle's event in between. -/
  | resume (h : HandleId)
  /-- The host, which owns `host.ie`, writes it (R16 (b), R28). -/
  | setIe (b : Bit)
deriving DecidableEq, Repr

/-- The whole machine. -/
structure State where
  /-- The parameters (R8): configuration, written by no step. -/
  params : Params
  /-- The handle records (R20), by handle; a handle not listed was never initialised. -/
  handles : List (HandleId × Handle)
  /-- The line latches (R23), by line; a line not listed was never driven or set. -/
  lines : List (LineId × Latch)
  /-- `host.ie` (R28): true when interrupts are allowed. -/
  ie : Bit
  /-- `host.excl` (R28): the save stack, its top first, one for all handles; it is deeper than two while the regions of two
  handles interleave. DESIGN CHOICE, unsafe (log entry 23). -/
  excl : List Bit
  /-- The operations in progress (R16 (a), R18), by handle. -/
  tasks : List (HandleId × Task)
  /-- The events performed so far, oldest first (R13). -/
  trace : List Entry
  /-- The operations ended so far with what they returned, oldest first (R13, R95). -/
  returns : List Return
  /-- The levels the next samples read, where the state fixes them (R43). The model's own (log entry 11). -/
  draws : List Bit
  /-- How many samples were taken. The model's own (log entry 11). -/
  drawn : Nat
  /-- The requests the host will issue, in its call order (R58). The model's own (log entry 22). -/
  script : List Request
  /-- The turns to come; when empty, an operation in progress runs on, else the host calls. The model's own
  (log entry 13). -/
  sched : List Turn
deriving DecidableEq, Repr

/-- Faults. The block has no fault mechanism (R94); the one fault is a stuck state. -/
inductive Fault where
  /-- Raised by a turn that would perform ExclExit on an empty save stack (R60 gives no top of it). No run from reset
  reaches it. Safe: the model stops. -/
  | exclUnderflow
deriving DecidableEq, Repr

/-- Refusals: the requests the spec gives no meaning (R95). All are safe: the model stops. -/
inductive Refusal where
  /-- Raised by exec's arm of an instruction that has no meaning in this model. Safe. -/
  | notModelled (mnemonic : String)
  /-- Raised by a primitive with a payload width above 16 (R63). Safe. -/
  | widthTooLarge
  /-- Raised by toF outside -3640..3623 (R88). Safe. -/
  | fahrenheitOverflow
  /-- Raised by an operation on a handle whose operation has not returned (R103 (b)). Safe. -/
  | sharedHandle
  /-- Raised by init with two equal lines, or a line of another handle that is valid or whose init is in progress (R106, R21,
  R103 (c)). Safe. -/
  | aliasedLines
  /-- Raised by a turn whose next request is no request of the model's encoding. Safe. -/
  | undecodable (e : DecodeError)
deriving DecidableEq, Repr

/-- The machine before any operation (R33, R108): every handle invalid, every line at its free pre-init level and
direction, the save stack empty, nothing in progress, the trace empty. `host.ie` is the host's; 1 is the start value
of the spec's own programs. DESIGN CHOICE, unsafe (log entry 8). -/
def State.reset : State where
  params := Config.params
  handles := []
  lines := []
  ie := true
  excl := []
  tasks := []
  trace := []
  returns := []
  draws := []
  drawn := 0
  script := []
  sched := []

end Sys2Proof.Machine
end

