-- ==== Sys2Proof/WellFormed.lean ====
section
/-! DEFINITION. The operands an operation admits (60_exceptions.md R95 "admitted operands"): what can be said of an
instruction without a state. An instruction that is not well formed is refused by its meaning under the spec's name. -/

namespace Sys2Proof

/-- The three lines of a handle are pairwise distinct (10_state.md R21 (a), 70_reset_and_hazards.md R106). -/
def linesDistinct (clk dq rst : LineId) : Bool :=
  decide (clk ≠ dq) && decide (clk ≠ rst) && decide (dq ≠ rst)

/-- A payload width the engine admits (40_transaction_engine.md R63). -/
def widthAdmitted (w : Nat) : Bool :=
  decide (w ≤ Config.maxWidth)

/-- The domain of toF (42_temperature_codec.md R88). -/
def inFahrenheitDomain (c : Word) : Bool :=
  decide (-3640 ≤ c.toInt) && decide (c.toInt ≤ 3623)

/-- The operands are admitted: no state makes the spec refuse them for what they are. -/
def Instr.wellFormed : Instr → Bool
  | .cmdStartConv _ => true
  | .cmdStopConv _ => true
  | .cmdReadTemp _ => true
  | .cmdReadHTemp _ => true
  | .cmdReadLTemp _ => true
  | .cmdWriteHTemp _ _ => true
  | .cmdWriteLTemp _ _ => true
  | .cmdReadCounter _ => true
  | .cmdReadSlope _ => true
  | .cmdReadConfig _ => true
  | .cmdWriteConfig _ _ => true
  | .init _ clk dq rst _ _ _ => linesDistinct clk dq rst
  | .release _ => true
  | .writeTransaction _ _ _ w => widthAdmitted w
  | .readTransaction _ _ w => widthAdmitted w
  | .startConversion _ => true
  | .readTempC _ => true
  | .readTempF _ => true
  | .readTempRaw _ => true
  | .readHighC _ => true
  | .readLowC _ => true
  | .readCounter _ => true
  | .readSlope _ => true
  | .readConfig _ => true
  | .writeConfig _ _ => true
  | .writeHighC _ _ => true
  | .writeLowC _ _ => true
  | .decodeC _ => true
  | .toF c => inFahrenheitDomain c
  | .encodeT _ => true

end Sys2Proof
end

