-- ==== Sys2Proof/Machine/Arith.lean ====
section
/-! DEFINITION. The temperature codec's arithmetic (42_temperature_codec.md R87, R88, R89) and the results read from the
accumulator (30_encoding.md R55). -/

namespace Sys2Proof.Machine

/-- `sext_16(r[8:0])` (R10, R87): bits 15..9 of the operand are ignored. -/
def signExtend9 (r : Word) : Word :=
  (r.setWidth 9).signExtend 16

/-- `asr(v, 1)` (R11). -/
def halve (v : Word) : Word := v.sshiftRight 1

/-- `decodeC` (R87). -/
def celsiusOf (r : Word) : Word := halve (signExtend9 r)

/-- `wrap16` (R11). -/
def wrap16 (n : Int) : Word := BitVec.ofInt 16 n

/-- The integer fits the 16-bit signed word. -/
def fitsWord (n : Int) : Bool := decide (-32768 ≤ n) && decide (n ≤ 32767)

/-- `toF` (R88): exact integer arithmetic checked against the word, then a division that truncates toward zero; none
where the spec refuses. -/
def fahrenheitOf (c : Word) : Option Word :=
  if fitsWord (9 * c.toInt + 160) && fitsWord (9 * c.toInt) then
    some (wrap16 ((9 * c.toInt + 160).tdiv 5))
  else none

/-- `encodeT` (R89). -/
def thresholdPayload (t : Word) : Word := t <<< 1

/-- The value an operation returns for an accumulator; the outer option is none where toF refuses. -/
def Result.value (acc : Word) : Result → Option (Option Word)
  | .nothing => some none
  | .raw => some (some acc)
  | .celsius => some (some (celsiusOf acc))
  | .fahrenheit => (fahrenheitOf (celsiusOf acc)).map some

end Sys2Proof.Machine
end

