-- ==== Sys2Proof/Machine/Flags.lean ====
section
/-! DEFINITION. The flags of the chip's config byte (10_state.md R31) and their test, set and clear (42_temperature_codec.md
R93). The block itself keeps no flags (R19). -/

namespace Sys2Proof.Machine

/-- The eight fields of the config register (R31). -/
inductive Flag where
  | oneShot
  | cpu
  | reserved2
  | reserved3
  | nvb
  | tlf
  | thf
  | done
deriving DecidableEq, Repr

/-- The bit position of a field, the document's order kept verbatim (R31, R32, U8). -/
def Flag.position : Flag → Nat
  | .oneShot => 0
  | .cpu => 1
  | .reserved2 => 2
  | .reserved3 => 3
  | .nvb => 4
  | .tlf => 5
  | .thf => 6
  | .done => 7

/-- The byte with only the field's bit set, `1 << k` (R93). -/
def Flag.bit (k : Flag) : Byte := 1 <<< k.position

/-- The test of a flag: `c[k] = 1` (R93). -/
def Flag.test (c : Byte) (k : Flag) : Bool := c.getLsbD k.position

/-- Setting a flag: `c | (1 << k)` (R93). -/
def Flag.set (c : Byte) (k : Flag) : Byte := c ||| k.bit

/-- Clearing a flag: `c & ~(1 << k)` (R93). -/
def Flag.clear (c : Byte) (k : Flag) : Byte := c &&& ~~~k.bit

end Sys2Proof.Machine
end

