-- ==== Sys2Proof/Machine/Assoc.lean ====
section
/-! DEFINITION. Sparse tables keyed by a natural, held as a list of pairs with strictly rising keys: the handles, the
lines and the operations in progress. A key that is not listed has no entry. -/

namespace Sys2Proof.Machine

/-- The entry under a key. -/
def Assoc.get {α : Type} (k : Nat) : List (Nat × α) → Option α
  | [] => none
  | (j, v) :: l => if j = k then some v else Assoc.get k l

/-- Writes an entry, keeping the keys in rising order. -/
def Assoc.set {α : Type} (k : Nat) (v : α) : List (Nat × α) → List (Nat × α)
  | [] => [(k, v)]
  | (j, u) :: l =>
    if k < j then (k, v) :: (j, u) :: l
    else if j = k then (k, v) :: l
    else (j, u) :: Assoc.set k v l

/-- Removes the entry under a key. -/
def Assoc.erase {α : Type} (k : Nat) : List (Nat × α) → List (Nat × α)
  | [] => []
  | (j, u) :: l => if j = k then Assoc.erase k l else (j, u) :: Assoc.erase k l

/-- Every key of the list is above `k`. -/
def Assoc.above {α : Type} (k : Nat) : List (Nat × α) → Bool
  | [] => true
  | (j, _) :: l => decide (k < j) && Assoc.above k l

/-- The canonical form: the keys rise strictly. -/
def Assoc.rising {α : Type} : List (Nat × α) → Bool
  | [] => true
  | (j, _) :: l => Assoc.above j l && Assoc.rising l

/-- The sum of a measure over the entries. -/
def Assoc.total {α : Type} (f : α → Nat) : List (Nat × α) → Nat
  | [] => 0
  | (_, v) :: l => f v + Assoc.total f l

end Sys2Proof.Machine
end

