-- ==== Sys2Proof/Machine/Operands.lean ====
section
/-! DEFINITION. Reading the state: handles, pins, latches, operations in progress, draws; and the forms an operand takes
on its way to the wire (30_encoding.md R56). -/

namespace Sys2Proof.Machine

/-- The record of a handle never initialised: invalid, its other fields unused (R33). DESIGN CHOICE 0, unsafe (log
entry 5). -/
def freshHandle : Handle where
  bound := false
  clk := 0
  dq := 0
  rst := 0
  portOut := 0
  portDir := 0
  portIn := 0

/-- The record of a handle (R20). -/
def State.handle (s : State) (h : HandleId) : Handle :=
  (Assoc.get h s.handles).getD freshHandle

/-- The line of a pin (R20). -/
def Handle.line (g : Handle) : Pin → LineId
  | .clk => g.clk
  | .dq => g.dq
  | .rst => g.rst

/-- The line is one of the handle's three. -/
def Handle.owns (g : Handle) (l : LineId) : Bool :=
  decide (g.clk = l) || decide (g.dq = l) || decide (g.rst = l)

/-- The handle's three lines are pairwise distinct (R21 (a)). -/
def Handle.distinct (g : Handle) : Bool :=
  linesDistinct g.clk g.dq g.rst

/-- The latch of a line: free before anything drove or set it (R23, R33, U14). -/
def State.latch (s : State) (l : LineId) : Latch :=
  (Assoc.get l s.lines).getD ⟨Config.preInitOut l, Config.preInitDir l⟩

/-- `out(l)` of a handle's pin (R23). -/
def State.outOf (s : State) (h : HandleId) (p : Pin) : Bit :=
  (s.latch ((s.handle h).line p)).out

/-- `dir(l)` of a handle's pin (R23). -/
def State.dirOf (s : State) (h : HandleId) (p : Pin) : Dir :=
  (s.latch ((s.handle h).line p)).dir

/-- The operation in progress on a handle. -/
def State.task (s : State) (h : HandleId) : Option Task :=
  Assoc.get h s.tasks

/-- An operation on the handle has not returned (R103 (b)). -/
def State.busy (s : State) (h : HandleId) : Bool :=
  (s.task h).isSome

/-- `CMD[name]` (R8). -/
def State.code (s : State) (c : Command) : Byte :=
  s.params.cmds.code c

/-- The bit that the `k`th sample from now reads, a draw (R43): fixed by the state while `draws` lasts, free after. -/
def State.drawAt (s : State) (k : Nat) : Bit :=
  if h : k < s.draws.length then s.draws[k] else Config.sample (s.drawn + k)

/-- The handle's init is in progress: called and not returned. -/
def State.initialising (s : State) (h : HandleId) : Bool :=
  (s.task h).any fun t => decide (t.fin = .bind)

/-- The handle holds its lines, exclusively (R21 (c), (d)): it is valid, or its init is in progress. That it holds them from
the call of init on, before it is valid, is how a run that would break R21 (c) or R111 is refused at its first call.
DESIGN CHOICE, safe (log entry 15). -/
def State.holds (s : State) (h : HandleId) : Bool :=
  (s.handle h).bound || s.initialising h

/-- Some handle other than `h` holds a line among the three (R106, R21). -/
def State.lineTaken (s : State) (h : HandleId) (clk dq rst : LineId) : Bool :=
  (s.handles.map Prod.fst ++ s.tasks.map Prod.fst).any fun g =>
    decide (g ≠ h) && s.holds g && ((s.handle g).owns clk || (s.handle g).owns dq || (s.handle g).owns rst)

/-- init's aliasing test (R106, R21, R103 (c)). -/
def State.aliased (s : State) (h : HandleId) (clk dq rst : LineId) : Bool :=
  !linesDistinct clk dq rst || s.lineTaken h clk dq rst

/-- The payload of WRITE_CONFIG: `zext_16(c)` (R56). -/
def configPayload (c : Byte) : Word := c.setWidth 16

/-- What a command's payload operand is in a command frame of width 0 or a read (R66 (a), R67). -/
def noPayload : Word := 0

/-- The zero-equivalent of an operation with the given result (R15, R62, R71). -/
def Result.zero : Result → Option Word
  | .nothing => none
  | .raw => some 0
  | .celsius => some 0
  | .fahrenheit => some 0

end Sys2Proof.Machine
end

