-- ==== Sys2Proof/Machine/Ops.lean ====
section
/-! DEFINITION. The collaborator events on the state, the bit cells and the primitives' event lists, how an operation
runs and ends, and the turns of the agents. The block takes no exception (60_exceptions.md R94, R98): the only
save-and-restore is the exclusion region's. -/

namespace Sys2Proof.Machine

/-- What every step of this model answers. -/
abbrev Answer := Host.Outcome State Fault Refusal

/-! ## Events (00_scope.md R14) -/

/-- Appends one event to the trace (R13). -/
def State.emit (s : State) (h : HandleId) (e : Event) : State :=
  { s with trace := s.trace ++ [⟨h, e⟩] }

/-- `Drive(l, b)`: `out(l) <- b` (R14, R23). -/
def State.drive (s : State) (h : HandleId) (l : LineId) (b : Bit) : State :=
  { s with lines := Assoc.set l { s.latch l with out := b } s.lines }.emit h (.drive l b)

/-- `SetDir(l, d)`: `dir(l) <- d` (R14, R23). -/
def State.setDir (s : State) (h : HandleId) (l : LineId) (d : Dir) : State :=
  { s with lines := Assoc.set l { s.latch l with dir := d } s.lines }.emit h (.setDir l d)

/-- `Sample(l)`: takes the next draw (R14, R43). -/
def State.sample (s : State) (h : HandleId) (l : LineId) : State :=
  { s with draws := s.draws.tail, drawn := s.drawn + 1 }.emit h (.sample l (s.drawAt 0))

/-- `ExclEnter()` (R28, R60), on the one save stack of all handles. DESIGN CHOICE, unsafe (log entry 23). -/
def State.exclEnter (s : State) (h : HandleId) : State :=
  { s with excl := s.ie :: s.excl, ie := false }.emit h .exclEnter

/-- `ExclExit()` (R28, R60). On an empty stack, which no run reaches, it keeps `host.ie`; the turns stop before it
(log entry 16). -/
def State.exclExit (s : State) (h : HandleId) : State :=
  { s with ie := s.excl.headD s.ie, excl := s.excl.tail }.emit h .exclExit

/-- An operation ends (R95, R110). -/
def State.logReturn (s : State) (h : Option HandleId) (e : Ending) : State :=
  { s with returns := s.returns ++ [⟨h, e⟩] }

/-- Writes a handle record. -/
def State.setHandle (s : State) (h : HandleId) (g : Handle) : State :=
  { s with handles := Assoc.set h g s.handles }

/-- Puts an operation in progress on a handle. -/
def State.setTask (s : State) (h : HandleId) (t : Task) : State :=
  { s with tasks := Assoc.set h t s.tasks }

/-- Takes the operation in progress off a handle. -/
def State.clearTask (s : State) (h : HandleId) : State :=
  { s with tasks := Assoc.erase h s.tasks }

/-- `acc | (zext_16(b) << i)` (R67). -/
def accumulate (acc : Word) (i : Nat) (b : Bit) : Word :=
  acc ||| ((BitVec.ofBool b).setWidth 16 <<< i)

/-- An accumulator and the state, while an operation runs. -/
structure Run where
  acc : Word
  st : State
deriving DecidableEq, Repr

/-- Performs one event of an operation on handle `h`. -/
def performAct (h : HandleId) (a : Act) (r : Run) : Run :=
  match a with
  | .drive p b => { r with st := r.st.drive h ((r.st.handle h).line p) b }
  | .setDir p d => { r with st := r.st.setDir h ((r.st.handle h).line p) d }
  | .sample i => ⟨accumulate r.acc i (r.st.drawAt 0), r.st.sample h (r.st.handle h).dq⟩
  | .delayUnit => { r with st := r.st.emit h (.delayUs r.st.params.tUnitUs) }
  | .delaySettle => { r with st := r.st.emit h (.delayMs r.st.params.tNvMs) }
  | .exclEnter => { r with st := r.st.exclEnter h }
  | .exclExit => { r with st := r.st.exclExit h }

/-- Performs events in order. -/
def runActs (h : HandleId) : List Act → Run → Run
  | [], r => r
  | a :: as, r => runActs h as (performAct h a r)

/-! ## Bit cells and primitives (40_transaction_engine.md) -/

/-- The write cell (R64). -/
def writeCell (b : Bit) : List Act :=
  [.drive .dq b, .drive .clk false, .delayUnit, .drive .clk true, .delayUnit]

/-- The read cell whose sample lands in bit `i` (R65, R67). -/
def readCell (i : Nat) : List Act :=
  [.drive .clk false, .delayUnit, .drive .clk true, .sample i, .delayUnit]

/-- The command phase: eight cells, bit 0 first (R37, R48). -/
def commandCells (cmd : Byte) : List Act :=
  (List.range Config.cmdWidth).flatMap fun i => writeCell (cmd.getLsbD i)

/-- The payload phase of a write: `w` cells, bit 0 first (R37, R48). -/
def payloadCells (pay : Word) (w : Nat) : List Act :=
  (List.range w).flatMap fun i => writeCell (pay.getLsbD i)

/-- The payload phase of a read: `w` sampled cells (R37, R48). -/
def sampleCells (w : Nat) : List Act :=
  (List.range w).flatMap readCell

/-- The end of a write frame: RST is deasserted unless the width is 0 (R66). -/
def closeWrite (w : Nat) : List Act :=
  if w = 0 then [] else [.drive .rst false]

/-- The events of writeTransaction on a valid handle (R66). -/
def writeActs (cmd : Byte) (pay : Word) (w : Nat) : List Act :=
  [.exclEnter, .drive .rst true] ++ commandCells cmd ++ payloadCells pay w ++ closeWrite w ++ [.exclExit]

/-- The events of readTransaction on a valid handle (R67). -/
def readActs (cmd : Byte) (w : Nat) : List Act :=
  [.exclEnter, .drive .rst true] ++ writeActs cmd noPayload 0 ++ [.setDir .dq .input] ++ sampleCells w ++
    [.drive .rst false, .setDir .dq .output, .exclExit]

/-- The events of a primitive on an invalid handle (R62). -/
def guardActs : List Act := [.exclEnter, .exclExit]

/-- The events of init (R106). -/
def initActs : List Act :=
  [.drive .clk true, .drive .dq true, .drive .rst false, .setDir .clk .output, .setDir .dq .output,
    .setDir .rst .output]

/-- One poll read of startConversion (R74). -/
def pollTask (s : State) : Task where
  acts := readActs (s.code .readConfig) Command.readConfig.width
  acc := 0#16
  fin := .untilDone

/-! ## How an operation starts, runs and ends -/

/-- The config byte that a READ_CONFIG frame left in the accumulator (R74). -/
def configByte (acc : Word) : Byte := acc.setWidth 8

/-- Ends an operation, or lets startConversion go on polling. -/
def finish (h : HandleId) (f : Finish) (r : Run) : Answer :=
  match f with
  | .returns k =>
    match k.value r.acc with
    | some v => .next (r.st.logReturn (some h) (.done v))
    | none => .refused .fahrenheitOverflow
  | .guarded k => .next (r.st.logReturn (some h) (.noOp k.zero))
  | .testOneShot =>
    if Flag.test (configByte r.acc) .oneShot then .next (r.st.setTask h (pollTask r.st))
    else .next (r.st.logReturn (some h) (.done none))
  | .untilDone =>
    if Flag.test (configByte r.acc) .done then .next (r.st.logReturn (some h) (.done none))
    else .next (r.st.setTask h (pollTask r.st))
  | .bind => .next ((r.st.setHandle h { r.st.handle h with bound := true }).logReturn (some h) (.done none))

/-- What becomes of a call before its first event. -/
inductive Call where
  /-- It is refused, with no event (R95). -/
  | refuse (r : Refusal)
  /-- It has ended, with no event. -/
  | ended (s : State)
  /-- It has started on a handle, its events to come. -/
  | started (h : HandleId) (t : Task) (s : State)
deriving DecidableEq, Repr

/-- Runs an operation's events and ends it. -/
def runTask (h : HandleId) (t : Task) (s : State) : Answer :=
  finish h t.fin (runActs h t.acts ⟨t.acc, s⟩)

/-- The operation as the host's unit (D1): it runs to its return, or to startConversion's poll. -/
def Call.run : Call → Answer
  | .refuse r => .refused r
  | .ended s => .next s
  | .started h t s => runTask h t s

/-- The operation is issued and its events are left to later turns. -/
def Call.issue : Call → Answer
  | .refuse r => .refused r
  | .ended s => .next s
  | .started h t s => .next (s.setTask h t)

/-- A primitive: the width refusal, then the one-operation-per-handle refusal, then the guard inside the region
(R63, R97, R103 (b), R62). -/
def primitiveCall (h : HandleId) (w : Nat) (acts : List Act) (k : Result) (s : State) : Call :=
  if Config.maxWidth < w then .refuse .widthTooLarge
  else if s.busy h then .refuse .sharedHandle
  else if (s.handle h).bound then .started h ⟨acts, 0#16, .returns k⟩ s
  else .started h ⟨guardActs, 0#16, .guarded k⟩ s

/-- writeTransaction (R66). -/
def writeCall (h : HandleId) (cmd : Byte) (pay : Word) (w : Nat) (s : State) : Call :=
  primitiveCall h w (writeActs cmd pay w) .nothing s

/-- readTransaction (R67). -/
def readCall (h : HandleId) (cmd : Byte) (w : Nat) (s : State) : Call :=
  primitiveCall h w (readActs cmd w) .raw s

/-- A register-API operation: its guard first, with an empty trace, then the one-operation-per-handle refusal
(R71, R97, R103 (b)). -/
def apiCall (h : HandleId) (acts : List Act) (k : Result) (f : Finish) (s : State) : Call :=
  if (s.handle h).bound then
    if s.busy h then .refuse .sharedHandle else .started h ⟨acts, 0#16, f⟩ s
  else .ended (s.logReturn (some h) (.noOp k.zero))

/-- A register-API operation that is one read of a command at its width (R72, R75 to R82). -/
def apiRead (h : HandleId) (c : Command) (k : Result) (s : State) : Call :=
  apiCall h (readActs (s.code c) c.width) k (.returns k) s

/-- A register-API operation that is one write of a command at its width, with more events after it (R72, R83 to
R85). -/
def apiWrite (h : HandleId) (c : Command) (pay : Word) (after : List Act) (s : State) : Call :=
  apiCall h (writeActs (s.code c) pay c.width ++ after) .nothing (.returns .nothing) s

/-- A codec function: pure, no event, no handle (R57, R87 to R89). -/
def codecCall (v : Option Word) (s : State) : Call :=
  match v with
  | some x => .ended (s.logReturn none (.done (some x)))
  | none => .refuse .fahrenheitOverflow

/-! ## Turns -/

/-- The depth of the save stack after the events from depth `n`; none where an exit would find it empty (R28). -/
def depthAfter : Nat → List Act → Option Nat
  | n, [] => some n
  | n, .exclEnter :: as => depthAfter (n + 1) as
  | 0, .exclExit :: _ => none
  | n + 1, .exclExit :: as => depthAfter n as
  | n, .drive _ _ :: as => depthAfter n as
  | n, .setDir _ _ :: as => depthAfter n as
  | n, .sample _ :: as => depthAfter n as
  | n, .delayUnit :: as => depthAfter n as
  | n, .delaySettle :: as => depthAfter n as

/-- The events would take more off the save stack than is on it. -/
def underflows (n : Nat) (as : List Act) : Bool := (depthAfter n as).isNone

/-- Performs the next event of the operation in progress on `h`, and ends it after the last (R18, R110); a handle with
none in progress lets the turn pass. When the regions of two handles interleave (R44) each entry pushes on the one save
stack and each exit pops its top, whichever handle's that was: the stack may go deeper than the two of R98, and
`host.ie` comes back when the last region ends. DESIGN CHOICE, unsafe (log entry 23). -/
def eventTurn (h : HandleId) (s : State) : Answer :=
  match s.task h with
  | none => .next s
  | some t =>
    match t.acts with
    | [] => finish h t.fin ⟨t.acc, s.clearTask h⟩
    | a :: rest =>
      if underflows s.excl.length [a] then .fault .exclUnderflow
      else
        match rest with
        | [] => finish h t.fin (performAct h a ⟨t.acc, s.clearTask h⟩)
        | b :: more =>
          let r := performAct h a ⟨t.acc, s⟩
          .next (r.st.setTask h ⟨b :: more, r.acc, t.fin⟩)

/-- Runs the operation in progress on `h` on to its return, or through one poll read of startConversion (R74, R96). -/
def resumeTurn (h : HandleId) (s : State) : Answer :=
  match s.task h with
  | none => .next s
  | some t =>
    if underflows s.excl.length t.acts then .fault .exclUnderflow
    else runTask h t (s.clearTask h)

/-- The host writes its own interrupt state (R16 (b)); inside an exclusion region it does not come to run, and the turn
passes (R41). DESIGN CHOICE, safe (log entry 21). -/
def setIeTurn (b : Bit) (s : State) : Answer :=
  if s.excl = [] then .next { s with ie := b } else .next s

/-- Who moves next: the head of the schedule; with none, the host is blocked while an operation is in progress
(R16 (a) "blocking call-per-call"), and calls otherwise. -/
def State.turn (s : State) : Turn :=
  match s.sched with
  | t :: _ => t
  | [] =>
    match s.tasks with
    | (h, _) :: _ => .resume h
    | [] => .call

/-- Takes the turn off the schedule. -/
def State.popTurn (s : State) : State := { s with sched := s.sched.tail }

/-- Takes the request off the script. -/
def State.popRequest (s : State) : State := { s with script := s.script.tail }

/-- The host's next request, decoded. -/
def State.nextRequest (s : State) : Option (Except DecodeError Instr) :=
  s.script.head?.map decode

/-- The host issues its next operation through `f`; with none left it is idle (R105, R110). -/
def hostTurn (f : Instr → State → Answer) (s : State) : Answer :=
  match s.nextRequest with
  | none => .next s
  | some (.error e) => .refused (.undecodable e)
  | some (.ok i) => f i s.popRequest

end Sys2Proof.Machine
end

