-- ==== Sys2Proof/Machine/Api.lean ====
section
/-! DEFINITION. The twelve register-API operations (41_register_api.md R71 to R85). -/

namespace Sys2Proof.Machine

/-- startConversion (R74): the START_CONV frame, one READ_CONFIG read, and if that read shows 1SHOT, further READ_CONFIG
reads until one shows DONE. The poll has no bound (R96): while it goes on the operation stays in progress, and later turns
run its reads (log entry 12). -/
def callStartConversion (h : HandleId) (s : State) : Call :=
  apiCall h
    (writeActs (s.code .startConv) noPayload Command.startConv.width ++
      readActs (s.code .readConfig) Command.readConfig.width)
    .nothing .testOneShot s

/-- startConversion, run as one operation. -/
def execStartConversion (h : HandleId) (s : State) : Answer :=
  (callStartConversion h s).run

/-- readTempC (R75). -/
def callReadTempC (h : HandleId) (s : State) : Call :=
  apiRead h .readTemp .celsius s

/-- readTempC, run as one operation. -/
def execReadTempC (h : HandleId) (s : State) : Answer :=
  (callReadTempC h s).run

/-- readTempF (R76): one read frame; on an invalid handle 0, not 32 (R71). -/
def callReadTempF (h : HandleId) (s : State) : Call :=
  apiRead h .readTemp .fahrenheit s

/-- readTempF, run as one operation. -/
def execReadTempF (h : HandleId) (s : State) : Answer :=
  (callReadTempF h s).run

/-- readTempRaw (R77). -/
def callReadTempRaw (h : HandleId) (s : State) : Call :=
  apiRead h .readTemp .raw s

/-- readTempRaw, run as one operation. -/
def execReadTempRaw (h : HandleId) (s : State) : Answer :=
  (callReadTempRaw h s).run

/-- readHighC (R78). -/
def callReadHighC (h : HandleId) (s : State) : Call :=
  apiRead h .readHTemp .celsius s

/-- readHighC, run as one operation. -/
def execReadHighC (h : HandleId) (s : State) : Answer :=
  (callReadHighC h s).run

/-- readLowC (R79). -/
def callReadLowC (h : HandleId) (s : State) : Call :=
  apiRead h .readLTemp .celsius s

/-- readLowC, run as one operation. -/
def execReadLowC (h : HandleId) (s : State) : Answer :=
  (callReadLowC h s).run

/-- readCounter (R80). -/
def callReadCounter (h : HandleId) (s : State) : Call :=
  apiRead h .readCounter .raw s

/-- readCounter, run as one operation. -/
def execReadCounter (h : HandleId) (s : State) : Answer :=
  (callReadCounter h s).run

/-- readSlope (R81). -/
def callReadSlope (h : HandleId) (s : State) : Call :=
  apiRead h .readSlope .raw s

/-- readSlope, run as one operation. -/
def execReadSlope (h : HandleId) (s : State) : Answer :=
  (callReadSlope h s).run

/-- readConfig (R82). -/
def callReadConfig (h : HandleId) (s : State) : Call :=
  apiRead h .readConfig .raw s

/-- readConfig, run as one operation. -/
def execReadConfig (h : HandleId) (s : State) : Answer :=
  (callReadConfig h s).run

/-- writeConfig (R83): the frame, then the settle delay outside the exclusion region. -/
def callWriteConfig (h : HandleId) (c : Byte) (s : State) : Call :=
  apiWrite h .writeConfig (configPayload c) [.delaySettle] s

/-- writeConfig, run as one operation. -/
def execWriteConfig (h : HandleId) (c : Byte) (s : State) : Answer :=
  (callWriteConfig h c s).run

/-- writeHighC (R84): no settle delay (R115). -/
def callWriteHighC (h : HandleId) (t : Word) (s : State) : Call :=
  apiWrite h .writeHTemp (thresholdPayload t) [] s

/-- writeHighC, run as one operation. -/
def execWriteHighC (h : HandleId) (t : Word) (s : State) : Answer :=
  (callWriteHighC h t s).run

/-- writeLowC (R85): no settle delay (R115). -/
def callWriteLowC (h : HandleId) (t : Word) (s : State) : Call :=
  apiWrite h .writeLTemp (thresholdPayload t) [] s

/-- writeLowC, run as one operation. -/
def execWriteLowC (h : HandleId) (t : Word) (s : State) : Answer :=
  (callWriteLowC h t s).run

end Sys2Proof.Machine
end

