-- ==== Sys2Proof/Machine/Codec.lean ====
section
/-! DEFINITION. The three codec functions called on their own (42_temperature_codec.md R87, R88, R89). -/

namespace Sys2Proof.Machine

/-- decodeC (R87). -/
def callDecodeC (r : Word) (s : State) : Call :=
  codecCall (some (celsiusOf r)) s

/-- decodeC, run as one operation. -/
def execDecodeC (r : Word) (s : State) : Answer :=
  (callDecodeC r s).run

/-- toF (R88), refused outside its domain. -/
def callToF (c : Word) (s : State) : Call :=
  codecCall (fahrenheitOf c) s

/-- toF, run as one operation. -/
def execToF (c : Word) (s : State) : Answer :=
  (callToF c s).run

/-- encodeT (R89). -/
def callEncodeT (t : Word) (s : State) : Call :=
  codecCall (some (thresholdPayload t)) s

/-- encodeT, run as one operation. -/
def execEncodeT (t : Word) (s : State) : Answer :=
  (callEncodeT t s).run

end Sys2Proof.Machine
end

