-- ==== Sys2Proof/Machine/Command.lean ====
section
/-! DEFINITION. The eleven command rows (30_encoding.md R50): each is the primitive call that sends the command's frame at its
table width and in its table direction (R48, R86). DEDUCED, safe (log entry 2). -/

namespace Sys2Proof.Machine

/-- START_CONV, a write frame of width 0: RST is left asserted (R50, R66 (a), R27). -/
def callCmdStartConv (h : HandleId) (s : State) : Call :=
  writeCall h (s.code .startConv) noPayload Command.startConv.width s

/-- cmdStartConv, run as one operation. -/
def execCmdStartConv (h : HandleId) (s : State) : Answer :=
  (callCmdStartConv h s).run

/-- STOP_CONV, reachable only through writeTransaction with width 0 (R86). -/
def callCmdStopConv (h : HandleId) (s : State) : Call :=
  writeCall h (s.code .stopConv) noPayload Command.stopConv.width s

/-- cmdStopConv, run as one operation. -/
def execCmdStopConv (h : HandleId) (s : State) : Answer :=
  (callCmdStopConv h s).run

/-- READ_TEMP, a read frame of width 9 (R50, R67). -/
def callCmdReadTemp (h : HandleId) (s : State) : Call :=
  readCall h (s.code .readTemp) Command.readTemp.width s

/-- cmdReadTemp, run as one operation. -/
def execCmdReadTemp (h : HandleId) (s : State) : Answer :=
  (callCmdReadTemp h s).run

/-- READ_H_TEMP, a read frame of width 9 (R50, R67). -/
def callCmdReadHTemp (h : HandleId) (s : State) : Call :=
  readCall h (s.code .readHTemp) Command.readHTemp.width s

/-- cmdReadHTemp, run as one operation. -/
def execCmdReadHTemp (h : HandleId) (s : State) : Answer :=
  (callCmdReadHTemp h s).run

/-- READ_L_TEMP, a read frame of width 9 (R50, R67). -/
def callCmdReadLTemp (h : HandleId) (s : State) : Call :=
  readCall h (s.code .readLTemp) Command.readLTemp.width s

/-- cmdReadLTemp, run as one operation. -/
def execCmdReadLTemp (h : HandleId) (s : State) : Answer :=
  (callCmdReadLTemp h s).run

/-- WRITE_H_TEMP, a write frame of width 9 (R50, R66). -/
def callCmdWriteHTemp (h : HandleId) (payload : Word) (s : State) : Call :=
  writeCall h (s.code .writeHTemp) payload Command.writeHTemp.width s

/-- cmdWriteHTemp, run as one operation. -/
def execCmdWriteHTemp (h : HandleId) (payload : Word) (s : State) : Answer :=
  (callCmdWriteHTemp h payload s).run

/-- WRITE_L_TEMP, a write frame of width 9 (R50, R66). -/
def callCmdWriteLTemp (h : HandleId) (payload : Word) (s : State) : Call :=
  writeCall h (s.code .writeLTemp) payload Command.writeLTemp.width s

/-- cmdWriteLTemp, run as one operation. -/
def execCmdWriteLTemp (h : HandleId) (payload : Word) (s : State) : Answer :=
  (callCmdWriteLTemp h payload s).run

/-- READ_COUNTER, a read frame of width 8 (R50, R67). -/
def callCmdReadCounter (h : HandleId) (s : State) : Call :=
  readCall h (s.code .readCounter) Command.readCounter.width s

/-- cmdReadCounter, run as one operation. -/
def execCmdReadCounter (h : HandleId) (s : State) : Answer :=
  (callCmdReadCounter h s).run

/-- READ_SLOPE, a read frame of width 8 (R50, R67). -/
def callCmdReadSlope (h : HandleId) (s : State) : Call :=
  readCall h (s.code .readSlope) Command.readSlope.width s

/-- cmdReadSlope, run as one operation. -/
def execCmdReadSlope (h : HandleId) (s : State) : Answer :=
  (callCmdReadSlope h s).run

/-- READ_CONFIG, a read frame of width 8 (R50, R67). -/
def callCmdReadConfig (h : HandleId) (s : State) : Call :=
  readCall h (s.code .readConfig) Command.readConfig.width s

/-- cmdReadConfig, run as one operation. -/
def execCmdReadConfig (h : HandleId) (s : State) : Answer :=
  (callCmdReadConfig h s).run

/-- WRITE_CONFIG, a write frame of width 8; the settle delay is writeConfig's, not the frame's (R50, R66, R114). -/
def callCmdWriteConfig (h : HandleId) (payload : Word) (s : State) : Call :=
  writeCall h (s.code .writeConfig) payload Command.writeConfig.width s

/-- cmdWriteConfig, run as one operation. -/
def execCmdWriteConfig (h : HandleId) (payload : Word) (s : State) : Answer :=
  (callCmdWriteConfig h payload s).run

end Sys2Proof.Machine
end

