-- ==== Sys2Proof/Machine/Lifecycle.lean ====
section
/-! DEFINITION. init and release (70_reset_and_hazards.md R106, R107). -/

namespace Sys2Proof.Machine

/-- init (R106): the aliasing refusals, then the record's fields, then the six events; the handle becomes valid after the
last. No exclusion event, no delay, no command. Re-init of a valid handle is allowed (R106 (a)). The aliasing test
is against every other handle that holds its lines, one whose init is in progress included, so that no two ever share one
(R21 (c), R111). DESIGN CHOICE, safe (log entry 15). -/
def callInit (h : HandleId) (clk dq rst : LineId) (pOut pDir pIn : PortRef) (s : State) : Call :=
  if s.aliased h clk dq rst then .refuse .aliasedLines
  else if s.busy h then .refuse .sharedHandle
  else
    .started h ⟨initActs, 0#16, .bind⟩
      (s.setHandle h ⟨(s.handle h).bound, clk, dq, rst, pOut, pDir, pIn⟩)

/-- init, run as one operation. -/
def execInit (h : HandleId) (clk dq rst : LineId) (pOut pDir pIn : PortRef) (s : State) : Answer :=
  (callInit h clk dq rst pOut pDir pIn s).run

/-- release (R107): only `h.bound`, with no event; on an invalid handle a no-op. -/
def callRelease (h : HandleId) (s : State) : Call :=
  if s.busy h then .refuse .sharedHandle
  else if (s.handle h).bound then
    .ended ((s.setHandle h { s.handle h with bound := false }).logReturn (some h) (.done none))
  else .ended (s.logReturn (some h) (.noOp none))

/-- release, run as one operation. -/
def execRelease (h : HandleId) (s : State) : Answer :=
  (callRelease h s).run

end Sys2Proof.Machine
end

