-- ==== Sys2Proof/Machine/Transaction.lean ====
section
/-! DEFINITION. The two engine primitives (40_transaction_engine.md R66, R67). -/

namespace Sys2Proof.Machine

/-- writeTransaction (R66). -/
def callWriteTransaction (h : HandleId) (cmd : Byte) (payload : Word) (w : Nat) (s : State) : Call :=
  writeCall h cmd payload w s

/-- writeTransaction, run as one operation. -/
def execWriteTransaction (h : HandleId) (cmd : Byte) (payload : Word) (w : Nat) (s : State) : Answer :=
  (callWriteTransaction h cmd payload w s).run

/-- readTransaction (R67). -/
def callReadTransaction (h : HandleId) (cmd : Byte) (w : Nat) (s : State) : Call :=
  readCall h cmd w s

/-- readTransaction, run as one operation. -/
def execReadTransaction (h : HandleId) (cmd : Byte) (w : Nat) (s : State) : Answer :=
  (callReadTransaction h cmd w s).run

end Sys2Proof.Machine
end

