-- ==== Sys2Proof/Machine/Calls.lean ====
section
/-! DEFINITION. The call of each instruction, before its first event: what the event-by-event turns start from. -/

namespace Sys2Proof.Machine

/-- The call of an instruction; `exec` is this call run as one operation. -/
def callOf (i : Instr) (s : State) : Call :=
  match i with
  | .cmdStartConv h => callCmdStartConv h s
  | .cmdStopConv h => callCmdStopConv h s
  | .cmdReadTemp h => callCmdReadTemp h s
  | .cmdReadHTemp h => callCmdReadHTemp h s
  | .cmdReadLTemp h => callCmdReadLTemp h s
  | .cmdWriteHTemp h p => callCmdWriteHTemp h p s
  | .cmdWriteLTemp h p => callCmdWriteLTemp h p s
  | .cmdReadCounter h => callCmdReadCounter h s
  | .cmdReadSlope h => callCmdReadSlope h s
  | .cmdReadConfig h => callCmdReadConfig h s
  | .cmdWriteConfig h p => callCmdWriteConfig h p s
  | .init h clk dq rst pOut pDir pIn => callInit h clk dq rst pOut pDir pIn s
  | .release h => callRelease h s
  | .writeTransaction h cmd p w => callWriteTransaction h cmd p w s
  | .readTransaction h cmd w => callReadTransaction h cmd w s
  | .startConversion h => callStartConversion h s
  | .readTempC h => callReadTempC h s
  | .readTempF h => callReadTempF h s
  | .readTempRaw h => callReadTempRaw h s
  | .readHighC h => callReadHighC h s
  | .readLowC h => callReadLowC h s
  | .readCounter h => callReadCounter h s
  | .readSlope h => callReadSlope h s
  | .readConfig h => callReadConfig h s
  | .writeConfig h c => callWriteConfig h c s
  | .writeHighC h t => callWriteHighC h t s
  | .writeLowC h t => callWriteLowC h t s
  | .decodeC r => callDecodeC r s
  | .toF c => callToF c s
  | .encodeT t => callEncodeT t s

/-- The host issues an instruction whose events later turns perform (R18, R44). -/
def issueInstr (i : Instr) (s : State) : Answer :=
  (callOf i s).issue

end Sys2Proof.Machine
end

