-- ==== Sys2Proof/Machine/Dispatch.lean ====
section
/-! DEFINITION. What each instruction does: one arm per constructor, one call of its meaning. -/

namespace Sys2Proof.Machine

def exec (i : Instr) (s : State) : Host.Outcome State Fault Refusal :=
  match i with
  | .cmdStartConv h => Sys2Proof.Machine.execCmdStartConv h s
  | .cmdStopConv h => Sys2Proof.Machine.execCmdStopConv h s
  | .cmdReadTemp h => Sys2Proof.Machine.execCmdReadTemp h s
  | .cmdReadHTemp h => Sys2Proof.Machine.execCmdReadHTemp h s
  | .cmdReadLTemp h => Sys2Proof.Machine.execCmdReadLTemp h s
  | .cmdWriteHTemp h p => Sys2Proof.Machine.execCmdWriteHTemp h p s
  | .cmdWriteLTemp h p => Sys2Proof.Machine.execCmdWriteLTemp h p s
  | .cmdReadCounter h => Sys2Proof.Machine.execCmdReadCounter h s
  | .cmdReadSlope h => Sys2Proof.Machine.execCmdReadSlope h s
  | .cmdReadConfig h => Sys2Proof.Machine.execCmdReadConfig h s
  | .cmdWriteConfig h p => Sys2Proof.Machine.execCmdWriteConfig h p s
  | .init h clk dq rst pOut pDir pIn => Sys2Proof.Machine.execInit h clk dq rst pOut pDir pIn s
  | .release h => Sys2Proof.Machine.execRelease h s
  | .writeTransaction h cmd p w => Sys2Proof.Machine.execWriteTransaction h cmd p w s
  | .readTransaction h cmd w => Sys2Proof.Machine.execReadTransaction h cmd w s
  | .startConversion h => Sys2Proof.Machine.execStartConversion h s
  | .readTempC h => Sys2Proof.Machine.execReadTempC h s
  | .readTempF h => Sys2Proof.Machine.execReadTempF h s
  | .readTempRaw h => Sys2Proof.Machine.execReadTempRaw h s
  | .readHighC h => Sys2Proof.Machine.execReadHighC h s
  | .readLowC h => Sys2Proof.Machine.execReadLowC h s
  | .readCounter h => Sys2Proof.Machine.execReadCounter h s
  | .readSlope h => Sys2Proof.Machine.execReadSlope h s
  | .readConfig h => Sys2Proof.Machine.execReadConfig h s
  | .writeConfig h c => Sys2Proof.Machine.execWriteConfig h c s
  | .writeHighC h t => Sys2Proof.Machine.execWriteHighC h t s
  | .writeLowC h t => Sys2Proof.Machine.execWriteLowC h t s
  | .decodeC r => Sys2Proof.Machine.execDecodeC r s
  | .toF c => Sys2Proof.Machine.execToF c s
  | .encodeT t => Sys2Proof.Machine.execEncodeT t s

end Sys2Proof.Machine
end

