-- ==== Sys2Proof/Machine/Step.lean ====
section
/-! DEFINITION. One step: the agent whose turn it is moves (20_memory.md R44). -/

namespace Sys2Proof.Machine

/-- One step of the machine. -/
def step (s : State) : Host.Outcome State Fault Refusal :=
  match s.turn with
  | .call => hostTurn exec s.popTurn
  | .issue => hostTurn issueInstr s.popTurn
  | .event h => eventTurn h s.popTurn
  | .resume h => resumeTurn h s.popTurn
  | .setIe b => setIeTurn b s.popTurn

/-- The state in which the host's next request is the opcode table's word, its operand words 0, and the next turn is
the host's (log entry 22). -/
def State.withFetchWord (s : State) (nbits w : Nat) : State :=
  { s with script := tableRequest nbits w :: s.script, sched := .call :: s.sched }

end Sys2Proof.Machine
end

