-- ==== Sys2Proof/Safety.lean ====
section
/-! DEFINITION. What a safe state is, and the words the statements use: the spec's traces as lists of events on lines,
what an operation keeps, and what it leaves on the lines. -/

namespace Sys2Proof.Safety

open Sys2Proof.Machine

/-! ## The spec's traces -/

/-- The events of a write cell on a handle's lines (40_transaction_engine.md R64). -/
def writeCellEvents (g : Handle) (unit : Nat) (b : Bit) : List Event :=
  [.drive g.dq b, .drive g.clk false, .delayUs unit, .drive g.clk true, .delayUs unit]

/-- The events of a read cell in which DQ reads `b` (R65). -/
def readCellEvents (g : Handle) (unit : Nat) (b : Bit) : List Event :=
  [.drive g.clk false, .delayUs unit, .drive g.clk true, .sample g.dq b, .delayUs unit]

/-- Bits 0 to `w - 1` of a value, in wire order (R37). -/
def lowBits {n : Nat} (v : BitVec n) (w : Nat) : List Bit :=
  (List.range w).map v.getLsbD

/-- The next `w` draws, in wire order (R43). -/
def drawnBits (s : State) (w : Nat) : List Bit :=
  (List.range w).map s.drawAt

/-- The trace of writeTransaction on a valid handle (R66). -/
def writeEvents (g : Handle) (unit : Nat) (cmd : Byte) (pay : Word) (w : Nat) : List Event :=
  [.exclEnter, .drive g.rst true] ++ (lowBits cmd 8 ++ lowBits pay w).flatMap (writeCellEvents g unit) ++
    (if w = 0 then [] else [.drive g.rst false]) ++ [.exclExit]

/-- The trace of readTransaction on a valid handle, the samples reading `bits` (R67). -/
def readEvents (g : Handle) (unit : Nat) (cmd : Byte) (bits : List Bit) : List Event :=
  [.exclEnter, .drive g.rst true] ++ writeEvents g unit cmd 0 0 ++ [.setDir g.dq .input] ++
    bits.flatMap (readCellEvents g unit) ++ [.drive g.rst false, .setDir g.dq .output, .exclExit]

/-- The trace of init (70_reset_and_hazards.md R106). -/
def initEvents (clk dq rst : LineId) : List Event :=
  [.drive clk true, .drive dq true, .drive rst false, .setDir clk .output, .setDir dq .output, .setDir rst .output]

/-- `r` holds the next `w` draws, bit `i` the draw of sampled cell `i`, and zero above (30_encoding.md R55). -/
def HoldsDraws (s : State) (w : Nat) (r : Word) : Prop :=
  ∀ i, i < 16 → r.getLsbD i = (decide (i < w) && s.drawAt i)

/-! ## What an operation changes and keeps -/

/-- The fields no transaction writes for good: the configuration, every handle record, the operations in progress, the
interrupt state and its save stack, what the host still issues and who moves next (40_transaction_engine.md R70, R60). -/
structure Keeps (s t : State) : Prop where
  params : t.params = s.params
  handles : t.handles = s.handles
  tasks : t.tasks = s.tasks
  ie : t.ie = s.ie
  excl : t.excl = s.excl
  script : t.script = s.script
  sched : t.sched = s.sched

/-- Every line that is not one of the handle's keeps its level and its direction. -/
def OtherLinesKept (g : Handle) (s t : State) : Prop :=
  ∀ l, g.owns l = false → t.latch l = s.latch l

/-- The trace grew by exactly these events of the operation on `h`. -/
def Traced (h : HandleId) (es : List Event) (s t : State) : Prop :=
  t.trace = s.trace ++ es.map (Entry.mk h)

/-- Exactly one operation ended, so. -/
def Returned (h : Option HandleId) (e : Ending) (s t : State) : Prop :=
  t.returns = s.returns ++ [⟨h, e⟩]

/-- Exactly `n` samples were taken. -/
def Drew (n : Nat) (s t : State) : Prop :=
  t.draws = s.draws.drop n ∧ t.drawn = s.drawn + n

/-- An operation on the valid handle `h` ran with this trace, `n` samples and this end, and changed nothing else but
the levels and directions of its own lines. -/
structure Ran (h : HandleId) (es : List Event) (n : Nat) (e : Ending) (s t : State) : Prop where
  keeps : Keeps s t
  lines : OtherLinesKept (s.handle h) s t
  trace : Traced h es s t
  returned : Returned (some h) e s t
  drew : Drew n s t

/-- What a write frame leaves on the lines: CLK high, RST asserted just when the width was 0, DQ at the last bit sent,
every direction as it was (R66, 10_state.md R26). -/
structure WriteLevels (h : HandleId) (cmd : Byte) (pay : Word) (w : Nat) (s t : State) : Prop where
  clk : t.outOf h .clk = true
  rst : t.outOf h .rst = decide (w = 0)
  dq : t.outOf h .dq = if w = 0 then cmd.getLsbD 7 else pay.getLsbD (w - 1)
  dirs : ∀ p, t.dirOf h p = s.dirOf h p

/-- What a read frame leaves on the lines: CLK high, RST deasserted, DQ at command bit 7 and an output again, the other
directions as they were (R67). -/
structure ReadLevels (h : HandleId) (cmd : Byte) (s t : State) : Prop where
  clk : t.outOf h .clk = true
  rst : t.outOf h .rst = false
  dq : t.outOf h .dq = cmd.getLsbD 7
  dqDir : t.dirOf h .dq = .output
  clkDir : t.dirOf h .clk = s.dirOf h .clk
  rstDir : t.dirOf h .rst = s.dirOf h .rst

/-- The handle is valid, its lines are distinct and no operation on it is in progress: the premises under which the
spec's rule of an operation applies (10_state.md R21, 70_reset_and_hazards.md R118). -/
structure Ready (h : HandleId) (s : State) : Prop where
  bound : (s.handle h).bound = true
  distinct : (s.handle h).distinct = true
  free : s.busy h = false

/-! ## Results and whole frames -/

/-- `v` is the Celsius value of the raw word `r`: half of the signed 9-bit count, rounded toward minus infinity, and so
in -128..127 (42_temperature_codec.md R87). -/
def IsCelsius (r v : Word) : Prop :=
  v.toInt = (r.setWidth 9).toInt / 2 ∧ -128 ≤ v.toInt ∧ v.toInt ≤ 127

/-- `v` is the Fahrenheit value of the raw word `r` by way of its Celsius value, in -198..260 (R76, R88). -/
def IsFahrenheit (r v : Word) : Prop :=
  (∃ c : Word, IsCelsius r c ∧ v.toInt = (9 * c.toInt + 160).tdiv 5) ∧ -198 ≤ v.toInt ∧ v.toInt ≤ 260

/-- `v` is the raw word itself, an unsigned `w`-bit value in a signed word (R77, R80, R90). -/
def IsRaw (w : Nat) (r v : Word) : Prop :=
  v = r ∧ v.toInt = v.toNat ∧ v.toNat < 2 ^ w

/-- The answer is a next state in which one write frame ran on the valid handle `h`, followed by `after`. -/
def RunsWrite (h : HandleId) (cmd : Byte) (pay : Word) (w : Nat) (after : List Event) (s : State) (a : Answer) : Prop :=
  ∃ t, a = .next t ∧ WriteLevels h cmd pay w s t ∧
    Ran h (writeEvents (s.handle h) s.params.tUnitUs cmd pay w ++ after) 0 (.done none) s t

/-- The answer is a next state in which one read frame ran on the valid handle `h`; it took `w` draws, `r` holds them,
and the operation returned a `v` with `P r v`. The trace grew by 49 + 5w events. -/
def RunsRead (h : HandleId) (cmd : Byte) (w : Nat) (P : Word → Word → Prop) (s : State) (a : Answer) : Prop :=
  ∃ t r v, a = .next t ∧ HoldsDraws s w r ∧ P r v ∧ ReadLevels h cmd s t ∧
    t.trace.length = s.trace.length + (49 + 5 * w) ∧
    Ran h (readEvents (s.handle h) s.params.tUnitUs cmd (drawnBits s w)) w (.done (some v)) s t

/-- The answer is what readTransaction of this command and width answers, but that its raw word `r` was returned as a `v`
with `P r v`; `n` events happened. This is the form of the register API's reads: a thin composition over the engine. -/
def ReadsOnce (h : HandleId) (cmd : Byte) (w n : Nat) (P : Word → Word → Prop) (s : State) (a : Answer) : Prop :=
  ∃ u r v, exec (.readTransaction h cmd w) s = .next u ∧ Returned (some h) (.done (some r)) s u ∧ P r v ∧
    u.trace.length = s.trace.length + n ∧ a = .next { u with returns := s.returns ++ [⟨some h, .done (some v)⟩] }

/-- The answer is what writeTransaction of this command, payload and width answers, with the events `after` behind it; `n`
events happened. -/
def WritesOnce (h : HandleId) (cmd : Byte) (pay : Word) (w : Nat) (after : List Event) (n : Nat) (s : State)
    (a : Answer) : Prop :=
  ∃ u, exec (.writeTransaction h cmd pay w) s = .next u ∧ (u.trace ++ after.map (Entry.mk h)).length = s.trace.length + n ∧
    a = .next { u with trace := u.trace ++ after.map (Entry.mk h) }

/-- The answer is the very state in which readTransaction of this command and width returned: its accumulator `v`, the draws
of the sampled cells, is the result as it is, unsigned and at most `top` (42_temperature_codec.md R90). -/
def AnswersTheRead (h : HandleId) (cmd : Byte) (w top : Nat) (s : State) (a : Answer) : Prop :=
  ∃ u v, exec (.readTransaction h cmd w) s = .next u ∧ a = .next u ∧ Returned (some h) (.done (some v)) s u ∧
    HoldsDraws s w v ∧ v.toInt = v.toNat ∧ v.toNat ≤ top

/-- The answer is the very state in which a writeTransaction of this command and width ended: nothing comes after the frame
(70_reset_and_hazards.md R115). -/
def AnswersAWrite (h : HandleId) (cmd : Byte) (w : Nat) (s : State) (a : Answer) : Prop :=
  ∃ pay u, exec (.writeTransaction h cmd pay w) s = .next u ∧ a = .next u ∧ Returned (some h) (.done none) s u

/-- The answer is a next state in which only the return of a no-op was recorded: no event, no draw (41_register_api.md
R71). -/
def IsNoOp (h : HandleId) (v : Option Word) (s : State) (a : Answer) : Prop :=
  a = .next { s with returns := s.returns ++ [⟨some h, .noOp v⟩] }

/-- The answer is a next state in which an exclusion region was entered and left, and the return of a no-op recorded
(40_transaction_engine.md R62). -/
def IsGuarded (h : HandleId) (v : Option Word) (s : State) (a : Answer) : Prop :=
  a = .next { s with
    trace := s.trace ++ [⟨h, .exclEnter⟩, ⟨h, .exclExit⟩]
    returns := s.returns ++ [⟨some h, .noOp v⟩] }

/-- The answer is a next state in which only the value of a codec function was returned: no event, no handle. -/
def IsPure (v : Word) (s : State) (a : Answer) : Prop :=
  a = .next { s with returns := s.returns ++ [⟨none, .done (some v)⟩] }

/-- An operation on `h` left startConversion's poll in progress on it: the events ran, nothing was returned, and a poll
read is to come (41_register_api.md R74). -/
structure Polling (h : HandleId) (es : List Event) (n : Nat) (s t : State) : Prop where
  params : t.params = s.params
  handles : t.handles = s.handles
  ie : t.ie = s.ie
  excl : t.excl = s.excl
  script : t.script = s.script
  sched : t.sched = s.sched
  returns : t.returns = s.returns
  task : t.task h = some (pollTask s)
  others : ∀ g, g ≠ h → t.task g = s.task g
  lines : OtherLinesKept (s.handle h) s t
  trace : Traced h es s t
  drew : Drew n s t

/-- The poll on `h` ended: the events ran and startConversion returned. -/
structure PollEnded (h : HandleId) (es : List Event) (n : Nat) (s t : State) : Prop where
  params : t.params = s.params
  handles : t.handles = s.handles
  ie : t.ie = s.ie
  excl : t.excl = s.excl
  script : t.script = s.script
  sched : t.sched = s.sched
  returned : Returned (some h) (.done none) s t
  task : t.task h = none
  others : ∀ g, g ≠ h → t.task g = s.task g
  lines : OtherLinesKept (s.handle h) s t
  trace : Traced h es s t
  drew : Drew n s t

/-- startConversion's poll is what is in progress on the valid handle `h`. -/
structure PollReady (h : HandleId) (s : State) : Prop where
  bound : (s.handle h).bound = true
  distinct : (s.handle h).distinct = true
  task : s.task h = some (pollTask s)

/-! ## Counting clock pulses (R69) -/

/-- How many events are this one. -/
def countEvents (e : Event) (es : List Event) : Nat :=
  (es.filter fun x => decide (x = e)).length

/-! ## What a trace puts on the wire (20_memory.md R37) -/

/-- The levels last driven on DQ at the rising edges of CLK, in order; `dq` is the level before the events. -/
def clockedBits (g : Handle) : Bit → List Event → List Bit
  | _, [] => []
  | dq, .drive l b :: es =>
    if l = g.dq then clockedBits g b es
    else if l = g.clk && b then dq :: clockedBits g dq es
    else clockedBits g dq es
  | dq, .setDir _ _ :: es => clockedBits g dq es
  | dq, .sample _ _ :: es => clockedBits g dq es
  | dq, .delayUs _ :: es => clockedBits g dq es
  | dq, .delayMs _ :: es => clockedBits g dq es
  | dq, .exclEnter :: es => clockedBits g dq es
  | dq, .exclExit :: es => clockedBits g dq es

/-- The sampled bits, in order. -/
def sampledBits : List Event → List Bit
  | [] => []
  | .sample _ b :: es => b :: sampledBits es
  | .drive _ _ :: es => sampledBits es
  | .setDir _ _ :: es => sampledBits es
  | .delayUs _ :: es => sampledBits es
  | .delayMs _ :: es => sampledBits es
  | .exclEnter :: es => sampledBits es
  | .exclExit :: es => sampledBits es

/-! ## Safe states -/

/-- The handles, lines and operations in progress are in canonical form. -/
def Canonical (s : State) : Prop :=
  Assoc.rising s.handles = true ∧ Assoc.rising s.lines = true ∧ Assoc.rising s.tasks = true

/-- The lines of every handle that holds its lines are distinct, and no two such handles share a line: exclusive ownership
(10_state.md R21 (a), (c), (d)). -/
def LinesApart (s : State) : Prop :=
  (∀ h, s.holds h = true → (s.handle h).distinct = true) ∧
  ∀ h g l, h ≠ g → s.holds h = true → s.holds g = true → (s.handle h).owns l = true → (s.handle g).owns l = false

/-- The event drives, turns or samples a line. -/
def reachesLine : Act → Bool
  | .drive _ _ => true
  | .setDir _ _ => true
  | .sample _ => true
  | .delayUnit => false
  | .delaySettle => false
  | .exclEnter => false
  | .exclExit => false

/-- An operation in progress on a handle that does not hold its lines is a primitive's guard path, and has no event left that
reaches a line (40_transaction_engine.md R62). -/
def HoldersReachLines (s : State) : Prop :=
  ∀ h t, s.task h = some t →
    s.holds h = true ∨ (∃ k, t.fin = .guarded k) ∧ t.acts.all (fun a => !reachesLine a) = true

/-- How many exclusion regions an operation in progress has open: the exits to come less the entries to come. -/
def openRegions (acts : List Act) : Nat :=
  acts.countP (fun a => decide (a = .exclExit)) - acts.countP (fun a => decide (a = .exclEnter))

/-- The save stack holds exactly the open regions of the operations in progress, and each of them closes exactly the
regions it has open (10_state.md R28, 40_transaction_engine.md R60). -/
def RegionsMatch (s : State) : Prop :=
  s.excl.length = Assoc.total (fun k => openRegions k.acts) s.tasks ∧
  ∀ h t, s.task h = some t → depthAfter (openRegions t.acts) t.acts = some 0

/-- While a region is open interrupts are off, and every saved value but the oldest is 0 (20_memory.md R41). -/
def MaskedInRegions (s : State) : Prop :=
  s.excl ≠ [] → s.ie = false ∧ ∀ b, b ∈ s.excl.dropLast → b = false

/-- A safe state: what every run from reset keeps, whoever moves. -/
structure Safe (s : State) : Prop where
  canonical : Canonical s
  params : s.params.wf = true
  apart : LinesApart s
  reach : HoldersReachLines s
  regions : RegionsMatch s

/-- The valid handle's lines are at rest: CLK high and all three lines outputs (10_state.md R25, R26, R33). -/
structure AtRest (h : HandleId) (s : State) : Prop where
  clk : s.outOf h .clk = true
  dirs : ∀ p, s.dirOf h p = .output

/-- The turn runs whole operations: no other handle's event comes in between. -/
def Turn.whole : Turn → Bool
  | .call => true
  | .issue => false
  | .event _ => false
  | .resume _ => true
  | .setIe _ => true

/-- A state between operations of a host that runs them whole: no region is open, every valid handle's lines are at
rest, and the only operations in progress are startConversion's polls (R33 "between operations on a valid handle"). -/
structure BetweenOperations (s : State) : Prop where
  apart : LinesApart s
  excl : s.excl = []
  rest : ∀ h, (s.handle h).bound = true → AtRest h s
  polls : ∀ h t, s.task h = some t → t = pollTask s ∧ (s.handle h).bound = true
  sched : ∀ t, t ∈ s.sched → Turn.whole t = true

/-- The handle an instruction is called on; none for the codec. -/
def handleOf : Instr → Option HandleId
  | .cmdStartConv h => some h
  | .cmdStopConv h => some h
  | .cmdReadTemp h => some h
  | .cmdReadHTemp h => some h
  | .cmdReadLTemp h => some h
  | .cmdWriteHTemp h _ => some h
  | .cmdWriteLTemp h _ => some h
  | .cmdReadCounter h => some h
  | .cmdReadSlope h => some h
  | .cmdReadConfig h => some h
  | .cmdWriteConfig h _ => some h
  | .init h _ _ _ _ _ _ => some h
  | .release h => some h
  | .writeTransaction h _ _ _ => some h
  | .readTransaction h _ _ => some h
  | .startConversion h => some h
  | .readTempC h => some h
  | .readTempF h => some h
  | .readTempRaw h => some h
  | .readHighC h => some h
  | .readLowC h => some h
  | .readCounter h => some h
  | .readSlope h => some h
  | .readConfig h => some h
  | .writeConfig h _ => some h
  | .writeHighC h _ => some h
  | .writeLowC h _ => some h
  | .decodeC _ => none
  | .toF _ => none
  | .encodeT _ => none

/-- The register-API operations, whose guard comes before everything else (41_register_api.md R71, 60_exceptions.md
R97). -/
def isApi : Instr → Bool
  | .cmdStartConv _ => false
  | .cmdStopConv _ => false
  | .cmdReadTemp _ => false
  | .cmdReadHTemp _ => false
  | .cmdReadLTemp _ => false
  | .cmdWriteHTemp _ _ => false
  | .cmdWriteLTemp _ _ => false
  | .cmdReadCounter _ => false
  | .cmdReadSlope _ => false
  | .cmdReadConfig _ => false
  | .cmdWriteConfig _ _ => false
  | .init _ _ _ _ _ _ _ => false
  | .release _ => false
  | .writeTransaction _ _ _ _ => false
  | .readTransaction _ _ _ => false
  | .startConversion _ => true
  | .readTempC _ => true
  | .readTempF _ => true
  | .readTempRaw _ => true
  | .readHighC _ => true
  | .readLowC _ => true
  | .readCounter _ => true
  | .readSlope _ => true
  | .readConfig _ => true
  | .writeConfig _ _ => true
  | .writeHighC _ _ => true
  | .writeLowC _ _ => true
  | .decodeC _ => false
  | .toF _ => false
  | .encodeT _ => false

/-- `n` event turns in a row of the operation on `h`, stopping at a fault or refusal. -/
def eventTurns (h : HandleId) : Nat → State → Answer
  | 0, s => .next s
  | n + 1, s =>
    match eventTurn h s with
    | .next t => eventTurns h n t
    | .fault e => .fault e
    | .refused r => .refused r

/-- `n` resume turns in a row of the operation on `h`. -/
def resumeTurns (h : HandleId) : Nat → State → Answer
  | 0, s => .next s
  | n + 1, s =>
    match resumeTurn h s with
    | .next t => resumeTurns h n t
    | .fault e => .fault e
    | .refused r => .refused r

/-- DQ is never driven while it is an input, and only DQ is ever made an input (10_state.md R23, 70_reset_and_hazards.md
R117); `d` is DQ's direction before the events. -/
def dqSafe : Dir → List Act → Bool
  | _, [] => true
  | d, .drive .dq _ :: as => decide (d = .output) && dqSafe d as
  | d, .drive .clk _ :: as => dqSafe d as
  | d, .drive .rst _ :: as => dqSafe d as
  | _, .setDir .dq e :: as => dqSafe e as
  | d, .setDir .clk e :: as => decide (e = .output) && dqSafe d as
  | d, .setDir .rst e :: as => decide (e = .output) && dqSafe d as
  | d, .sample _ :: as => decide (d = .input) && dqSafe d as
  | d, .delayUnit :: as => dqSafe d as
  | d, .delaySettle :: as => dqSafe d as
  | d, .exclEnter :: as => dqSafe d as
  | d, .exclExit :: as => dqSafe d as

end Sys2Proof.Safety
end

