-- ==== Sys2Proof/Certificates/Slice0/Obligations.lean ====
section
/-! DEFINITION. The statements about the block, for the provers. Where a docstring says "the spec's decision", the clause
follows a choice the spec marks as its own; the statement is then 'derived'. -/

open Sys2Proof Sys2Proof.Machine Sys2Proof.Safety

/-! ## Encoding -/

/-- Decoding the request of any instruction gives it back, every operand at every value. The request encoding is the
model's own where the opcode table gives no word (log entries 3, 4). -/
def Obligations.DecodeEncodeRoundTrip : Prop :=
  ∀ i : Instr, decode (encode i) = .ok i

/-- No opcode word is of two rows (30_encoding.md R51). The command bytes are the default table's, PRESUMED (log entry 9);
the other words and how a row's bits are read are the model's (log entries 3, 4). -/
def Obligations.OpcodeRowsNeverOverlap : Prop :=
  ∀ (w : OpWord) (r q : OpcodeRow), r ∈ opcodeRows → q ∈ opcodeRows → r.covers w = true → q.covers w = true → r = q

/-- The opcode table's words decode to their rows: START_CONV 0xEE, READ_SLOPE 0xA9, readCounter `00000101ssssssss`,
writeConfig `00110000cccccccc` with `c` in wire order. The bytes, here and in the wire words made of them, are the default
command table's, PRESUMED (log entry 9); reading a row's bits as a word is the model's (log entry 4). -/
def Obligations.TableWordsDecode : Prop :=
  decodeTableWord 8 0xEE = some (.cmdStartConv 0) ∧
  decodeTableWord 8 0xA9 = some (.cmdReadSlope 0) ∧
  decodeTableWord 16 0b0000010111111111 = some (.readCounter 0) ∧
  decodeTableWord 16 0b0011000011000000 = some (.writeConfig 0 0x03) ∧
  decodeTableWord 8 0x55 = none

/-! ## Steps -/

/-- A step on the host's turn runs exactly the decoded request on the state with the request and the turn taken off
(log entries 13, 22). -/
def Obligations.StepRunsDecodedInstruction : Prop :=
  ∀ (s : State) (r : Request) (rest : List Request) (i : Instr),
    s.script = r :: rest → decode r = .ok i →
    (s.turn = .call → step s = exec i { s with script := rest, sched := s.sched.tail }) ∧
    (s.turn = .issue → step s = (callOf i { s with script := rest, sched := s.sched.tail }).issue)

/-- A step on the host's turn with a request that is no request is refused by name, and with no request left changes
nothing but the turn taken off: the block is idle (log entries 18, 22). -/
def Obligations.StepWithoutOperation : Prop :=
  ∀ s : State, s.turn = .call →
    (s.script = [] → step s = .next { s with sched := s.sched.tail }) ∧
    ∀ r rest e, s.script = r :: rest → decode r = .error e → step s = .refused (.undecodable e)

/-- What a step runs on each turn that is no host call: one event of the handle's operation, or the rest of it, on the state
with the turn taken off. The head of the schedule is the turn; with an empty schedule an operation in progress, the first
listed, runs on, and with none the host calls (10_state.md R18, 20_memory.md R44; the model's turns, log entries 12, 13). -/
def Obligations.StepTakesItsTurn : Prop :=
  ∀ (s : State) (h : HandleId),
    (s.turn = .event h → step s = eventTurn h { s with sched := s.sched.tail }) ∧
    (s.turn = .resume h → step s = resumeTurn h { s with sched := s.sched.tail }) ∧
    (∀ t rest, s.sched = t :: rest → s.turn = t) ∧
    (∀ k rest, s.sched = [] → s.tasks = (h, k) :: rest → s.turn = .resume h ∧ step s = resumeTurn h s) ∧
    (s.sched = [] → s.tasks = [] → s.turn = .call)

/-- On its turn the host writes `host.ie`, which it owns, when no region is open; inside a region the turn passes
(10_state.md R16 (b); the model's turn, log entry 21). -/
def Obligations.HostWritesInterruptState : Prop :=
  ∀ (s : State) (b : Bit), s.turn = .setIe b →
    (s.excl = [] → step s = .next { s with ie := b, sched := s.sched.tail }) ∧
    (s.excl ≠ [] → step s = .next { s with sched := s.sched.tail })

/-- With the opcode table's word placed, the very next step runs its instruction on the state as it was. -/
def Obligations.PlacedWordRunsNext : Prop :=
  ∀ (s : State) (nbits w : Nat) (i : Instr),
    decodeTableWord nbits w = some i → step (s.withFetchWord nbits w) = exec i s

/-! ## The machine -/

/-- Reset is a safe state between operations: every handle invalid, nothing in progress, the save stack and the trace
empty (10_state.md R33). -/
def Obligations.ResetIsSafe : Prop :=
  Safe State.reset ∧ BetweenOperations State.reset ∧
  (∀ h, (State.reset.handle h).bound = false ∧ State.reset.task h = none) ∧
  State.reset.excl = [] ∧ State.reset.trace = [] ∧ State.reset.returns = []

/-- Every step keeps a safe state safe, whoever moves: the tables stay canonical, the parameters legal, the lines of
handles that hold them apart (10_state.md R21; an init in progress holds its lines, log entry 15), only holders reach a line,
and the one save stack of all handles matches their open regions (log entry 23). -/
def Obligations.StepKeepsSafe : Prop :=
  ∀ s t : State, Safe s → step s = .next t → Safe t

/-- From a safe state no step faults; and a step of any state is refused only for one of the spec's four reasons or for a
request that is no request (log entries 3, 16). -/
def Obligations.SafeStateNeverFaults : Prop :=
  ∀ s : State, (Safe s → ∀ e, step s ≠ .fault e) ∧
    ∀ r, step s = .refused r →
      r = .widthTooLarge ∨ r = .fahrenheitOverflow ∨ r = .sharedHandle ∨ r = .aliasedLines ∨ ∃ e, r = .undecodable e

/-- A host that runs its operations whole stays between operations: after every step each valid handle has CLK high and
its three lines outputs, no region is open, and only polls are in progress (10_state.md R25, R26, R33; the spec's
decisions D15, D16, D29). -/
def Obligations.WholeOperationsEndAtRest : Prop :=
  ∀ s t : State, BetweenOperations s → step s = .next t → BetweenOperations t

/-- No step changes the parameters (00_scope.md R8), and every step only appends to the trace and to the returns
(R13, 20_memory.md R44). -/
def Obligations.StepOnlyAppends : Prop :=
  ∀ s t : State, step s = .next t →
    t.params = s.params ∧ (∃ es, t.trace = s.trace ++ es) ∧ ∃ rs, t.returns = s.returns ++ rs

/-- No instruction faults, and every refusal is one of the spec's four. -/
def Obligations.RefusalsAreTheSpecs : Prop :=
  ∀ (i : Instr) (s : State), (∀ e, exec i s ≠ .fault e) ∧
    ∀ r, exec i s = .refused r →
      r = .widthTooLarge ∨ r = .fahrenheitOverflow ∨ r = .sharedHandle ∨ r = .aliasedLines

/-- Every instruction with admitted operands, on a handle with no operation in progress, completes; init also needs
that no other handle, valid or with its init in progress (log entry 15), holds one of the lines. -/
def Obligations.AdmittedCallsComplete : Prop :=
  ∀ (i : Instr) (s : State), i.wellFormed = true → (∀ h, handleOf i = some h → s.busy h = false) →
    (∀ h clk dq rst a b c, i = .init h clk dq rst a b c → ∀ g, g ≠ h → s.holds g = true →
      (s.handle g).owns clk = false ∧ (s.handle g).owns dq = false ∧ (s.handle g).owns rst = false) →
    ∃ t, exec i s = .next t

/-- Every operation leaves `host.ie` and the save stack as it found them, whatever they were, on every path
(40_transaction_engine.md R60, R62; the spec's decision D16). -/
def Obligations.InterruptStateRestored : Prop :=
  ∀ (i : Instr) (s t : State), exec i s = .next t → t.ie = s.ie ∧ t.excl = s.excl

/-- Inside a primitive interrupts are off: after its first event and before its last `host.ie` is 0. The save stack is one
deep all along a write and on the guard path, and in a read it is two deep inside the write that the read calls, that is
after its 3rd to its 44th event, and one deep everywhere else (20_memory.md R41, 60_exceptions.md R98; the save stack is
the spec's decision D16, the nesting its decision D31). -/
def Obligations.RegionKeepsInterruptsOff : Prop :=
  ∀ (h : HandleId) (cmd : Byte) (pay : Word) (w k : Nat) (r : Run), 0 < k →
    (k < (writeActs cmd pay w).length →
      (runActs h ((writeActs cmd pay w).take k) r).st.ie = false ∧
      (runActs h ((writeActs cmd pay w).take k) r).st.excl = r.st.ie :: r.st.excl) ∧
    (k < guardActs.length →
      (runActs h (guardActs.take k) r).st.ie = false ∧
      (runActs h (guardActs.take k) r).st.excl = r.st.ie :: r.st.excl) ∧
    (k < (readActs cmd w).length →
      (runActs h ((readActs cmd w).take k) r).st.ie = false ∧
      (runActs h ((readActs cmd w).take k) r).st.excl =
        if 3 ≤ k ∧ k ≤ 44 then false :: r.st.ie :: r.st.excl else r.st.ie :: r.st.excl)

/-- Every step keeps interrupts off while a region is open, whoever moves and however operations interleave (20_memory.md
R41, R44; the save stack is the spec's decision D16, that all handles share it however deep it gets is log entry 23). -/
def Obligations.StepKeepsInterruptsMasked : Prop :=
  ∀ s t : State, MaskedInRegions s → step s = .next t → MaskedInRegions t

/-- An operation on one handle changes no other handle's record or operation in progress, and no line but its own
(60_exceptions.md R103 (a), 10_state.md R23). -/
def Obligations.OtherHandlesUntouched : Prop :=
  ∀ (i : Instr) (s t : State) (h : HandleId), handleOf i = some h → exec i s = .next t →
    (∀ g, g ≠ h → t.handle g = s.handle g ∧ t.task g = s.task g) ∧ OtherLinesKept (t.handle h) s t

/-- A turn of one handle's operation in progress changes no other handle's record or operation, and no line but its own:
interleaved operations on handles with disjoint lines do not disturb each other (20_memory.md R44). -/
def Obligations.TurnsOfOtherHandlesUntouched : Prop :=
  ∀ (s t : State) (h : HandleId), (eventTurn h s = .next t ∨ resumeTurn h s = .next t) →
    (∀ g, g ≠ h → t.handle g = s.handle g ∧ t.task g = s.task g) ∧ OtherLinesKept (s.handle h) s t

/-- Ownership of lines is exclusive: in a safe state no turn and no operation of one handle changes the level or the direction
of a line that another handle holds, whoever is in the middle of a transaction; a handle holds its lines while it is valid
or its init is in progress (10_state.md R21 (c), (d), 70_reset_and_hazards.md R111; the spec's decision D13; log entry 15). -/
def Obligations.HeldLinesAreExclusive : Prop :=
  ∀ (s t : State) (h g : HandleId) (p : Pin), Safe s → g ≠ h → s.holds g = true →
    (eventTurn h s = .next t ∨ resumeTurn h s = .next t ∨
      ∃ i, handleOf i = some h ∧ (exec i s = .next t ∨ issueInstr i s = .next t)) →
    t.latch ((s.handle g).line p) = s.latch ((s.handle g).line p)

/-- Issuing an operation and giving it one event turn per event does exactly what running it whole does: the event by
event machine refines the operation by operation one (10_state.md R18, the spec's decisions D1, D11). -/
def Obligations.EventTurnsRunTheOperation : Prop :=
  ∀ (i : Instr) (s u : State) (h : HandleId) (k : Task), callOf i s = .started h k u →
    issueInstr i s = .next (u.setTask h k) ∧ eventTurns h k.acts.length (u.setTask h k) = exec i s

/-- No operation but init drives DQ while it is an input, samples DQ while it is an output, or makes CLK or RST an
input; startConversion's poll neither (70_reset_and_hazards.md R117, 10_state.md R23; the spec's decision D29). -/
def Obligations.DqIsNeverDrivenAsInput : Prop :=
  (∀ (i : Instr) (s u : State) (h : HandleId) (k : Task), callOf i s = .started h k u → k.fin ≠ .bind →
    dqSafe .output k.acts = true) ∧
  ∀ s : State, dqSafe .output (pollTask s).acts = true

/-- What one event does to the lines: Drive sets `out` and SetDir sets `dir` of the pin's line and of no other, and no
other event changes a line (10_state.md R23, 00_scope.md R14). -/
def Obligations.EventsSetTheirLineOnly : Prop :=
  ∀ (h : HandleId) (p : Pin) (b : Bit) (d : Dir) (i : Nat) (r : Run),
    ((performAct h (.drive p b) r).st.latch ((r.st.handle h).line p) = ⟨b, (r.st.latch ((r.st.handle h).line p)).dir⟩) ∧
    ((performAct h (.setDir p d) r).st.latch ((r.st.handle h).line p) = ⟨(r.st.latch ((r.st.handle h).line p)).out, d⟩) ∧
    (∀ l, l ≠ (r.st.handle h).line p → (performAct h (.drive p b) r).st.latch l = r.st.latch l ∧
      (performAct h (.setDir p d) r).st.latch l = r.st.latch l) ∧
    ∀ l, (performAct h (.sample i) r).st.latch l = r.st.latch l ∧
      (performAct h .delayUnit r).st.latch l = r.st.latch l ∧
      (performAct h .delaySettle r).st.latch l = r.st.latch l ∧
      (performAct h .exclEnter r).st.latch l = r.st.latch l ∧
      (performAct h .exclExit r).st.latch l = r.st.latch l

/-! ## The primitives -/

/-- writeTransaction on a valid handle runs its frame, for every command, payload and width up to 16
(40_transaction_engine.md R66; the cells are the spec's decision D27). -/
def Obligations.WriteTransactionRunsFrame : Prop :=
  ∀ (h : HandleId) (cmd : Byte) (pay : Word) (w : Nat) (s : State), Ready h s → w ≤ 16 →
    RunsWrite h cmd pay w [] s (exec (.writeTransaction h cmd pay w) s)

/-- readTransaction on a valid handle runs its frame and returns the draws, upper bits zero (R67, 30_encoding.md R55;
the spec's decisions D28, D29). -/
def Obligations.ReadTransactionRunsFrame : Prop :=
  ∀ (h : HandleId) (cmd : Byte) (w : Nat) (s : State), Ready h s → w ≤ 16 →
    RunsRead h cmd w (fun r v => v = r) s (exec (.readTransaction h cmd w) s)

/-- What the primitives leave unchanged when they complete, valid handle or not: every handle record, every operation in
progress, the interrupt state, every line that is not the handle's, and every direction but DQ's (R70). -/
def Obligations.PrimitivesKeepTheRest : Prop :=
  ∀ (h : HandleId) (cmd : Byte) (pay : Word) (w : Nat) (s t : State),
    (exec (.writeTransaction h cmd pay w) s = .next t ∨ exec (.readTransaction h cmd w) s = .next t) →
    Keeps s t ∧ OtherLinesKept (s.handle h) s t ∧ ∀ l, l ≠ (s.handle h).dq → (t.latch l).dir = (s.latch l).dir

/-- A frame has exactly 8 + w clock pulses (R69). -/
def Obligations.ClockPulsesCountTheBits : Prop :=
  ∀ (h : HandleId) (cmd : Byte) (pay : Word) (w : Nat) (s : State), Ready h s → w ≤ 16 →
    ∃ t u es fs, exec (.writeTransaction h cmd pay w) s = .next t ∧ exec (.readTransaction h cmd w) s = .next u ∧
      Traced h es s t ∧ Traced h fs s u ∧
      countEvents (.drive (s.handle h).clk false) es = 8 + w ∧ countEvents (.drive (s.handle h).clk true) es = 8 + w ∧
      countEvents (.drive (s.handle h).clk false) fs = 8 + w ∧ countEvents (.drive (s.handle h).clk true) fs = 8 + w

/-- Every value crosses the wire least significant bit first: at the rising edges of CLK a write shows the command's bits
0 to 7 and then the payload's bits 0 to w - 1 on DQ; a read shows the command's, and the bit it samples in data cell i is
bit i of what it returns (20_memory.md R37). -/
def Obligations.LeastSignificantBitFirst : Prop :=
  ∀ (h : HandleId) (cmd : Byte) (pay : Word) (w : Nat) (s : State), Ready h s → w ≤ 16 →
    (∃ t es, exec (.writeTransaction h cmd pay w) s = .next t ∧ Traced h es s t ∧
      clockedBits (s.handle h) (s.outOf h .dq) es = lowBits cmd 8 ++ lowBits pay w) ∧
    ∃ t es v, exec (.readTransaction h cmd w) s = .next t ∧ Traced h es s t ∧
      Returned (some h) (.done (some v)) s t ∧
      (clockedBits (s.handle h) (s.outOf h .dq) es).take 8 = lowBits cmd 8 ∧ lowBits v w = sampledBits es

/-- The lengths of the traces: 43 + 5w, and one more when w is not 0, for a write; 49 + 5w for a read (R66, R67). -/
def Obligations.TraceLengthsOfFrames : Prop :=
  ∀ (h : HandleId) (cmd : Byte) (pay : Word) (w : Nat) (s : State), Ready h s → w ≤ 16 →
    ∃ t u, exec (.writeTransaction h cmd pay w) s = .next t ∧ exec (.readTransaction h cmd w) s = .next u ∧
      t.trace.length = s.trace.length + (43 + 5 * w + if w = 0 then 0 else 1) ∧
      u.trace.length = s.trace.length + (49 + 5 * w)

/-- On an invalid handle a primitive enters and leaves its region and returns the zero-equivalent; so do the command
frames (R62; the spec's decision D25; the command rows by log entry 2). -/
def Obligations.InvalidHandleGuardsPrimitives : Prop :=
  ∀ (h : HandleId) (cmd : Byte) (pay : Word) (w : Nat) (s : State), (s.handle h).bound = false → s.busy h = false →
    (w ≤ 16 → IsGuarded h none s (exec (.writeTransaction h cmd pay w) s) ∧
      IsGuarded h (some 0) s (exec (.readTransaction h cmd w) s)) ∧
    IsGuarded h none s (exec (.cmdStartConv h) s) ∧ IsGuarded h none s (exec (.cmdStopConv h) s) ∧
    IsGuarded h none s (exec (.cmdWriteHTemp h pay) s) ∧ IsGuarded h none s (exec (.cmdWriteLTemp h pay) s) ∧
    IsGuarded h none s (exec (.cmdWriteConfig h pay) s) ∧ IsGuarded h (some 0) s (exec (.cmdReadTemp h) s) ∧
    IsGuarded h (some 0) s (exec (.cmdReadHTemp h) s) ∧ IsGuarded h (some 0) s (exec (.cmdReadLTemp h) s) ∧
    IsGuarded h (some 0) s (exec (.cmdReadCounter h) s) ∧ IsGuarded h (some 0) s (exec (.cmdReadSlope h) s) ∧
    IsGuarded h (some 0) s (exec (.cmdReadConfig h) s)

/-- A width above 16 is refused before anything else, on a valid and on an invalid handle (R63, 60_exceptions.md R97; the
spec's decisions D5, D25), and on a busy one, where the order is the model's choice (log entry 14). -/
def Obligations.WidthAbove16Refused : Prop :=
  ∀ (h : HandleId) (cmd : Byte) (pay : Word) (w : Nat) (s : State), 16 < w →
    exec (.writeTransaction h cmd pay w) s = .refused .widthTooLarge ∧
    exec (.readTransaction h cmd w) s = .refused .widthTooLarge

/-- An operation on a handle whose operation has not returned is refused: primitives of an admitted width, command frames,
release, register-API operations on a valid handle, and an init that would not be refused for its lines (R103 (b); the
spec's decision D13; the order by log entry 14). -/
def Obligations.SharedHandleRefused : Prop :=
  ∀ (i : Instr) (h : HandleId) (s : State), handleOf i = some h → s.busy h = true → i.wellFormed = true →
    (isApi i = true → (s.handle h).bound = true) →
    (∀ clk dq rst a b c, i = .init h clk dq rst a b c → s.lineTaken h clk dq rst = false) →
    exec i s = .refused .sharedHandle

/-! ## The commands -/

/-- The payload-less and write command rows run their command's frame at its table width: START_CONV and STOP_CONV leave
RST asserted, the others deassert it (30_encoding.md R50, 41_register_api.md R86, 10_state.md R27; log entry 2). -/
def Obligations.WriteCommandsRunFrames : Prop :=
  ∀ (h : HandleId) (pay : Word) (s : State), Ready h s →
    RunsWrite h (s.code .startConv) 0 0 [] s (exec (.cmdStartConv h) s) ∧
    RunsWrite h (s.code .stopConv) 0 0 [] s (exec (.cmdStopConv h) s) ∧
    RunsWrite h (s.code .writeHTemp) pay 9 [] s (exec (.cmdWriteHTemp h pay) s) ∧
    RunsWrite h (s.code .writeLTemp) pay 9 [] s (exec (.cmdWriteLTemp h pay) s) ∧
    RunsWrite h (s.code .writeConfig) pay 8 [] s (exec (.cmdWriteConfig h pay) s)

/-- The read command rows run their command's frame at its table width and return the raw bits (R50; log entry 2). -/
def Obligations.ReadCommandsRunFrames : Prop :=
  ∀ (h : HandleId) (s : State), Ready h s →
    RunsRead h (s.code .readTemp) 9 (IsRaw 9) s (exec (.cmdReadTemp h) s) ∧
    RunsRead h (s.code .readHTemp) 9 (IsRaw 9) s (exec (.cmdReadHTemp h) s) ∧
    RunsRead h (s.code .readLTemp) 9 (IsRaw 9) s (exec (.cmdReadLTemp h) s) ∧
    RunsRead h (s.code .readCounter) 8 (IsRaw 8) s (exec (.cmdReadCounter h) s) ∧
    RunsRead h (s.code .readSlope) 8 (IsRaw 8) s (exec (.cmdReadSlope h) s) ∧
    RunsRead h (s.code .readConfig) 8 (IsRaw 8) s (exec (.cmdReadConfig h) s)

/-! ## The register API -/

/-- readTempC: one READ_TEMP read of width 9, 94 events, and the Celsius value of what it returned; on an invalid handle 0
and nothing else (41_register_api.md R75; the invalid handle is the spec's decision D26, the frame's events its decisions
D27 to D29). -/
def Obligations.ReadTempCReturnsCelsius : Prop :=
  ∀ (h : HandleId) (s : State),
    (Ready h s → ReadsOnce h (s.code .readTemp) 9 94 IsCelsius s (exec (.readTempC h) s)) ∧
    ((s.handle h).bound = false → IsNoOp h (some 0) s (exec (.readTempC h) s))

/-- readHighC and readLowC: as readTempC, with their own commands (R78, R79; the invalid handle is the spec's decision D26,
the frame's events its decisions D27 to D29). -/
def Obligations.ThresholdReadsReturnCelsius : Prop :=
  ∀ (h : HandleId) (s : State),
    (Ready h s → ReadsOnce h (s.code .readHTemp) 9 94 IsCelsius s (exec (.readHighC h) s) ∧
      ReadsOnce h (s.code .readLTemp) 9 94 IsCelsius s (exec (.readLowC h) s)) ∧
    ((s.handle h).bound = false → IsNoOp h (some 0) s (exec (.readHighC h) s) ∧
      IsNoOp h (some 0) s (exec (.readLowC h) s))

/-- readTempF: one READ_TEMP read of width 9, 94 events, and the Fahrenheit value of its Celsius value, in -198..260; on
an invalid handle 0, not 32, and nothing else (R76; the invalid handle, with its 0, is the spec's decision D26, the frame's
events its decisions D27 to D29). -/
def Obligations.ReadTempFReturnsFahrenheit : Prop :=
  ∀ (h : HandleId) (s : State),
    (Ready h s → ReadsOnce h (s.code .readTemp) 9 94 IsFahrenheit s (exec (.readTempF h) s)) ∧
    ((s.handle h).bound = false → IsNoOp h (some 0) s (exec (.readTempF h) s))

/-- readTempRaw, readCounter, readSlope, readConfig: one read, 94 or 89 events, and the word it returned as it is, in
0..511 or 0..255; on an invalid handle 0, for which every flag test is false, and nothing else (R77, R80, R81, R82,
42_temperature_codec.md R90; the invalid handle is the spec's decision D26, the frame's events its decisions D27 to D29). -/
def Obligations.RawReadsReturnBits : Prop :=
  ∀ (h : HandleId) (s : State),
    (Ready h s → ReadsOnce h (s.code .readTemp) 9 94 (IsRaw 9) s (exec (.readTempRaw h) s) ∧
      ReadsOnce h (s.code .readCounter) 8 89 (IsRaw 8) s (exec (.readCounter h) s) ∧
      ReadsOnce h (s.code .readSlope) 8 89 (IsRaw 8) s (exec (.readSlope h) s) ∧
      ReadsOnce h (s.code .readConfig) 8 89 (IsRaw 8) s (exec (.readConfig h) s)) ∧
    ((s.handle h).bound = false → IsNoOp h (some 0) s (exec (.readTempRaw h) s) ∧
      IsNoOp h (some 0) s (exec (.readCounter h) s) ∧ IsNoOp h (some 0) s (exec (.readSlope h) s) ∧
      IsNoOp h (some 0) s (exec (.readConfig h) s)) ∧
    ∀ k : Flag, Flag.test 0 k = false

/-- writeConfig: one WRITE_CONFIG write of width 8 that sends the byte as given, then the settle delay, 85 events; on an
invalid handle nothing, and no delay (R83; the invalid handle, with no delay, is the spec's decision D26, the frame's
events its decision D27). -/
def Obligations.WriteConfigSendsAndSettles : Prop :=
  ∀ (h : HandleId) (c : Byte) (s : State),
    (Ready h s → WritesOnce h (s.code .writeConfig) (c.setWidth 16) 8 [.delayMs s.params.tNvMs] 85 s
      (exec (.writeConfig h c) s)) ∧
    ((s.handle h).bound = false → IsNoOp h none s (exec (.writeConfig h c) s))

/-- writeHighC and writeLowC: one write of width 9 that sends the low nine bits of twice the threshold, 89 events, with
no settle delay; on an invalid handle nothing; the first payload bit is 0, and a threshold outside -128..127 is not what
its bits read back as (R84, R85; the shift modulo 2^16 is the spec's decision D34, the invalid handle its decision D26, the
frame's events its decision D27). -/
def Obligations.ThresholdWritesSendTwice : Prop :=
  ∀ (h : HandleId) (t : Word) (s : State),
    (Ready h s → WritesOnce h (s.code .writeHTemp) (BitVec.ofNat 16 (2 * t.toNat)) 9 [] 89 s (exec (.writeHighC h t) s) ∧
      WritesOnce h (s.code .writeLTemp) (BitVec.ofNat 16 (2 * t.toNat)) 9 [] 89 s (exec (.writeLowC h t) s)) ∧
    ((s.handle h).bound = false → IsNoOp h none s (exec (.writeHighC h t) s) ∧
      IsNoOp h none s (exec (.writeLowC h t) s)) ∧
    (BitVec.ofNat 16 (2 * t.toNat)).getLsbD 0 = false ∧
    (t.toInt < -128 ∨ 127 < t.toInt → ∀ v, IsCelsius (BitVec.ofNat 16 (2 * t.toNat)) v → v ≠ t)

/-- The raw reads apply the identity: readTempRaw, readCounter, readSlope and readConfig each answer exactly the state in
which the read of their register returned, so the result is that read's accumulator, 0..511 or 0..255
(42_temperature_codec.md R90). -/
def Obligations.RawReadsApplyIdentity : Prop :=
  ∀ (h : HandleId) (s : State), Ready h s →
    AnswersTheRead h (s.code .readTemp) 9 511 s (exec (.readTempRaw h) s) ∧
    AnswersTheRead h (s.code .readCounter) 8 255 s (exec (.readCounter h) s) ∧
    AnswersTheRead h (s.code .readSlope) 8 255 s (exec (.readSlope h) s) ∧
    AnswersTheRead h (s.code .readConfig) 8 255 s (exec (.readConfig h) s)

/-- Threshold writes have no settle delay: writeHighC and writeLowC answer the very state in which a frame of theirs ended
(70_reset_and_hazards.md R115). And of the operations run whole only writeConfig puts a DelayMs into the trace (R114,
41_register_api.md R83); that the row WRITE_CONFIG is its frame alone, with no settle, is the model's reading (log entry 2). -/
def Obligations.ThresholdWritesDoNotSettle : Prop :=
  (∀ (h : HandleId) (t : Word) (s : State), Ready h s →
    AnswersAWrite h (s.code .writeHTemp) 9 s (exec (.writeHighC h t) s) ∧
    AnswersAWrite h (s.code .writeLTemp) 9 s (exec (.writeLowC h t) s)) ∧
  ∀ (i : Instr) (s t : State), (∀ g c, i ≠ .writeConfig g c) → exec i s = .next t →
    ∃ es, t.trace = s.trace ++ es ∧ ∀ (g : HandleId) (n : Nat), ⟨g, .delayMs n⟩ ∉ es

/-- What the frames of the register API's one-frame operations do and leave alone: every line but the handle's, every
record, the interrupt state (41_register_api.md, 40_transaction_engine.md; the cells are the spec's decisions D27 to
D29). -/
def Obligations.ApiOperationsRunFrames : Prop :=
  ∀ (h : HandleId) (c : Byte) (t : Word) (s : State), Ready h s →
    RunsRead h (s.code .readTemp) 9 IsCelsius s (exec (.readTempC h) s) ∧
    RunsRead h (s.code .readTemp) 9 IsFahrenheit s (exec (.readTempF h) s) ∧
    RunsRead h (s.code .readTemp) 9 (IsRaw 9) s (exec (.readTempRaw h) s) ∧
    RunsRead h (s.code .readHTemp) 9 IsCelsius s (exec (.readHighC h) s) ∧
    RunsRead h (s.code .readLTemp) 9 IsCelsius s (exec (.readLowC h) s) ∧
    RunsRead h (s.code .readCounter) 8 (IsRaw 8) s (exec (.readCounter h) s) ∧
    RunsRead h (s.code .readSlope) 8 (IsRaw 8) s (exec (.readSlope h) s) ∧
    RunsRead h (s.code .readConfig) 8 (IsRaw 8) s (exec (.readConfig h) s) ∧
    RunsWrite h (s.code .writeConfig) (c.setWidth 16) 8 [.delayMs s.params.tNvMs] s (exec (.writeConfig h c) s) ∧
    RunsWrite h (s.code .writeHTemp) (BitVec.ofNat 16 (2 * t.toNat)) 9 [] s (exec (.writeHighC h t) s) ∧
    RunsWrite h (s.code .writeLTemp) (BitVec.ofNat 16 (2 * t.toNat)) 9 [] s (exec (.writeLowC h t) s)

/-- startConversion on a valid handle: the START_CONV frame of width 0, then one READ_CONFIG read, RST high from the one
into the other; with 1SHOT clear it returns after these 132 events; with 1SHOT set it returns nothing yet and goes on to
poll; on an invalid handle it is a no-op (41_register_api.md R74, R71; the spec's decisions D24 and D26, the frames' events
its decisions D27 to D29; log entry 12). -/
def Obligations.StartConversionStarts : Prop :=
  ∀ (h : HandleId) (s : State),
    (Ready h s → ∃ t, exec (.startConversion h) s = .next t ∧ ReadLevels h (s.code .readConfig) s t ∧
      t.trace.length = s.trace.length + 132 ∧
      (s.drawAt 0 = false → Ran h (writeEvents (s.handle h) s.params.tUnitUs (s.code .startConv) 0 0 ++
        readEvents (s.handle h) s.params.tUnitUs (s.code .readConfig) (drawnBits s 8)) 8 (.done none) s t) ∧
      (s.drawAt 0 = true → Polling h (writeEvents (s.handle h) s.params.tUnitUs (s.code .startConv) 0 0 ++
        readEvents (s.handle h) s.params.tUnitUs (s.code .readConfig) (drawnBits s 8)) 8 s t)) ∧
    ((s.handle h).bound = false → IsNoOp h none s (exec (.startConversion h) s))

/-- One poll read: a READ_CONFIG frame of width 8, after which startConversion returns if DONE is set and otherwise goes
on polling (R74; the spec's decision D24; log entry 12). -/
def Obligations.PollReadDecides : Prop :=
  ∀ (h : HandleId) (s : State), PollReady h s →
    ∃ t, resumeTurn h s = .next t ∧ ReadLevels h (s.code .readConfig) s t ∧
      (s.drawAt 7 = true → PollEnded h
        (readEvents (s.handle h) s.params.tUnitUs (s.code .readConfig) (drawnBits s 8)) 8 s t) ∧
      (s.drawAt 7 = false → Polling h
        (readEvents (s.handle h) s.params.tUnitUs (s.code .readConfig) (drawnBits s 8)) 8 s t)

/-- With 1SHOT set, startConversion returns after the first poll read that shows DONE, the `k`th, with 132 + 89k events
in all (R74; log entry 12). -/
def Obligations.PollReturnsAtFirstDone : Prop :=
  ∀ (h : HandleId) (k : Nat) (s : State), Ready h s → s.drawAt 0 = true →
    (∀ j, j < k → s.drawAt (8 + 8 * j + 7) = false) → s.drawAt (8 + 8 * k + 7) = true →
    ∃ t u, exec (.startConversion h) s = .next t ∧ resumeTurns h (k + 1) t = .next u ∧
      u.busy h = false ∧ Returned (some h) (.done none) s u ∧ u.trace.length = s.trace.length + (132 + 89 * (k + 1)) ∧
      u.ie = s.ie ∧ u.excl = s.excl

/-- With 1SHOT set and DONE in none of the first `k` poll reads, startConversion has not returned after them, for every
`k`: nothing bounds the poll (60_exceptions.md R96; the spec's decision D10). -/
def Obligations.PollIsUnbounded : Prop :=
  ∀ (h : HandleId) (k : Nat) (s : State), Ready h s → s.drawAt 0 = true →
    (∀ j, j < k → s.drawAt (8 + 8 * j + 7) = false) →
    ∃ t u, exec (.startConversion h) s = .next t ∧ resumeTurns h k t = .next u ∧ u.busy h = true ∧
      u.returns = s.returns

/-- A threshold written and then read back from a chip that returns the same nine bits comes back wrapped into -128..127,
for every 16-bit threshold. The bits the chip returns are those the write itself put on the wire after its command: the
levels on DQ at the rising edges of CLK in the write's own trace (42_temperature_codec.md R91; the shift modulo 2^16 is the
spec's decision D34). -/
def Obligations.ThresholdRoundTrip : Prop :=
  ∀ (h : HandleId) (t : Word) (s : State) (more : List Bit), Ready h s →
    (∃ u es x v, exec (.writeHighC h t) s = .next u ∧ Traced h es s u ∧
      ((clockedBits (s.handle h) (s.outOf h .dq) es).drop 8).length = 9 ∧
      exec (.readHighC h) { u with draws := (clockedBits (s.handle h) (s.outOf h .dq) es).drop 8 ++ more } = .next x ∧
      Returned (some h) (.done (some v)) u x ∧ v.toInt = (t.toInt + 128) % 256 - 128) ∧
    ∃ u es x v, exec (.writeLowC h t) s = .next u ∧ Traced h es s u ∧
      ((clockedBits (s.handle h) (s.outOf h .dq) es).drop 8).length = 9 ∧
      exec (.readLowC h) { u with draws := (clockedBits (s.handle h) (s.outOf h .dq) es).drop 8 ++ more } = .next x ∧
      Returned (some h) (.done (some v)) u x ∧ v.toInt = (t.toInt + 128) % 256 - 128

/-! ## Lifecycle -/

/-- init: the six events in order, the record bound to its lines and port references, the lines at their idle levels and
all outputs, every other handle, line and field as it was (70_reset_and_hazards.md R106; the spec's decision D38). -/
def Obligations.InitBindsAndIdles : Prop :=
  ∀ (h : HandleId) (clk dq rst : LineId) (pOut pDir pIn : PortRef) (s : State),
    s.busy h = false → clk ≠ dq → clk ≠ rst → dq ≠ rst →
    (∀ g, g ≠ h → s.holds g = true →
      (s.handle g).owns clk = false ∧ (s.handle g).owns dq = false ∧ (s.handle g).owns rst = false) →
    ∃ t, exec (.init h clk dq rst pOut pDir pIn) s = .next t ∧
      t.handle h = ⟨true, clk, dq, rst, pOut, pDir, pIn⟩ ∧ (∀ g, g ≠ h → t.handle g = s.handle g) ∧
      t.latch clk = ⟨true, .output⟩ ∧ t.latch dq = ⟨true, .output⟩ ∧ t.latch rst = ⟨false, .output⟩ ∧
      OtherLinesKept (t.handle h) s t ∧ Traced h (initEvents clk dq rst) s t ∧ Returned (some h) (.done none) s t ∧
      Drew 0 s t ∧ t.params = s.params ∧ t.tasks = s.tasks ∧ t.ie = s.ie ∧ t.excl = s.excl ∧ t.script = s.script ∧
      t.sched = s.sched

/-- init with two equal lines, or with a line that another handle holds, is refused (R106, 10_state.md R21, 60_exceptions.md
R103 (c); the spec's decision D13). Another handle holds its lines while it is valid and, by the model's choice (log entry
15), while its init is in progress. On a busy handle too: that this refusal comes before the shared handle's is the model's
choice (log entry 14). -/
def Obligations.AliasedInitRefused : Prop :=
  ∀ (h : HandleId) (clk dq rst : LineId) (pOut pDir pIn : PortRef) (s : State),
    (clk = dq ∨ clk = rst ∨ dq = rst ∨ ∃ g, g ≠ h ∧ s.holds g = true ∧
      ((s.handle g).owns clk = true ∨ (s.handle g).owns dq = true ∨ (s.handle g).owns rst = true)) →
    exec (.init h clk dq rst pOut pDir pIn) s = .refused .aliasedLines

/-- release: only `h.bound`, no event, every line as it was; on an invalid handle a no-op; and afterwards the handle is
invalid either way (R107; the spec's decision D39; the no-op's ending by log entry 19). -/
def Obligations.ReleaseUnbindsOnly : Prop :=
  ∀ (h : HandleId) (s : State), s.busy h = false →
    ((s.handle h).bound = false → IsNoOp h none s (exec (.release h) s)) ∧
    ((s.handle h).bound = true → ∃ hs, exec (.release h) s =
        .next { s with handles := hs, returns := s.returns ++ [⟨some h, .done none⟩] } ∧
      ({ s with handles := hs }).handle h = { s.handle h with bound := false } ∧
      ∀ g, g ≠ h → ({ s with handles := hs }).handle g = s.handle g)

/-! ## The codec -/

/-- decodeC called on its own returns the Celsius value, bits 15..9 of the operand ignored (42_temperature_codec.md R87;
the spec's decision D32). -/
def Obligations.DecodeCReturnsCelsius : Prop :=
  ∀ (r : Word) (s : State), ∃ v, IsPure v s (exec (.decodeC r) s) ∧ IsCelsius r v

/-- toF called on its own returns (9c + 160) / 5 rounded toward zero inside -3640..3623, and is refused outside (R88; the
spec's decision D33). -/
def Obligations.ToFReturnsOrRefuses : Prop :=
  ∀ (c : Word) (s : State),
    (-3640 ≤ c.toInt → c.toInt ≤ 3623 →
      ∃ f, IsPure f s (exec (.toF c) s) ∧ f.toInt = (9 * c.toInt + 160).tdiv 5) ∧
    (c.toInt < -3640 ∨ 3623 < c.toInt → exec (.toF c) s = .refused .fahrenheitOverflow)

/-- encodeT called on its own returns twice the operand modulo 2^16 (R89; the spec's decision D34). -/
def Obligations.EncodeTReturnsTwice : Prop :=
  ∀ (t : Word) (s : State), ∃ p, IsPure p s (exec (.encodeT t) s) ∧ p.toNat = (2 * t.toNat) % 65536

/-- Setting or clearing one config flag sets or clears its own test and alters no other flag's test (R93). -/
def Obligations.FlagTestsAreIndependent : Prop :=
  ∀ (c : Byte) (j k : Flag),
    Flag.test (Flag.set c j) k = (decide (k = j) || Flag.test c k) ∧
    Flag.test (Flag.clear c j) k = (!decide (k = j) && Flag.test c k)
end

