-- ==== Sys2Proof/Laws/Assoc.lean ====
section
/-! SUPPORT. The laws of the sparse tables: reading back what was written, leaving every other key alone, and keeping the
canonical form. -/

namespace Sys2Proof.Machine

variable {α : Type}

@[simp] theorem Assoc.get_set_same (k : Nat) (v : α) (l : List (Nat × α)) :
    Assoc.get k (Assoc.set k v l) = some v := by
  induction l with
  | nil => simp [Assoc.set, Assoc.get]
  | cons e l ih =>
    obtain ⟨j, u⟩ := e
    simp only [Assoc.set]
    split_ifs with h1 h2
    · simp [Assoc.get]
    · simp [Assoc.get]
    · simpa [Assoc.get, h2] using ih

@[simp] theorem Assoc.get_set_other {k j : Nat} (h : j ≠ k) (v : α) (l : List (Nat × α)) :
    Assoc.get j (Assoc.set k v l) = Assoc.get j l := by
  induction l with
  | nil => simp [Assoc.set, Assoc.get, Ne.symm h]
  | cons e l ih =>
    obtain ⟨i, u⟩ := e
    simp only [Assoc.set]
    split_ifs with h1 h2
    · simp [Assoc.get, Ne.symm h]
    · subst h2; simp [Assoc.get, Ne.symm h]
    · simp [Assoc.get, ih]

theorem Assoc.get_set (k j : Nat) (v : α) (l : List (Nat × α)) :
    Assoc.get j (Assoc.set k v l) = if j = k then some v else Assoc.get j l := by
  split_ifs with h
  · subst h; simp
  · simp [h]

@[simp] theorem Assoc.get_erase_same (k : Nat) (l : List (Nat × α)) : Assoc.get k (Assoc.erase k l) = none := by
  induction l with
  | nil => rfl
  | cons e l ih =>
    obtain ⟨i, u⟩ := e
    simp only [Assoc.erase]
    split_ifs with h
    · exact ih
    · simpa [Assoc.get, h] using ih

@[simp] theorem Assoc.get_erase_other {k j : Nat} (h : j ≠ k) (l : List (Nat × α)) :
    Assoc.get j (Assoc.erase k l) = Assoc.get j l := by
  induction l with
  | nil => rfl
  | cons e l ih =>
    obtain ⟨i, u⟩ := e
    simp only [Assoc.erase]
    split_ifs with h'
    · subst h'; simpa [Assoc.get, Ne.symm h] using ih
    · simp [Assoc.get, ih]

theorem Assoc.get_erase (k j : Nat) (l : List (Nat × α)) :
    Assoc.get j (Assoc.erase k l) = if j = k then none else Assoc.get j l := by
  split_ifs with h
  · subst h; simp
  · simp [h]

theorem Assoc.mem_of_get {k : Nat} {v : α} {l : List (Nat × α)} (h : Assoc.get k l = some v) : (k, v) ∈ l := by
  induction l with
  | nil => simp [Assoc.get] at h
  | cons e l ih =>
    obtain ⟨i, u⟩ := e
    simp only [Assoc.get] at h
    split_ifs at h with h'
    · cases h; subst h'; simp
    · exact List.mem_cons_of_mem _ (ih h)

theorem Assoc.erase_of_get_none {k : Nat} {l : List (Nat × α)} (h : Assoc.get k l = none) : Assoc.erase k l = l := by
  induction l with
  | nil => rfl
  | cons e l ih =>
    obtain ⟨i, u⟩ := e
    simp only [Assoc.get] at h
    split_ifs at h with h'
    simp [Assoc.erase, h', ih h]

/-- Taking off what was just put on leaves the table as it was. -/
theorem Assoc.erase_set {k : Nat} (v : α) {l : List (Nat × α)} (h : Assoc.get k l = none) :
    Assoc.erase k (Assoc.set k v l) = l := by
  induction l with
  | nil => simp [Assoc.set, Assoc.erase]
  | cons e l ih =>
    obtain ⟨i, u⟩ := e
    simp only [Assoc.get] at h
    split_ifs at h with h'
    simp only [Assoc.set, h', if_false]
    split_ifs with h1
    · simp [Assoc.erase, h', Assoc.erase_of_get_none h]
    · simp [Assoc.erase, h', ih h]

@[simp] theorem Assoc.set_set (k : Nat) (u v : α) (l : List (Nat × α)) :
    Assoc.set k v (Assoc.set k u l) = Assoc.set k v l := by
  induction l with
  | nil => simp [Assoc.set]
  | cons e l ih =>
    obtain ⟨i, w⟩ := e
    simp only [Assoc.set]
    split_ifs with h1 h2
    · simp [Assoc.set]
    · simp [Assoc.set]
    · simp [Assoc.set, h1, h2, ih]

theorem Assoc.above_trans {j k : Nat} (h : j < k) {l : List (Nat × α)} (ha : Assoc.above k l = true) :
    Assoc.above j l = true := by
  induction l with
  | nil => rfl
  | cons e l ih =>
    obtain ⟨i, u⟩ := e
    simp only [Assoc.above, Bool.and_eq_true, decide_eq_true_eq] at ha ⊢
    exact ⟨by omega, ih ha.2⟩

theorem Assoc.above_set {j k : Nat} (h : j < k) (v : α) {l : List (Nat × α)} (ha : Assoc.above j l = true) :
    Assoc.above j (Assoc.set k v l) = true := by
  induction l with
  | nil => simp [Assoc.set, Assoc.above, h]
  | cons e l ih =>
    obtain ⟨i, u⟩ := e
    simp only [Assoc.above, Bool.and_eq_true, decide_eq_true_eq] at ha
    simp only [Assoc.set]
    split_ifs <;> simp [Assoc.above, ha, h, ih]

/-- Writing an entry keeps the canonical form. -/
theorem Assoc.rising_set (k : Nat) (v : α) {l : List (Nat × α)} (hr : Assoc.rising l = true) :
    Assoc.rising (Assoc.set k v l) = true := by
  induction l with
  | nil => rfl
  | cons e l ih =>
    obtain ⟨i, u⟩ := e
    simp only [Assoc.rising, Bool.and_eq_true] at hr
    simp only [Assoc.set]
    split_ifs with h1 h2
    · simp [Assoc.rising, Assoc.above, hr, h1, Assoc.above_trans h1 hr.1]
    · subst h2; simp [Assoc.rising, hr]
    · simp only [Assoc.rising, Bool.and_eq_true]
      exact ⟨Assoc.above_set (by omega) v hr.1, ih hr.2⟩

theorem Assoc.above_erase {j : Nat} (k : Nat) {l : List (Nat × α)} (ha : Assoc.above j l = true) :
    Assoc.above j (Assoc.erase k l) = true := by
  induction l with
  | nil => rfl
  | cons e l ih =>
    obtain ⟨i, u⟩ := e
    simp only [Assoc.above, Bool.and_eq_true, decide_eq_true_eq] at ha
    simp only [Assoc.erase]
    split_ifs
    · exact ih ha.2
    · simp [Assoc.above, ha, ih]

/-- Removing an entry keeps the canonical form. -/
theorem Assoc.rising_erase (k : Nat) {l : List (Nat × α)} (hr : Assoc.rising l = true) :
    Assoc.rising (Assoc.erase k l) = true := by
  induction l with
  | nil => rfl
  | cons e l ih =>
    obtain ⟨i, u⟩ := e
    simp only [Assoc.rising, Bool.and_eq_true] at hr
    simp only [Assoc.erase]
    split_ifs
    · exact ih hr.2
    · simp [Assoc.rising, hr, Assoc.above_erase, ih]

theorem Assoc.get_none_of_above {k : Nat} {l : List (Nat × α)} (ha : Assoc.above k l = true) : Assoc.get k l = none := by
  induction l with
  | nil => rfl
  | cons e l ih =>
    obtain ⟨i, u⟩ := e
    simp only [Assoc.above, Bool.and_eq_true, decide_eq_true_eq] at ha
    simp [Assoc.get, ih ha.2, Nat.ne_of_gt ha.1]

/-- Writing an entry replaces the old one's share of a total. -/
theorem Assoc.total_set (f : α → Nat) (k : Nat) (v : α) {l : List (Nat × α)} (hr : Assoc.rising l = true) :
    Assoc.total f (Assoc.set k v l) + ((Assoc.get k l).map f).getD 0 = Assoc.total f l + f v := by
  induction l with
  | nil => simp [Assoc.set, Assoc.get, Assoc.total]
  | cons e l ih =>
    obtain ⟨i, u⟩ := e
    simp only [Assoc.rising, Bool.and_eq_true] at hr
    have := ih hr.2
    simp only [Assoc.set, Assoc.get]
    split_ifs with h1 h2 h2
    · omega
    · simp [Assoc.get_none_of_above (Assoc.above_trans h1 hr.1), Assoc.total]; omega
    · simp [Assoc.total]; omega
    · simp only [Assoc.total]; omega

/-- Removing an entry takes its share off a total. -/
theorem Assoc.total_erase (f : α → Nat) (k : Nat) {l : List (Nat × α)} (hr : Assoc.rising l = true) :
    Assoc.total f (Assoc.erase k l) + ((Assoc.get k l).map f).getD 0 = Assoc.total f l := by
  induction l with
  | nil => rfl
  | cons e l ih =>
    obtain ⟨i, u⟩ := e
    simp only [Assoc.rising, Bool.and_eq_true] at hr
    have := ih hr.2
    simp only [Assoc.erase, Assoc.get]
    split_ifs with h2
    · subst h2
      rw [Assoc.get_none_of_above hr.1] at this
      simp at this
      simp [Assoc.total]; omega
    · simp only [Assoc.total]; omega

/-- An entry of a canonical table is what its key reads. -/
theorem Assoc.get_of_mem {k : Nat} {v : α} {l : List (Nat × α)} (hr : Assoc.rising l = true) (hm : (k, v) ∈ l) :
    Assoc.get k l = some v := by
  induction l with
  | nil => simp at hm
  | cons e l ih =>
    obtain ⟨j, u⟩ := e
    simp only [Assoc.rising, Bool.and_eq_true] at hr
    simp only [List.mem_cons, Prod.mk.injEq] at hm
    rcases hm with ⟨rfl, rfl⟩ | hm
    · simp [Assoc.get]
    · have := ih hr.2 hm
      have ne : j ≠ k := by rintro rfl; rw [Assoc.get_none_of_above hr.1] at this; simp at this
      simp [Assoc.get, ne, this]

/-- Writing one key leaves the entries of the others. -/
theorem Assoc.mem_set {k j : Nat} (hj : j ≠ k) (v u : α) (l : List (Nat × α)) :
    (j, u) ∈ Assoc.set k v l ↔ (j, u) ∈ l := by
  induction l with
  | nil => simp [Assoc.set, hj]
  | cons e l ih =>
    obtain ⟨i, w⟩ := e
    simp only [Assoc.set]
    split_ifs with h1 h2
    · simp [hj]
    · subst h2; simp [hj]
    · simp [ih]

end Sys2Proof.Machine
end

