-- ==== Sys2Proof/Laws/State.lean ====
section
/-! SUPPORT. One lemma per field per update of the state, each by rfl, so that no later proof unfolds a record update. -/

namespace Sys2Proof.Machine

@[simp] theorem State.emit_params (s : State) (h : HandleId) (e : Event) : (s.emit h e).params = s.params := rfl
@[simp] theorem State.emit_handles (s : State) (h : HandleId) (e : Event) : (s.emit h e).handles = s.handles := rfl
@[simp] theorem State.emit_lines (s : State) (h : HandleId) (e : Event) : (s.emit h e).lines = s.lines := rfl
@[simp] theorem State.emit_ie (s : State) (h : HandleId) (e : Event) : (s.emit h e).ie = s.ie := rfl
@[simp] theorem State.emit_excl (s : State) (h : HandleId) (e : Event) : (s.emit h e).excl = s.excl := rfl
@[simp] theorem State.emit_tasks (s : State) (h : HandleId) (e : Event) : (s.emit h e).tasks = s.tasks := rfl
@[simp] theorem State.emit_trace (s : State) (h : HandleId) (e : Event) : (s.emit h e).trace = s.trace ++ [⟨h, e⟩] := rfl
@[simp] theorem State.emit_returns (s : State) (h : HandleId) (e : Event) : (s.emit h e).returns = s.returns := rfl
@[simp] theorem State.emit_draws (s : State) (h : HandleId) (e : Event) : (s.emit h e).draws = s.draws := rfl
@[simp] theorem State.emit_drawn (s : State) (h : HandleId) (e : Event) : (s.emit h e).drawn = s.drawn := rfl
@[simp] theorem State.emit_script (s : State) (h : HandleId) (e : Event) : (s.emit h e).script = s.script := rfl
@[simp] theorem State.emit_sched (s : State) (h : HandleId) (e : Event) : (s.emit h e).sched = s.sched := rfl

@[simp] theorem State.drive_params (s : State) (h : HandleId) (l : LineId) (b : Bit) : (s.drive h l b).params = s.params := rfl
@[simp] theorem State.drive_handles (s : State) (h : HandleId) (l : LineId) (b : Bit) : (s.drive h l b).handles = s.handles := rfl
@[simp] theorem State.drive_lines (s : State) (h : HandleId) (l : LineId) (b : Bit) : (s.drive h l b).lines = Assoc.set l ⟨b, (s.latch l).dir⟩ s.lines := rfl
@[simp] theorem State.drive_ie (s : State) (h : HandleId) (l : LineId) (b : Bit) : (s.drive h l b).ie = s.ie := rfl
@[simp] theorem State.drive_excl (s : State) (h : HandleId) (l : LineId) (b : Bit) : (s.drive h l b).excl = s.excl := rfl
@[simp] theorem State.drive_tasks (s : State) (h : HandleId) (l : LineId) (b : Bit) : (s.drive h l b).tasks = s.tasks := rfl
@[simp] theorem State.drive_trace (s : State) (h : HandleId) (l : LineId) (b : Bit) : (s.drive h l b).trace = s.trace ++ [⟨h, .drive l b⟩] := rfl
@[simp] theorem State.drive_returns (s : State) (h : HandleId) (l : LineId) (b : Bit) : (s.drive h l b).returns = s.returns := rfl
@[simp] theorem State.drive_draws (s : State) (h : HandleId) (l : LineId) (b : Bit) : (s.drive h l b).draws = s.draws := rfl
@[simp] theorem State.drive_drawn (s : State) (h : HandleId) (l : LineId) (b : Bit) : (s.drive h l b).drawn = s.drawn := rfl
@[simp] theorem State.drive_script (s : State) (h : HandleId) (l : LineId) (b : Bit) : (s.drive h l b).script = s.script := rfl
@[simp] theorem State.drive_sched (s : State) (h : HandleId) (l : LineId) (b : Bit) : (s.drive h l b).sched = s.sched := rfl

@[simp] theorem State.setDir_params (s : State) (h : HandleId) (l : LineId) (d : Dir) : (s.setDir h l d).params = s.params := rfl
@[simp] theorem State.setDir_handles (s : State) (h : HandleId) (l : LineId) (d : Dir) : (s.setDir h l d).handles = s.handles := rfl
@[simp] theorem State.setDir_lines (s : State) (h : HandleId) (l : LineId) (d : Dir) : (s.setDir h l d).lines = Assoc.set l ⟨(s.latch l).out, d⟩ s.lines := rfl
@[simp] theorem State.setDir_ie (s : State) (h : HandleId) (l : LineId) (d : Dir) : (s.setDir h l d).ie = s.ie := rfl
@[simp] theorem State.setDir_excl (s : State) (h : HandleId) (l : LineId) (d : Dir) : (s.setDir h l d).excl = s.excl := rfl
@[simp] theorem State.setDir_tasks (s : State) (h : HandleId) (l : LineId) (d : Dir) : (s.setDir h l d).tasks = s.tasks := rfl
@[simp] theorem State.setDir_trace (s : State) (h : HandleId) (l : LineId) (d : Dir) : (s.setDir h l d).trace = s.trace ++ [⟨h, .setDir l d⟩] := rfl
@[simp] theorem State.setDir_returns (s : State) (h : HandleId) (l : LineId) (d : Dir) : (s.setDir h l d).returns = s.returns := rfl
@[simp] theorem State.setDir_draws (s : State) (h : HandleId) (l : LineId) (d : Dir) : (s.setDir h l d).draws = s.draws := rfl
@[simp] theorem State.setDir_drawn (s : State) (h : HandleId) (l : LineId) (d : Dir) : (s.setDir h l d).drawn = s.drawn := rfl
@[simp] theorem State.setDir_script (s : State) (h : HandleId) (l : LineId) (d : Dir) : (s.setDir h l d).script = s.script := rfl
@[simp] theorem State.setDir_sched (s : State) (h : HandleId) (l : LineId) (d : Dir) : (s.setDir h l d).sched = s.sched := rfl

@[simp] theorem State.sample_params (s : State) (h : HandleId) (l : LineId) : (s.sample h l).params = s.params := rfl
@[simp] theorem State.sample_handles (s : State) (h : HandleId) (l : LineId) : (s.sample h l).handles = s.handles := rfl
@[simp] theorem State.sample_lines (s : State) (h : HandleId) (l : LineId) : (s.sample h l).lines = s.lines := rfl
@[simp] theorem State.sample_ie (s : State) (h : HandleId) (l : LineId) : (s.sample h l).ie = s.ie := rfl
@[simp] theorem State.sample_excl (s : State) (h : HandleId) (l : LineId) : (s.sample h l).excl = s.excl := rfl
@[simp] theorem State.sample_tasks (s : State) (h : HandleId) (l : LineId) : (s.sample h l).tasks = s.tasks := rfl
@[simp] theorem State.sample_trace (s : State) (h : HandleId) (l : LineId) : (s.sample h l).trace = s.trace ++ [⟨h, .sample l (s.drawAt 0)⟩] := rfl
@[simp] theorem State.sample_returns (s : State) (h : HandleId) (l : LineId) : (s.sample h l).returns = s.returns := rfl
@[simp] theorem State.sample_draws (s : State) (h : HandleId) (l : LineId) : (s.sample h l).draws = s.draws.tail := rfl
@[simp] theorem State.sample_drawn (s : State) (h : HandleId) (l : LineId) : (s.sample h l).drawn = s.drawn + 1 := rfl
@[simp] theorem State.sample_script (s : State) (h : HandleId) (l : LineId) : (s.sample h l).script = s.script := rfl
@[simp] theorem State.sample_sched (s : State) (h : HandleId) (l : LineId) : (s.sample h l).sched = s.sched := rfl

@[simp] theorem State.exclEnter_params (s : State) (h : HandleId) : (s.exclEnter h).params = s.params := rfl
@[simp] theorem State.exclEnter_handles (s : State) (h : HandleId) : (s.exclEnter h).handles = s.handles := rfl
@[simp] theorem State.exclEnter_lines (s : State) (h : HandleId) : (s.exclEnter h).lines = s.lines := rfl
@[simp] theorem State.exclEnter_ie (s : State) (h : HandleId) : (s.exclEnter h).ie = false := rfl
@[simp] theorem State.exclEnter_excl (s : State) (h : HandleId) : (s.exclEnter h).excl = s.ie :: s.excl := rfl
@[simp] theorem State.exclEnter_tasks (s : State) (h : HandleId) : (s.exclEnter h).tasks = s.tasks := rfl
@[simp] theorem State.exclEnter_trace (s : State) (h : HandleId) : (s.exclEnter h).trace = s.trace ++ [⟨h, .exclEnter⟩] := rfl
@[simp] theorem State.exclEnter_returns (s : State) (h : HandleId) : (s.exclEnter h).returns = s.returns := rfl
@[simp] theorem State.exclEnter_draws (s : State) (h : HandleId) : (s.exclEnter h).draws = s.draws := rfl
@[simp] theorem State.exclEnter_drawn (s : State) (h : HandleId) : (s.exclEnter h).drawn = s.drawn := rfl
@[simp] theorem State.exclEnter_script (s : State) (h : HandleId) : (s.exclEnter h).script = s.script := rfl
@[simp] theorem State.exclEnter_sched (s : State) (h : HandleId) : (s.exclEnter h).sched = s.sched := rfl

@[simp] theorem State.exclExit_params (s : State) (h : HandleId) : (s.exclExit h).params = s.params := rfl
@[simp] theorem State.exclExit_handles (s : State) (h : HandleId) : (s.exclExit h).handles = s.handles := rfl
@[simp] theorem State.exclExit_lines (s : State) (h : HandleId) : (s.exclExit h).lines = s.lines := rfl
@[simp] theorem State.exclExit_ie (s : State) (h : HandleId) : (s.exclExit h).ie = s.excl.headD s.ie := rfl
@[simp] theorem State.exclExit_excl (s : State) (h : HandleId) : (s.exclExit h).excl = s.excl.tail := rfl
@[simp] theorem State.exclExit_tasks (s : State) (h : HandleId) : (s.exclExit h).tasks = s.tasks := rfl
@[simp] theorem State.exclExit_trace (s : State) (h : HandleId) : (s.exclExit h).trace = s.trace ++ [⟨h, .exclExit⟩] := rfl
@[simp] theorem State.exclExit_returns (s : State) (h : HandleId) : (s.exclExit h).returns = s.returns := rfl
@[simp] theorem State.exclExit_draws (s : State) (h : HandleId) : (s.exclExit h).draws = s.draws := rfl
@[simp] theorem State.exclExit_drawn (s : State) (h : HandleId) : (s.exclExit h).drawn = s.drawn := rfl
@[simp] theorem State.exclExit_script (s : State) (h : HandleId) : (s.exclExit h).script = s.script := rfl
@[simp] theorem State.exclExit_sched (s : State) (h : HandleId) : (s.exclExit h).sched = s.sched := rfl

@[simp] theorem State.logReturn_params (s : State) (h : Option HandleId) (e : Ending) : (s.logReturn h e).params = s.params := rfl
@[simp] theorem State.logReturn_handles (s : State) (h : Option HandleId) (e : Ending) : (s.logReturn h e).handles = s.handles := rfl
@[simp] theorem State.logReturn_lines (s : State) (h : Option HandleId) (e : Ending) : (s.logReturn h e).lines = s.lines := rfl
@[simp] theorem State.logReturn_ie (s : State) (h : Option HandleId) (e : Ending) : (s.logReturn h e).ie = s.ie := rfl
@[simp] theorem State.logReturn_excl (s : State) (h : Option HandleId) (e : Ending) : (s.logReturn h e).excl = s.excl := rfl
@[simp] theorem State.logReturn_tasks (s : State) (h : Option HandleId) (e : Ending) : (s.logReturn h e).tasks = s.tasks := rfl
@[simp] theorem State.logReturn_trace (s : State) (h : Option HandleId) (e : Ending) : (s.logReturn h e).trace = s.trace := rfl
@[simp] theorem State.logReturn_returns (s : State) (h : Option HandleId) (e : Ending) : (s.logReturn h e).returns = s.returns ++ [⟨h, e⟩] := rfl
@[simp] theorem State.logReturn_draws (s : State) (h : Option HandleId) (e : Ending) : (s.logReturn h e).draws = s.draws := rfl
@[simp] theorem State.logReturn_drawn (s : State) (h : Option HandleId) (e : Ending) : (s.logReturn h e).drawn = s.drawn := rfl
@[simp] theorem State.logReturn_script (s : State) (h : Option HandleId) (e : Ending) : (s.logReturn h e).script = s.script := rfl
@[simp] theorem State.logReturn_sched (s : State) (h : Option HandleId) (e : Ending) : (s.logReturn h e).sched = s.sched := rfl

@[simp] theorem State.setHandle_params (s : State) (h : HandleId) (g : Handle) : (s.setHandle h g).params = s.params := rfl
@[simp] theorem State.setHandle_handles (s : State) (h : HandleId) (g : Handle) : (s.setHandle h g).handles = Assoc.set h g s.handles := rfl
@[simp] theorem State.setHandle_lines (s : State) (h : HandleId) (g : Handle) : (s.setHandle h g).lines = s.lines := rfl
@[simp] theorem State.setHandle_ie (s : State) (h : HandleId) (g : Handle) : (s.setHandle h g).ie = s.ie := rfl
@[simp] theorem State.setHandle_excl (s : State) (h : HandleId) (g : Handle) : (s.setHandle h g).excl = s.excl := rfl
@[simp] theorem State.setHandle_tasks (s : State) (h : HandleId) (g : Handle) : (s.setHandle h g).tasks = s.tasks := rfl
@[simp] theorem State.setHandle_trace (s : State) (h : HandleId) (g : Handle) : (s.setHandle h g).trace = s.trace := rfl
@[simp] theorem State.setHandle_returns (s : State) (h : HandleId) (g : Handle) : (s.setHandle h g).returns = s.returns := rfl
@[simp] theorem State.setHandle_draws (s : State) (h : HandleId) (g : Handle) : (s.setHandle h g).draws = s.draws := rfl
@[simp] theorem State.setHandle_drawn (s : State) (h : HandleId) (g : Handle) : (s.setHandle h g).drawn = s.drawn := rfl
@[simp] theorem State.setHandle_script (s : State) (h : HandleId) (g : Handle) : (s.setHandle h g).script = s.script := rfl
@[simp] theorem State.setHandle_sched (s : State) (h : HandleId) (g : Handle) : (s.setHandle h g).sched = s.sched := rfl

@[simp] theorem State.setTask_params (s : State) (h : HandleId) (t : Task) : (s.setTask h t).params = s.params := rfl
@[simp] theorem State.setTask_handles (s : State) (h : HandleId) (t : Task) : (s.setTask h t).handles = s.handles := rfl
@[simp] theorem State.setTask_lines (s : State) (h : HandleId) (t : Task) : (s.setTask h t).lines = s.lines := rfl
@[simp] theorem State.setTask_ie (s : State) (h : HandleId) (t : Task) : (s.setTask h t).ie = s.ie := rfl
@[simp] theorem State.setTask_excl (s : State) (h : HandleId) (t : Task) : (s.setTask h t).excl = s.excl := rfl
@[simp] theorem State.setTask_tasks (s : State) (h : HandleId) (t : Task) : (s.setTask h t).tasks = Assoc.set h t s.tasks := rfl
@[simp] theorem State.setTask_trace (s : State) (h : HandleId) (t : Task) : (s.setTask h t).trace = s.trace := rfl
@[simp] theorem State.setTask_returns (s : State) (h : HandleId) (t : Task) : (s.setTask h t).returns = s.returns := rfl
@[simp] theorem State.setTask_draws (s : State) (h : HandleId) (t : Task) : (s.setTask h t).draws = s.draws := rfl
@[simp] theorem State.setTask_drawn (s : State) (h : HandleId) (t : Task) : (s.setTask h t).drawn = s.drawn := rfl
@[simp] theorem State.setTask_script (s : State) (h : HandleId) (t : Task) : (s.setTask h t).script = s.script := rfl
@[simp] theorem State.setTask_sched (s : State) (h : HandleId) (t : Task) : (s.setTask h t).sched = s.sched := rfl

@[simp] theorem State.clearTask_params (s : State) (h : HandleId) : (s.clearTask h).params = s.params := rfl
@[simp] theorem State.clearTask_handles (s : State) (h : HandleId) : (s.clearTask h).handles = s.handles := rfl
@[simp] theorem State.clearTask_lines (s : State) (h : HandleId) : (s.clearTask h).lines = s.lines := rfl
@[simp] theorem State.clearTask_ie (s : State) (h : HandleId) : (s.clearTask h).ie = s.ie := rfl
@[simp] theorem State.clearTask_excl (s : State) (h : HandleId) : (s.clearTask h).excl = s.excl := rfl
@[simp] theorem State.clearTask_tasks (s : State) (h : HandleId) : (s.clearTask h).tasks = Assoc.erase h s.tasks := rfl
@[simp] theorem State.clearTask_trace (s : State) (h : HandleId) : (s.clearTask h).trace = s.trace := rfl
@[simp] theorem State.clearTask_returns (s : State) (h : HandleId) : (s.clearTask h).returns = s.returns := rfl
@[simp] theorem State.clearTask_draws (s : State) (h : HandleId) : (s.clearTask h).draws = s.draws := rfl
@[simp] theorem State.clearTask_drawn (s : State) (h : HandleId) : (s.clearTask h).drawn = s.drawn := rfl
@[simp] theorem State.clearTask_script (s : State) (h : HandleId) : (s.clearTask h).script = s.script := rfl
@[simp] theorem State.clearTask_sched (s : State) (h : HandleId) : (s.clearTask h).sched = s.sched := rfl

@[simp] theorem State.popTurn_params (s : State) : s.popTurn.params = s.params := rfl
@[simp] theorem State.popTurn_handles (s : State) : s.popTurn.handles = s.handles := rfl
@[simp] theorem State.popTurn_lines (s : State) : s.popTurn.lines = s.lines := rfl
@[simp] theorem State.popTurn_ie (s : State) : s.popTurn.ie = s.ie := rfl
@[simp] theorem State.popTurn_excl (s : State) : s.popTurn.excl = s.excl := rfl
@[simp] theorem State.popTurn_tasks (s : State) : s.popTurn.tasks = s.tasks := rfl
@[simp] theorem State.popTurn_trace (s : State) : s.popTurn.trace = s.trace := rfl
@[simp] theorem State.popTurn_returns (s : State) : s.popTurn.returns = s.returns := rfl
@[simp] theorem State.popTurn_draws (s : State) : s.popTurn.draws = s.draws := rfl
@[simp] theorem State.popTurn_drawn (s : State) : s.popTurn.drawn = s.drawn := rfl
@[simp] theorem State.popTurn_script (s : State) : s.popTurn.script = s.script := rfl
@[simp] theorem State.popTurn_sched (s : State) : s.popTurn.sched = s.sched.tail := rfl

@[simp] theorem State.popRequest_params (s : State) : s.popRequest.params = s.params := rfl
@[simp] theorem State.popRequest_handles (s : State) : s.popRequest.handles = s.handles := rfl
@[simp] theorem State.popRequest_lines (s : State) : s.popRequest.lines = s.lines := rfl
@[simp] theorem State.popRequest_ie (s : State) : s.popRequest.ie = s.ie := rfl
@[simp] theorem State.popRequest_excl (s : State) : s.popRequest.excl = s.excl := rfl
@[simp] theorem State.popRequest_tasks (s : State) : s.popRequest.tasks = s.tasks := rfl
@[simp] theorem State.popRequest_trace (s : State) : s.popRequest.trace = s.trace := rfl
@[simp] theorem State.popRequest_returns (s : State) : s.popRequest.returns = s.returns := rfl
@[simp] theorem State.popRequest_draws (s : State) : s.popRequest.draws = s.draws := rfl
@[simp] theorem State.popRequest_drawn (s : State) : s.popRequest.drawn = s.drawn := rfl
@[simp] theorem State.popRequest_script (s : State) : s.popRequest.script = s.script.tail := rfl
@[simp] theorem State.popRequest_sched (s : State) : s.popRequest.sched = s.sched := rfl

end Sys2Proof.Machine
end

