-- ==== Sys2Proof/Laws/Run.lean ====
section
/-! SUPPORT. What performing events does, once for all: one lemma per part of the state that `runActs` reaches, and one
for each part it leaves alone. -/

namespace Sys2Proof.Machine

/-! ## Readers over updates -/

@[simp] theorem State.handle_setHandle_same (s : State) (h : HandleId) (g : Handle) : (s.setHandle h g).handle h = g := by
  simp [State.handle]

@[simp] theorem State.handle_setHandle_other (s : State) {h k : HandleId} (hk : k ≠ h) (g : Handle) :
    (s.setHandle h g).handle k = s.handle k := by
  simp [State.handle, hk]

@[simp] theorem State.task_setTask_same (s : State) (h : HandleId) (t : Task) : (s.setTask h t).task h = some t := by
  simp [State.task]

@[simp] theorem State.task_setTask_other (s : State) {h k : HandleId} (hk : k ≠ h) (t : Task) :
    (s.setTask h t).task k = s.task k := by
  simp [State.task, hk]

@[simp] theorem State.task_clearTask_same (s : State) (h : HandleId) : (s.clearTask h).task h = none := by
  simp [State.task]

@[simp] theorem State.task_clearTask_other (s : State) {h k : HandleId} (hk : k ≠ h) :
    (s.clearTask h).task k = s.task k := by
  simp [State.task, hk]

/-- The handle records decide every handle. -/
theorem State.handle_congr {s t : State} (e : t.handles = s.handles) (h : HandleId) : t.handle h = s.handle h := by
  simp [State.handle, e]

/-- The lines decide every latch. -/
theorem State.latch_congr {s t : State} (e : t.lines = s.lines) (l : LineId) : t.latch l = s.latch l := by
  simp [State.latch, e]

/-- The tasks decide every operation in progress. -/
theorem State.task_congr {s t : State} (e : t.tasks = s.tasks) (h : HandleId) : t.task h = s.task h := by
  simp [State.task, e]

/-- The draws and their count decide every draw. -/
theorem State.drawAt_congr {s t : State} (e : t.draws = s.draws) (f : t.drawn = s.drawn) (k : Nat) :
    t.drawAt k = s.drawAt k := by
  simp [State.drawAt, e, f]

/-- The handle records and the lines decide the level of a pin. -/
theorem State.outOf_congr {s t : State} (e : t.handles = s.handles) (f : t.lines = s.lines) (h : HandleId) (p : Pin) :
    t.outOf h p = s.outOf h p := by
  rw [State.outOf, State.outOf, State.handle_congr e, State.latch_congr f]

/-- The handle records and the lines decide the direction of a pin. -/
theorem State.dirOf_congr {s t : State} (e : t.handles = s.handles) (f : t.lines = s.lines) (h : HandleId) (p : Pin) :
    t.dirOf h p = s.dirOf h p := by
  rw [State.dirOf, State.dirOf, State.handle_congr e, State.latch_congr f]

@[simp] theorem State.outOf_logReturn (s : State) (k : Option HandleId) (e : Ending) (h : HandleId) (p : Pin) :
    (s.logReturn k e).outOf h p = s.outOf h p :=
  State.outOf_congr rfl rfl h p

@[simp] theorem State.dirOf_logReturn (s : State) (k : Option HandleId) (e : Ending) (h : HandleId) (p : Pin) :
    (s.logReturn k e).dirOf h p = s.dirOf h p :=
  State.dirOf_congr rfl rfl h p

@[simp] theorem State.outOf_setTask (s : State) (k : HandleId) (u : Task) (h : HandleId) (p : Pin) :
    (s.setTask k u).outOf h p = s.outOf h p :=
  State.outOf_congr rfl rfl h p

@[simp] theorem State.dirOf_setTask (s : State) (k : HandleId) (u : Task) (h : HandleId) (p : Pin) :
    (s.setTask k u).dirOf h p = s.dirOf h p :=
  State.dirOf_congr rfl rfl h p

@[simp] theorem State.outOf_clearTask (s : State) (k : HandleId) (h : HandleId) (p : Pin) :
    (s.clearTask k).outOf h p = s.outOf h p :=
  State.outOf_congr rfl rfl h p

@[simp] theorem State.dirOf_clearTask (s : State) (k : HandleId) (h : HandleId) (p : Pin) :
    (s.clearTask k).dirOf h p = s.dirOf h p :=
  State.dirOf_congr rfl rfl h p

@[simp] theorem State.handle_logReturn (s : State) (k : Option HandleId) (e : Ending) (h : HandleId) :
    (s.logReturn k e).handle h = s.handle h :=
  State.handle_congr rfl h

@[simp] theorem State.handle_setTask (s : State) (k : HandleId) (u : Task) (h : HandleId) :
    (s.setTask k u).handle h = s.handle h :=
  State.handle_congr rfl h

@[simp] theorem State.handle_clearTask (s : State) (k : HandleId) (h : HandleId) :
    (s.clearTask k).handle h = s.handle h :=
  State.handle_congr rfl h

@[simp] theorem State.task_logReturn (s : State) (k : Option HandleId) (e : Ending) (h : HandleId) :
    (s.logReturn k e).task h = s.task h :=
  State.task_congr rfl h

@[simp] theorem State.task_setHandle (s : State) (k : HandleId) (g : Handle) (h : HandleId) :
    (s.setHandle k g).task h = s.task h :=
  State.task_congr rfl h

theorem State.latch_drive (s : State) (h : HandleId) (l : LineId) (b : Bit) (k : LineId) :
    (s.drive h l b).latch k = if k = l then ⟨b, (s.latch l).dir⟩ else s.latch k := by
  simp only [State.latch, State.drive_lines, Assoc.get_set]
  split_ifs <;> simp

theorem State.latch_setDir (s : State) (h : HandleId) (l : LineId) (d : Dir) (k : LineId) :
    (s.setDir h l d).latch k = if k = l then ⟨(s.latch l).out, d⟩ else s.latch k := by
  simp only [State.latch, State.setDir_lines, Assoc.get_set]
  split_ifs <;> simp

/-- Taking a sample moves every later draw one place up. -/
theorem State.drawAt_sample (s : State) (h : HandleId) (l : LineId) (k : Nat) :
    (s.sample h l).drawAt k = s.drawAt (k + 1) := by
  simp only [State.drawAt, State.sample_draws, State.sample_drawn]
  have e : s.drawn + 1 + k = s.drawn + (k + 1) := by omega
  have l : k < s.draws.length - 1 ↔ k + 1 < s.draws.length := by omega
  simp only [List.length_tail, List.getElem_tail, e, l]

/-! ## What performing events leaves alone -/

section Untouched

variable (h : HandleId) (a : Act) (as : List Act) (r : Run)

@[simp] theorem performAct_params : (performAct h a r).st.params = r.st.params := by cases a <;> rfl
@[simp] theorem performAct_handles : (performAct h a r).st.handles = r.st.handles := by cases a <;> rfl
@[simp] theorem performAct_tasks : (performAct h a r).st.tasks = r.st.tasks := by cases a <;> rfl
@[simp] theorem performAct_returns : (performAct h a r).st.returns = r.st.returns := by cases a <;> rfl
@[simp] theorem performAct_script : (performAct h a r).st.script = r.st.script := by cases a <;> rfl
@[simp] theorem performAct_sched : (performAct h a r).st.sched = r.st.sched := by cases a <;> rfl

@[simp] theorem runActs_nil : runActs h [] r = r := rfl
@[simp] theorem runActs_cons : runActs h (a :: as) r = runActs h as (performAct h a r) := rfl

theorem runActs_append (bs : List Act) : runActs h (as ++ bs) r = runActs h bs (runActs h as r) := by
  induction as generalizing r with
  | nil => rfl
  | cons a as ih => simp [ih]

@[simp] theorem runActs_params : (runActs h as r).st.params = r.st.params := by
  induction as generalizing r with
  | nil => rfl
  | cons a as ih => simp [ih]
@[simp] theorem runActs_handles : (runActs h as r).st.handles = r.st.handles := by
  induction as generalizing r with
  | nil => rfl
  | cons a as ih => simp [ih]
@[simp] theorem runActs_tasks : (runActs h as r).st.tasks = r.st.tasks := by
  induction as generalizing r with
  | nil => rfl
  | cons a as ih => simp [ih]
@[simp] theorem runActs_returns : (runActs h as r).st.returns = r.st.returns := by
  induction as generalizing r with
  | nil => rfl
  | cons a as ih => simp [ih]
@[simp] theorem runActs_script : (runActs h as r).st.script = r.st.script := by
  induction as generalizing r with
  | nil => rfl
  | cons a as ih => simp [ih]
@[simp] theorem runActs_sched : (runActs h as r).st.sched = r.st.sched := by
  induction as generalizing r with
  | nil => rfl
  | cons a as ih => simp [ih]

@[simp] theorem performAct_handle (g : HandleId) : (performAct h a r).st.handle g = r.st.handle g :=
  State.handle_congr (performAct_handles h a r) g
@[simp] theorem runActs_handle (g : HandleId) : (runActs h as r).st.handle g = r.st.handle g :=
  State.handle_congr (runActs_handles h as r) g
@[simp] theorem runActs_task (g : HandleId) : (runActs h as r).st.task g = r.st.task g :=
  State.task_congr (runActs_tasks h as r) g

end Untouched

/-! ## The trace -/

/-- The event of an act, on the lines of a handle, under the parameters, its sample reading `b`. -/
def Act.event (g : Handle) (p : Params) (b : Bit) : Act → Event
  | .drive q v => .drive (g.line q) v
  | .setDir q d => .setDir (g.line q) d
  | .sample _ => .sample g.dq b
  | .delayUnit => .delayUs p.tUnitUs
  | .delaySettle => .delayMs p.tNvMs
  | .exclEnter => .exclEnter
  | .exclExit => .exclExit

/-- How many draws an act takes. -/
def Act.takes : Act → Nat
  | .drive _ _ => 0
  | .setDir _ _ => 0
  | .sample _ => 1
  | .delayUnit => 0
  | .delaySettle => 0
  | .exclEnter => 0
  | .exclExit => 0

/-- How many draws a list of acts takes. -/
def samplesIn : List Act → Nat
  | [] => 0
  | a :: as => a.takes + samplesIn as

/-- The events of a list of acts, the samples reading `draw k`, `draw (k + 1)` and so on. -/
def eventsFrom (g : Handle) (p : Params) (draw : Nat → Bit) : Nat → List Act → List Event
  | _, [] => []
  | k, a :: as => a.event g p (draw k) :: eventsFrom g p draw (k + a.takes) as

@[simp] theorem samplesIn_append (as bs : List Act) : samplesIn (as ++ bs) = samplesIn as + samplesIn bs := by
  induction as with
  | nil => simp [samplesIn]
  | cons a as ih => simp [samplesIn, ih, Nat.add_assoc]

theorem eventsFrom_append (g : Handle) (p : Params) (draw : Nat → Bit) (k : Nat) (as bs : List Act) :
    eventsFrom g p draw k (as ++ bs) = eventsFrom g p draw k as ++ eventsFrom g p draw (k + samplesIn as) bs := by
  induction as generalizing k with
  | nil => simp [eventsFrom, samplesIn]
  | cons a as ih => simp [eventsFrom, samplesIn, ih, Nat.add_assoc]

theorem eventsFrom_length (g : Handle) (p : Params) (draw : Nat → Bit) (k : Nat) (as : List Act) :
    (eventsFrom g p draw k as).length = as.length := by
  induction as generalizing k with
  | nil => rfl
  | cons a as ih => simp [eventsFrom, ih]

theorem performAct_trace (h : HandleId) (a : Act) (r : Run) :
    (performAct h a r).st.trace =
      r.st.trace ++ [⟨h, a.event (r.st.handle h) r.st.params (r.st.drawAt 0)⟩] := by
  cases a <;> rfl

theorem performAct_drawAt (h : HandleId) (a : Act) (r : Run) (k : Nat) :
    (performAct h a r).st.drawAt k = r.st.drawAt (a.takes + k) := by
  cases a <;> simp only [performAct, Act.takes, Nat.zero_add, Nat.add_comm 1 k, State.drawAt_sample] <;> rfl

theorem performAct_drew (h : HandleId) (a : Act) (r : Run) :
    (performAct h a r).st.draws = r.st.draws.drop a.takes ∧ (performAct h a r).st.drawn = r.st.drawn + a.takes := by
  cases a <;> simp [performAct, Act.takes]

theorem runActs_drawAt (h : HandleId) (as : List Act) (r : Run) (k : Nat) :
    (runActs h as r).st.drawAt k = r.st.drawAt (samplesIn as + k) := by
  induction as generalizing r k with
  | nil => simp [samplesIn]
  | cons a as ih => simp [samplesIn, ih, performAct_drawAt, Nat.add_assoc]

theorem runActs_drew (h : HandleId) (as : List Act) (r : Run) :
    (runActs h as r).st.draws = r.st.draws.drop (samplesIn as) ∧
      (runActs h as r).st.drawn = r.st.drawn + samplesIn as := by
  induction as generalizing r with
  | nil => simp [samplesIn]
  | cons a as ih =>
    simp only [runActs_cons, samplesIn, ih, performAct_drew, List.drop_drop, Nat.add_assoc, and_self]

/-- The trace grows by exactly the events of the acts. -/
theorem runActs_trace (h : HandleId) (as : List Act) (r : Run) :
    (runActs h as r).st.trace =
      r.st.trace ++ (eventsFrom (r.st.handle h) r.st.params r.st.drawAt 0 as).map (Entry.mk h) := by
  suffices H : ∀ (draw : Nat → Bit) (k : Nat) (r : Run), (∀ j, r.st.drawAt j = draw (k + j)) →
      (runActs h as r).st.trace =
        r.st.trace ++ (eventsFrom (r.st.handle h) r.st.params draw k as).map (Entry.mk h) by
    exact H r.st.drawAt 0 r (fun j => by simp)
  induction as with
  | nil => simp [eventsFrom]
  | cons a as ih =>
    intro draw k r hd
    rw [runActs_cons, ih draw (k + a.takes) _ (fun j => by rw [performAct_drawAt, hd, Nat.add_assoc])]
    simp [eventsFrom, performAct_trace, hd]

/-! ## The lines -/

/-- Events reach no line but the handle's. -/
theorem performAct_latch_other (h : HandleId) (a : Act) (r : Run) {l : LineId} (hl : (r.st.handle h).owns l = false) :
    (performAct h a r).st.latch l = r.st.latch l := by
  have hp : ∀ p, l ≠ (r.st.handle h).line p := by
    intro p e
    cases p <;> simp [Handle.owns, Handle.line, e] at hl
  cases a with
  | drive p b => simp [performAct, State.latch_drive, hp p]
  | setDir p d => simp [performAct, State.latch_setDir, hp p]
  | sample i => rfl
  | delayUnit => rfl
  | delaySettle => rfl
  | exclEnter => rfl
  | exclExit => rfl

theorem runActs_latch_other (h : HandleId) (as : List Act) (r : Run) {l : LineId}
    (hl : (r.st.handle h).owns l = false) : (runActs h as r).st.latch l = r.st.latch l := by
  induction as generalizing r with
  | nil => rfl
  | cons a as ih => rw [runActs_cons, ih _ (by simpa using hl), performAct_latch_other h a r hl]

/-- What an act makes of the level of pin `p`. -/
def Act.outAfter (p : Pin) (cur : Bit) : Act → Bit
  | .drive q b => if q = p then b else cur
  | .setDir _ _ => cur
  | .sample _ => cur
  | .delayUnit => cur
  | .delaySettle => cur
  | .exclEnter => cur
  | .exclExit => cur

/-- What an act makes of the direction of pin `p`. -/
def Act.dirAfter (p : Pin) (cur : Dir) : Act → Dir
  | .drive _ _ => cur
  | .setDir q d => if q = p then d else cur
  | .sample _ => cur
  | .delayUnit => cur
  | .delaySettle => cur
  | .exclEnter => cur
  | .exclExit => cur

/-- The level of pin `p` after a list of acts. -/
def outAfter (p : Pin) (cur : Bit) (as : List Act) : Bit := as.foldl (Act.outAfter p) cur

/-- The direction of pin `p` after a list of acts. -/
def dirAfter (p : Pin) (cur : Dir) (as : List Act) : Dir := as.foldl (Act.dirAfter p) cur

theorem Handle.line_injective {g : Handle} (hd : g.distinct = true) {p q : Pin} : g.line p = g.line q ↔ p = q := by
  simp only [Handle.distinct, linesDistinct, Bool.and_eq_true, decide_eq_true_eq] at hd
  obtain ⟨⟨h1, h2⟩, h3⟩ := hd
  cases p <;> cases q <;> simp [Handle.line, h1, h2, h3, Ne.symm h1, Ne.symm h2, Ne.symm h3]

theorem performAct_pin (h : HandleId) (a : Act) (r : Run) (hd : (r.st.handle h).distinct = true) (p : Pin) :
    (performAct h a r).st.outOf h p = a.outAfter p (r.st.outOf h p) ∧
      (performAct h a r).st.dirOf h p = a.dirAfter p (r.st.dirOf h p) := by
  simp only [State.outOf, State.dirOf, performAct_handle]
  cases a with
  | drive q b =>
    simp only [performAct, State.latch_drive, Handle.line_injective hd, Act.outAfter, Act.dirAfter, eq_comm (a := p)]
    split_ifs with e
    · subst e; simp
    · simp
  | setDir q d =>
    simp only [performAct, State.latch_setDir, Handle.line_injective hd, Act.outAfter, Act.dirAfter, eq_comm (a := p)]
    split_ifs with e
    · subst e; simp
    · simp
  | sample i => exact ⟨rfl, rfl⟩
  | delayUnit => exact ⟨rfl, rfl⟩
  | delaySettle => exact ⟨rfl, rfl⟩
  | exclEnter => exact ⟨rfl, rfl⟩
  | exclExit => exact ⟨rfl, rfl⟩

/-- The levels and directions of a handle with distinct lines after its acts. -/
theorem runActs_pin (h : HandleId) (as : List Act) (r : Run) (hd : (r.st.handle h).distinct = true) (p : Pin) :
    (runActs h as r).st.outOf h p = outAfter p (r.st.outOf h p) as ∧
      (runActs h as r).st.dirOf h p = dirAfter p (r.st.dirOf h p) as := by
  induction as generalizing r with
  | nil => exact ⟨rfl, rfl⟩
  | cons a as ih =>
    have := ih (performAct h a r) (by simpa using hd)
    simpa [outAfter, dirAfter, performAct_pin h a r hd p] using this

/-- The lines' canonical form is kept. -/
theorem performAct_rising (h : HandleId) (a : Act) (r : Run) (hr : Assoc.rising r.st.lines = true) :
    Assoc.rising (performAct h a r).st.lines = true := by
  cases a <;> simp [performAct, hr, Assoc.rising_set]

theorem runActs_rising (h : HandleId) (as : List Act) (r : Run) (hr : Assoc.rising r.st.lines = true) :
    Assoc.rising (runActs h as r).st.lines = true := by
  induction as generalizing r with
  | nil => exact hr
  | cons a as ih => exact ih _ (performAct_rising h a r hr)

/-! ## The exclusion region -/

/-- What an act makes of `host.ie` and the save stack. -/
def Act.exclAfter (x : Bit × List Bit) : Act → Bit × List Bit
  | .drive _ _ => x
  | .setDir _ _ => x
  | .sample _ => x
  | .delayUnit => x
  | .delaySettle => x
  | .exclEnter => (false, x.1 :: x.2)
  | .exclExit => (x.2.headD x.1, x.2.tail)

/-- `host.ie` and the save stack after a list of acts. -/
def exclAfter (x : Bit × List Bit) (as : List Act) : Bit × List Bit := as.foldl Act.exclAfter x

theorem runActs_excl (h : HandleId) (as : List Act) (r : Run) :
    ((runActs h as r).st.ie, (runActs h as r).st.excl) = exclAfter (r.st.ie, r.st.excl) as := by
  induction as generalizing r with
  | nil => rfl
  | cons a as ih =>
    rw [runActs_cons, ih]
    cases a <;> rfl

/-! ## The accumulator -/

/-- Bit `j` of the accumulator after a sample into bit `i`. -/
theorem accumulate_bit (acc : Word) (i j : Nat) (b : Bit) (hi : i < 16) :
    (accumulate acc i b).getLsbD j = (acc.getLsbD j || (decide (j = i) && b)) := by
  by_cases hj : j < 16
  · simp only [accumulate, BitVec.getLsbD_or, BitVec.getLsbD_shiftLeft, hj, decide_true, Bool.true_and,
      BitVec.getLsbD_setWidth, BitVec.getLsbD_ofBool]
    congr 1
    by_cases e : j = i
    · subst e; simp
    · by_cases l : j < i
      · simp [l, e]
      · have : ¬ (j - i = 0) := by omega
        simp [e, this]
  · have h1 : (accumulate acc i b).getLsbD j = false := BitVec.getLsbD_of_ge _ _ (by omega)
    have h2 : acc.getLsbD j = false := BitVec.getLsbD_of_ge _ _ (by omega)
    have : j ≠ i := by omega
    simp [h1, h2, this]

end Sys2Proof.Machine
end

