-- ==== Sys2Proof/Laws/Frames.lean ====
section
/-! SUPPORT. The primitives' event lists, each fact once: their events, draws, levels, regions and accumulator. -/

namespace Sys2Proof.Machine

open Sys2Proof.Safety

/-! ## Events -/

theorem eventsFrom_writeCells (g : Handle) (p : Params) (draw : Nat → Bit) (k : Nat) (f : Nat → Bit) (is : List Nat) :
    eventsFrom g p draw k (is.flatMap fun i => writeCell (f i)) =
      (is.map f).flatMap (writeCellEvents g p.tUnitUs) := by
  induction is generalizing k with
  | nil => rfl
  | cons i is ih =>
    simp only [List.flatMap_cons, List.map_cons, eventsFrom_append, ih]
    rfl

theorem samplesIn_writeCells (f : Nat → Bit) (is : List Nat) :
    samplesIn (is.flatMap fun i => writeCell (f i)) = 0 := by
  induction is with
  | nil => rfl
  | cons i is ih => rw [List.flatMap_cons, samplesIn_append, ih]; rfl

theorem samplesIn_sampleCells (w : Nat) : samplesIn (sampleCells w) = w := by
  induction w with
  | zero => rfl
  | succ w ih =>
    rw [sampleCells, List.range_succ, List.flatMap_append, samplesIn_append]
    rw [sampleCells] at ih
    rw [ih]; rfl

@[simp] theorem samplesIn_writeActs (cmd : Byte) (pay : Word) (w : Nat) : samplesIn (writeActs cmd pay w) = 0 := by
  have c := samplesIn_writeCells cmd.getLsbD (List.range Config.cmdWidth)
  have d := samplesIn_writeCells pay.getLsbD (List.range w)
  by_cases e : w = 0 <;>
    simp [writeActs, commandCells, payloadCells, closeWrite, e, c, d, samplesIn, Act.takes]

@[simp] theorem samplesIn_readActs (cmd : Byte) (w : Nat) : samplesIn (readActs cmd w) = w := by
  simp only [readActs, samplesIn_append, samplesIn_writeActs, samplesIn_sampleCells]
  simp [samplesIn, Act.takes]

/-- The events of a write are the spec's trace of it (R66). -/
theorem eventsFrom_writeActs (g : Handle) (p : Params) (draw : Nat → Bit) (k : Nat) (cmd : Byte) (pay : Word) (w : Nat) :
    eventsFrom g p draw k (writeActs cmd pay w) = writeEvents g p.tUnitUs cmd pay w := by
  simp only [writeActs, commandCells, payloadCells, eventsFrom_append, eventsFrom_writeCells, writeEvents, lowBits,
    List.flatMap_append, Config.cmdWidth]
  by_cases e : w = 0 <;> simp [closeWrite, e, eventsFrom, Act.event, Handle.line]

theorem eventsFrom_sampleCells (g : Handle) (p : Params) (draw : Nat → Bit) (k w : Nat) :
    eventsFrom g p draw k (sampleCells w) =
      ((List.range w).map fun i => draw (k + i)).flatMap (readCellEvents g p.tUnitUs) := by
  induction w with
  | zero => rfl
  | succ w ih =>
    have hs := samplesIn_sampleCells w
    rw [sampleCells, List.range_succ, List.flatMap_append, eventsFrom_append]
    rw [sampleCells] at ih hs
    rw [ih, hs]
    simp [eventsFrom, readCell, readCellEvents, Act.event, Act.takes, Handle.line]

/-- The events of a read are the spec's trace of it (R67). -/
theorem eventsFrom_readActs (g : Handle) (p : Params) (draw : Nat → Bit) (k : Nat) (cmd : Byte) (w : Nat) :
    eventsFrom g p draw k (readActs cmd w) =
      readEvents g p.tUnitUs cmd ((List.range w).map fun i => draw (k + i)) := by
  simp only [readActs, eventsFrom_append, eventsFrom_writeActs, eventsFrom_sampleCells, samplesIn_append,
    samplesIn_writeActs, samplesIn_sampleCells, readEvents, noPayload]
  simp [eventsFrom, samplesIn, Act.event, Act.takes, Handle.line]

theorem length_writeCells (f : Nat → Bit) (is : List Nat) :
    (is.flatMap fun i => writeCell (f i)).length = 5 * is.length := by
  induction is with
  | nil => rfl
  | cons i is ih =>
    rw [List.flatMap_cons, List.length_append, ih, List.length_cons]
    have : (writeCell (f i)).length = 5 := rfl
    omega

theorem length_sampleCells (w : Nat) : (sampleCells w).length = 5 * w := by
  induction w with
  | zero => rfl
  | succ w ih =>
    rw [sampleCells, List.range_succ, List.flatMap_append, List.length_append]
    rw [sampleCells] at ih
    simp [ih, readCell]; omega

/-- 43 + 5w events, and one more for a payload (R66). -/
theorem length_writeActs (cmd : Byte) (pay : Word) (w : Nat) :
    (writeActs cmd pay w).length = 43 + 5 * w + if w = 0 then 0 else 1 := by
  have c := length_writeCells cmd.getLsbD (List.range Config.cmdWidth)
  have d := length_writeCells pay.getLsbD (List.range w)
  rw [List.length_range] at c d
  rw [show Config.cmdWidth = 8 from rfl] at c
  simp only [writeActs, commandCells, payloadCells, List.length_append, c, d, Config.cmdWidth]
  by_cases e : w = 0
  · simp [closeWrite, e]
  · simp [closeWrite, e]; omega

/-- 49 + 5w events (R67). -/
theorem length_readActs (cmd : Byte) (w : Nat) : (readActs cmd w).length = 49 + 5 * w := by
  simp only [readActs, List.length_append, length_writeActs, length_sampleCells]
  simp; omega

/-! ## Levels and directions -/

theorem outAfter_append (p : Pin) (cur : Bit) (as bs : List Act) :
    outAfter p cur (as ++ bs) = outAfter p (outAfter p cur as) bs := by
  simp [outAfter]

theorem dirAfter_append (p : Pin) (cur : Dir) (as bs : List Act) :
    dirAfter p cur (as ++ bs) = dirAfter p (dirAfter p cur as) bs := by
  simp [dirAfter]

theorem outAfter_writeCells (p : Pin) (cur : Bit) (f : Nat → Bit) (w : Nat) :
    outAfter p cur ((List.range w).flatMap fun i => writeCell (f i)) =
      match p with
      | .clk => if w = 0 then cur else true
      | .dq => if w = 0 then cur else f (w - 1)
      | .rst => cur := by
  induction w with
  | zero => cases p <;> rfl
  | succ w ih =>
    rw [List.range_succ, List.flatMap_append, outAfter_append, ih]
    cases p <;> simp [outAfter, writeCell, Act.outAfter]

theorem dirAfter_writeCells (p : Pin) (cur : Dir) (f : Nat → Bit) (is : List Nat) :
    dirAfter p cur (is.flatMap fun i => writeCell (f i)) = cur := by
  induction is generalizing cur with
  | nil => rfl
  | cons i is ih =>
    rw [List.flatMap_cons, dirAfter_append, ih]
    simp [dirAfter, writeCell, Act.dirAfter]

theorem outAfter_sampleCells (p : Pin) (cur : Bit) (w : Nat) :
    outAfter p cur (sampleCells w) = if p = .clk ∧ w ≠ 0 then true else cur := by
  induction w with
  | zero => simp [sampleCells, outAfter]
  | succ w ih =>
    rw [sampleCells, List.range_succ, List.flatMap_append, outAfter_append]
    rw [sampleCells] at ih
    rw [ih]
    cases p <;> simp [outAfter, readCell, Act.outAfter]

theorem dirAfter_sampleCells (p : Pin) (cur : Dir) (w : Nat) : dirAfter p cur (sampleCells w) = cur := by
  rw [sampleCells]
  generalize List.range w = is
  induction is with
  | nil => rfl
  | cons i is ih =>
    rw [List.flatMap_cons, dirAfter_append]
    simpa [dirAfter, readCell, Act.dirAfter] using ih

/-- What a write leaves of the levels (R66, R26). -/
theorem outAfter_writeActs (p : Pin) (cur : Bit) (cmd : Byte) (pay : Word) (w : Nat) :
    outAfter p cur (writeActs cmd pay w) =
      match p with
      | .clk => true
      | .dq => if w = 0 then cmd.getLsbD 7 else pay.getLsbD (w - 1)
      | .rst => decide (w = 0) := by
  simp only [writeActs, commandCells, payloadCells, outAfter_append, outAfter_writeCells, Config.cmdWidth]
  by_cases e : w = 0 <;> cases p <;> simp [outAfter, closeWrite, e, Act.outAfter]

theorem dirAfter_writeActs (p : Pin) (cur : Dir) (cmd : Byte) (pay : Word) (w : Nat) :
    dirAfter p cur (writeActs cmd pay w) = cur := by
  simp only [writeActs, commandCells, payloadCells, dirAfter_append, dirAfter_writeCells]
  by_cases e : w = 0 <;> simp [dirAfter, closeWrite, e, Act.dirAfter]

/-- What a read leaves of the levels (R67). -/
theorem outAfter_readActs (p : Pin) (cur : Bit) (cmd : Byte) (w : Nat) :
    outAfter p cur (readActs cmd w) =
      match p with
      | .clk => true
      | .dq => cmd.getLsbD 7
      | .rst => false := by
  simp only [readActs, outAfter_append, outAfter_writeActs, outAfter_sampleCells]
  cases p <;> simp [outAfter, Act.outAfter]

theorem dirAfter_readActs (p : Pin) (cur : Dir) (cmd : Byte) (w : Nat) :
    dirAfter p cur (readActs cmd w) = if p = .dq then .output else cur := by
  simp only [readActs, dirAfter_append, dirAfter_writeActs, dirAfter_sampleCells]
  cases p <;> simp [dirAfter, Act.dirAfter]

/-! ## Regions -/

theorem exclAfter_append (x : Bit × List Bit) (as bs : List Act) :
    exclAfter x (as ++ bs) = exclAfter (exclAfter x as) bs := by
  simp [exclAfter]

/-- Acts that neither enter nor leave a region. -/
def quiet (as : List Act) : Bool := as.all fun a => decide (a ≠ .exclEnter) && decide (a ≠ .exclExit)

theorem exclAfter_quiet (x : Bit × List Bit) {as : List Act} (hq : quiet as = true) : exclAfter x as = x := by
  induction as with
  | nil => rfl
  | cons a as ih =>
    simp only [quiet, List.all_cons, Bool.and_eq_true, decide_eq_true_eq] at hq ih
    have : a.exclAfter x = x := by cases a <;> simp_all [Act.exclAfter]
    simpa [exclAfter, this] using ih hq.2

theorem depthAfter_quiet (n : Nat) {as : List Act} (hq : quiet as = true) (bs : List Act) :
    depthAfter n (as ++ bs) = depthAfter n bs := by
  induction as with
  | nil => rfl
  | cons a as ih =>
    simp only [quiet, List.all_cons, Bool.and_eq_true, decide_eq_true_eq] at hq ih
    cases a <;> simp_all [depthAfter]

@[simp] theorem quiet_append (as bs : List Act) : quiet (as ++ bs) = (quiet as && quiet bs) := by
  simp [quiet]

@[simp] theorem quiet_writeCells (f : Nat → Bit) (is : List Nat) :
    quiet (is.flatMap fun i => writeCell (f i)) = true := by
  simp [quiet, writeCell]

@[simp] theorem quiet_commandCells (cmd : Byte) : quiet (commandCells cmd) = true := quiet_writeCells _ _

@[simp] theorem quiet_payloadCells (pay : Word) (w : Nat) : quiet (payloadCells pay w) = true := quiet_writeCells _ _

@[simp] theorem quiet_sampleCells (w : Nat) : quiet (sampleCells w) = true := by
  simp [quiet, sampleCells, readCell]

@[simp] theorem quiet_closeWrite (w : Nat) : quiet (closeWrite w) = true := by
  by_cases e : w = 0 <;> simp [quiet, closeWrite, e]

/-- What a write performs between its entry and its exit. -/
def writeBody (cmd : Byte) (pay : Word) (w : Nat) : List Act :=
  .drive .rst true :: (commandCells cmd ++ payloadCells pay w ++ closeWrite w)

theorem writeActs_eq (cmd : Byte) (pay : Word) (w : Nat) :
    writeActs cmd pay w = .exclEnter :: (writeBody cmd pay w ++ [.exclExit]) := by
  simp [writeActs, writeBody]

@[simp] theorem quiet_writeBody (cmd : Byte) (pay : Word) (w : Nat) : quiet (writeBody cmd pay w) = true := by
  have : quiet (commandCells cmd ++ payloadCells pay w ++ closeWrite w) = true := by simp
  simpa [writeBody, quiet] using this

/-- What a read performs after its inner write and before its exit. -/
def readTail (w : Nat) : List Act :=
  .setDir .dq .input :: (sampleCells w ++ [.drive .rst false, .setDir .dq .output])

theorem readActs_eq (cmd : Byte) (w : Nat) :
    readActs cmd w = .exclEnter :: .drive .rst true :: (writeActs cmd noPayload 0 ++ (readTail w ++ [.exclExit])) := by
  simp [readActs, readTail]

@[simp] theorem quiet_readTail (w : Nat) : quiet (readTail w) = true := by
  have : quiet (sampleCells w ++ [.drive .rst false, .setDir .dq .output]) = true := by
    rw [quiet_append, quiet_sampleCells]; rfl
  simpa [readTail, quiet] using this

@[simp] theorem exclAfter_writeActs (x : Bit × List Bit) (cmd : Byte) (pay : Word) (w : Nat) :
    exclAfter x (writeActs cmd pay w) = x := by
  rw [writeActs_eq, ← List.cons_append, exclAfter_append]
  have := exclAfter_quiet (false, x.1 :: x.2) (quiet_writeBody cmd pay w)
  simp only [exclAfter, List.foldl_cons, Act.exclAfter] at this ⊢
  rw [this]; rfl

@[simp] theorem exclAfter_readActs (x : Bit × List Bit) (cmd : Byte) (w : Nat) :
    exclAfter x (readActs cmd w) = x := by
  have e : readActs cmd w =
      [.exclEnter, .drive .rst true] ++ (writeActs cmd noPayload 0 ++ (readTail w ++ [.exclExit])) := by
    rw [readActs_eq]; rfl
  rw [e, exclAfter_append, exclAfter_append, exclAfter_writeActs, exclAfter_append,
    exclAfter_quiet _ (quiet_readTail w)]
  rfl

@[simp] theorem depthAfter_writeActs (n : Nat) (cmd : Byte) (pay : Word) (w : Nat) (bs : List Act) :
    depthAfter n (writeActs cmd pay w ++ bs) = depthAfter n bs := by
  rw [writeActs_eq]
  simp [depthAfter, depthAfter_quiet]

@[simp] theorem depthAfter_readActs (n : Nat) (cmd : Byte) (w : Nat) (bs : List Act) :
    depthAfter n (readActs cmd w ++ bs) = depthAfter n bs := by
  rw [readActs_eq]
  simp [depthAfter, depthAfter_quiet]

/-! ## The accumulator -/

theorem performAct_acc (h : HandleId) (a : Act) (r : Run) (ha : a.takes = 0) : (performAct h a r).acc = r.acc := by
  cases a with
  | sample i => simp [Act.takes] at ha
  | drive p b => rfl
  | setDir p d => rfl
  | delayUnit => rfl
  | delaySettle => rfl
  | exclEnter => rfl
  | exclExit => rfl

theorem runActs_acc (h : HandleId) (as : List Act) (r : Run) (ha : samplesIn as = 0) :
    (runActs h as r).acc = r.acc := by
  induction as generalizing r with
  | nil => rfl
  | cons a as ih =>
    simp only [samplesIn] at ha
    rw [runActs_cons, ih _ (by omega), performAct_acc h a r (by omega)]

/-- The accumulator after `w` sampled cells: bit `i` below `w` gains draw `i`. -/
theorem runActs_sampleCells (h : HandleId) (w : Nat) (hw : w ≤ 16) (r : Run) (j : Nat) :
    (runActs h (sampleCells w) r).acc.getLsbD j = (r.acc.getLsbD j || (decide (j < w) && r.st.drawAt j)) := by
  induction w with
  | zero => simp [sampleCells]
  | succ w ih =>
    have ih := ih (by omega)
    have hd := runActs_drawAt h (sampleCells w) r 0
    rw [samplesIn_sampleCells] at hd
    have es : sampleCells (w + 1) = sampleCells w ++ readCell w := by
      simp [sampleCells, List.range_succ]
    rw [es, runActs_append]
    have hs : ∀ q : Run, (runActs h (readCell w) q).acc = accumulate q.acc w (q.st.drawAt 0) := fun q => rfl
    rw [hs, accumulate_bit _ _ _ _ (by omega), ih, hd]
    by_cases e : j = w
    · subst e; simp
    · have : decide (j < w + 1) = decide (j < w) := decide_eq_decide.mpr (by omega)
      rw [this]; simp [e]

/-- What a read returns: bit `i` below `w` is draw `i`, the rest zero (R55, R67). -/
theorem runActs_readActs_acc (h : HandleId) (cmd : Byte) (w : Nat) (hw : w ≤ 16) (s : State) (j : Nat) :
    (runActs h (readActs cmd w) ⟨0#16, s⟩).acc.getLsbD j = (decide (j < w) && s.drawAt j) := by
  have e : readActs cmd w =
      ([.exclEnter, .drive .rst true] ++ writeActs cmd noPayload 0 ++ [.setDir .dq .input]) ++
        (sampleCells w ++ [.drive .rst false, .setDir .dq .output, .exclExit]) := by
    simp [readActs]
  rw [e, runActs_append, runActs_append]
  generalize hq : runActs h ([.exclEnter, .drive .rst true] ++ writeActs cmd noPayload 0 ++ [.setDir .dq .input])
    ⟨0#16, s⟩ = q
  have hs : samplesIn ([Act.exclEnter, .drive .rst true] ++ writeActs cmd noPayload 0 ++ [.setDir .dq .input]) = 0 := by
    simp only [samplesIn_append, samplesIn_writeActs]; rfl
  have hacc : q.acc = 0#16 := by rw [← hq, runActs_acc _ _ _ hs]
  have hd : q.st.drawAt j = s.drawAt j := by rw [← hq, runActs_drawAt, hs]; simp
  have ht : ∀ q : Run, (runActs h [.drive .rst false, .setDir .dq .output, .exclExit] q).acc = q.acc := fun q => rfl
  rw [ht, runActs_sampleCells h w hw, hacc, hd]
  simp

end Sys2Proof.Machine
end

