-- ==== Sys2Proof/Laws/Calls.lean ====
section
/-! SUPPORT. What an instruction can be: `exec` is its call run whole, and every call has one of five shapes. A proof over
all instructions splits these, not the thirty constructors. -/

namespace Sys2Proof.Machine

open Sys2Proof.Safety

/-- `exec` is the call run as one operation. -/
theorem exec_eq_run (i : Instr) (s : State) : exec i s = (callOf i s).run := by cases i <;> rfl

/-- A primitive's events and result: a write frame that returns nothing, or a read frame that returns its bits. -/
inductive PrimitiveActs (w : Nat) : List Act → Result → Prop
  | write (cmd : Byte) (pay : Word) : PrimitiveActs w (writeActs cmd pay w) .nothing
  | read (cmd : Byte) : PrimitiveActs w (readActs cmd w) .raw

/-- A register-API operation's events, its result on an invalid handle and what follows its events. -/
inductive ApiActs (s : State) : List Act → Result → Finish → Prop
  | read (c : Command) (k : Result) (hc : c.width ≤ 16) : ApiActs s (readActs (s.code c) c.width) k (.returns k)
  | write (c : Command) (pay : Word) (hc : c.width ≤ 16) :
      ApiActs s (writeActs (s.code c) pay c.width ++ []) .nothing (.returns .nothing)
  | settle (c : Command) (pay : Word) (hc : c.width ≤ 16) :
      ApiActs s (writeActs (s.code c) pay c.width ++ [.delaySettle]) .nothing (.returns .nothing)
  | start : ApiActs s (writeActs (s.code .startConv) noPayload 0 ++ readActs (s.code .readConfig) 8) .nothing .testOneShot

/-- The five shapes of a call. -/
inductive CallShape (i : Instr) (s : State) : Prop
  | primitive (h : HandleId) (w : Nat) (acts : List Act) (k : Result) (hi : handleOf i = some h)
      (hapi : isApi i = false) (hw : i.wellFormed = true ↔ w ≤ 16) (hp : PrimitiveActs w acts k)
      (hc : callOf i s = primitiveCall h w acts k s)
  | api (h : HandleId) (acts : List Act) (k : Result) (f : Finish) (hi : handleOf i = some h) (hapi : isApi i = true)
      (hw : i.wellFormed = true) (ha : ApiActs s acts k f) (hc : callOf i s = apiCall h acts k f s)
  | init (h : HandleId) (clk dq rst : LineId) (a b c : PortRef) (hi : i = .init h clk dq rst a b c)
  | release (h : HandleId) (hi : i = .release h)
  | codec (v : Option Word) (hi : handleOf i = none) (hw : i.wellFormed = true → v.isSome = true)
      (hc : callOf i s = codecCall v s)

theorem toF_domain (c : Word) (h : inFahrenheitDomain c = true) : (fahrenheitOf c).isSome = true := by
  simp only [inFahrenheitDomain, Bool.and_eq_true, decide_eq_true_eq] at h
  have k : (fitsWord (9 * c.toInt + 160) && fitsWord (9 * c.toInt)) = true := by
    simp only [fitsWord, Bool.and_eq_true, decide_eq_true_eq]; omega
  rw [fahrenheitOf, if_pos k]; rfl

/-- Every instruction's call has one of the five shapes. -/
theorem callShape (i : Instr) (s : State) : CallShape i s := by
  have t9 : (true = true ↔ 9 ≤ 16) := by decide
  have t8 : (true = true ↔ 8 ≤ 16) := by decide
  have t0 : (true = true ↔ 0 ≤ 16) := by decide
  have tw : ∀ w, (widthAdmitted w = true ↔ w ≤ 16) := fun w => decide_eq_true_iff
  cases i with
  | cmdStartConv h => exact .primitive h 0 _ _ rfl rfl t0 (.write _ _) rfl
  | cmdStopConv h => exact .primitive h 0 _ _ rfl rfl t0 (.write _ _) rfl
  | cmdReadTemp h => exact .primitive h 9 _ _ rfl rfl t9 (.read _) rfl
  | cmdReadHTemp h => exact .primitive h 9 _ _ rfl rfl t9 (.read _) rfl
  | cmdReadLTemp h => exact .primitive h 9 _ _ rfl rfl t9 (.read _) rfl
  | cmdWriteHTemp h p => exact .primitive h 9 _ _ rfl rfl t9 (.write _ _) rfl
  | cmdWriteLTemp h p => exact .primitive h 9 _ _ rfl rfl t9 (.write _ _) rfl
  | cmdReadCounter h => exact .primitive h 8 _ _ rfl rfl t8 (.read _) rfl
  | cmdReadSlope h => exact .primitive h 8 _ _ rfl rfl t8 (.read _) rfl
  | cmdReadConfig h => exact .primitive h 8 _ _ rfl rfl t8 (.read _) rfl
  | cmdWriteConfig h p => exact .primitive h 8 _ _ rfl rfl t8 (.write _ _) rfl
  | init h clk dq rst a b c => exact .init h clk dq rst a b c rfl
  | release h => exact .release h rfl
  | writeTransaction h cmd p w => exact .primitive h w _ _ rfl rfl (tw w) (.write _ _) rfl
  | readTransaction h cmd w => exact .primitive h w _ _ rfl rfl (tw w) (.read _) rfl
  | startConversion h => exact .api h _ _ _ rfl rfl rfl .start rfl
  | readTempC h => exact .api h _ _ _ rfl rfl rfl (.read .readTemp .celsius (by decide)) rfl
  | readTempF h => exact .api h _ _ _ rfl rfl rfl (.read .readTemp .fahrenheit (by decide)) rfl
  | readTempRaw h => exact .api h _ _ _ rfl rfl rfl (.read .readTemp .raw (by decide)) rfl
  | readHighC h => exact .api h _ _ _ rfl rfl rfl (.read .readHTemp .celsius (by decide)) rfl
  | readLowC h => exact .api h _ _ _ rfl rfl rfl (.read .readLTemp .celsius (by decide)) rfl
  | readCounter h => exact .api h _ _ _ rfl rfl rfl (.read .readCounter .raw (by decide)) rfl
  | readSlope h => exact .api h _ _ _ rfl rfl rfl (.read .readSlope .raw (by decide)) rfl
  | readConfig h => exact .api h _ _ _ rfl rfl rfl (.read .readConfig .raw (by decide)) rfl
  | writeConfig h c => exact .api h _ _ _ rfl rfl rfl (.settle .writeConfig _ (by decide)) rfl
  | writeHighC h t => exact .api h _ _ _ rfl rfl rfl (.write .writeHTemp _ (by decide)) rfl
  | writeLowC h t => exact .api h _ _ _ rfl rfl rfl (.write .writeLTemp _ (by decide)) rfl
  | decodeC r => exact .codec (some (celsiusOf r)) rfl (fun _ => rfl) rfl
  | toF c => exact .codec _ rfl (toF_domain c) rfl
  | encodeT t => exact .codec (some (thresholdPayload t)) rfl (fun _ => rfl) rfl

end Sys2Proof.Machine
end

