-- ==== Sys2Proof/Laws/Codec.lean ====
section
/-! SUPPORT. The laws of the codec, of the results and of the flag tests: what the values an operation returns are. -/

namespace Sys2Proof.Machine

open Sys2Proof.Safety

/-- `decodeC` gives the Celsius value (R87). -/
theorem isCelsius_celsiusOf (r : Word) : IsCelsius r (celsiusOf r) := by
  have h1 : (signExtend9 r).toInt = (r.setWidth 9).toInt := by
    rw [signExtend9, BitVec.toInt_signExtend_of_le (by omega)]
  have h2 : (celsiusOf r).toInt = (r.setWidth 9).toInt / 2 := by
    rw [celsiusOf, halve, BitVec.toInt_sshiftRight, h1]; simp [Int.shiftRight_eq_div_pow]
  have b1 := BitVec.le_toInt (r.setWidth 9)
  have b2 := BitVec.toInt_lt (x := r.setWidth 9)
  refine ⟨h2, ?_, ?_⟩ <;> omega

/-- An integer of the word's range is what its word reads as. -/
theorem wrap16_toInt {n : Int} (h1 : -32768 ≤ n) (h2 : n ≤ 32767) : (wrap16 n).toInt = n := by
  rw [wrap16, BitVec.toInt_ofInt]
  rw [Int.bmod_eq_of_le] <;> omega

/-- A division by 5 stays in the word's range. -/
theorem tdiv5_bounds {n : Int} (h1 : -32768 ≤ n) (h2 : n ≤ 32767) : -32768 ≤ n.tdiv 5 ∧ n.tdiv 5 ≤ 32767 := by
  rcases le_total 0 n with h | h
  · rw [Int.tdiv_eq_ediv_of_nonneg h]; omega
  · have : n.tdiv 5 = -((-n).tdiv 5) := by rw [Int.neg_tdiv]; omega
    rw [this, Int.tdiv_eq_ediv_of_nonneg (by omega)]; omega

/-- `toF` of a Celsius value of the chip is never refused (R76, R88). -/
theorem fahrenheitOf_celsiusOf (r : Word) : ∃ f, fahrenheitOf (celsiusOf r) = some f ∧ IsFahrenheit r f := by
  obtain ⟨h1, h2, h3⟩ := isCelsius_celsiusOf r
  have hf : fahrenheitOf (celsiusOf r) = some (wrap16 ((9 * (celsiusOf r).toInt + 160).tdiv 5)) := by
    have c : (fitsWord (9 * (celsiusOf r).toInt + 160) && fitsWord (9 * (celsiusOf r).toInt)) = true := by
      simp only [fitsWord, Bool.and_eq_true, decide_eq_true_eq]; omega
    rw [fahrenheitOf, if_pos c]
  have T : (wrap16 ((9 * (celsiusOf r).toInt + 160).tdiv 5)).toInt = (9 * (celsiusOf r).toInt + 160).tdiv 5 :=
    wrap16_toInt (tdiv5_bounds (by omega) (by omega)).1 (tdiv5_bounds (by omega) (by omega)).2
  refine ⟨_, hf, ⟨_, isCelsius_celsiusOf r, T⟩, ?_⟩
  rw [T]
  rcases le_total 0 (9 * (celsiusOf r).toInt + 160) with h | h
  · rw [Int.tdiv_eq_ediv_of_nonneg h]; omega
  · have : (9 * (celsiusOf r).toInt + 160).tdiv 5 = -((-(9 * (celsiusOf r).toInt + 160)).tdiv 5) := by
      rw [Int.neg_tdiv]; omega
    rw [this, Int.tdiv_eq_ediv_of_nonneg (by omega)]; omega

/-- A word that holds `w` draws is an unsigned `w`-bit value (R55). -/
theorem isRaw_of_holdsDraws {s w r} (hw : w < 16) (hd : HoldsDraws s w r) : IsRaw w r r := by
  have hlt : r.toNat < 2 ^ w := by
    apply Nat.lt_pow_two_of_testBit
    intro i hi
    by_cases h16 : i < 16
    · have := hd i h16
      rw [BitVec.getLsbD] at this
      rw [this]; simp; omega
    · exact BitVec.getLsbD_of_ge r i (by omega)
  have : 2 ^ w ≤ 2 ^ 15 := Nat.pow_le_pow_right (by omega) (by omega)
  refine ⟨rfl, ?_, hlt⟩
  rw [BitVec.toInt_eq_toNat_of_lt]
  omega

/-- `encodeT` doubles modulo 2^16 (R89). -/
theorem thresholdPayload_eq (t : Word) : thresholdPayload t = BitVec.ofNat 16 (2 * t.toNat) := by
  apply BitVec.eq_of_toNat_eq
  simp [thresholdPayload, Nat.shiftLeft_eq, Nat.mul_comm]

/-- No result of an operation on the chip is refused. -/
theorem result_value_isSome (acc : Word) (k : Result) : ∃ v, Result.value acc k = some v := by
  cases k with
  | nothing => exact ⟨_, rfl⟩
  | raw => exact ⟨_, rfl⟩
  | celsius => exact ⟨_, rfl⟩
  | fahrenheit => obtain ⟨f, h, -⟩ := fahrenheitOf_celsiusOf acc; exact ⟨some f, by simp [Result.value, h]⟩

/-- The 1SHOT test reads bit 0 (R31). -/
theorem oneShot_configByte {acc : Word} {b} (h : acc.getLsbD 0 = b) : Flag.test (configByte acc) .oneShot = b := by
  rw [← h]; simp [Flag.test, configByte, Flag.position]

/-- The DONE test reads bit 7 (R31). -/
theorem done_configByte {acc : Word} {b} (h : acc.getLsbD 7 = b) : Flag.test (configByte acc) .done = b := by
  rw [← h]; simp [Flag.test, configByte, Flag.position]

end Sys2Proof.Machine
end

