-- ==== Sys2Proof/Laws/Depth.lean ====
section
/-! SUPPORT. The depth of the save stack: what `depthAfter` says of a list of events is what running them does, and how
many regions the events to come have open. -/

namespace Sys2Proof.Machine

open Sys2Proof.Safety

/-- More on the save stack stays there. -/
theorem depthAfter_add : ∀ (as : List Act) (n m k : Nat), depthAfter n as = some m → depthAfter (n + k) as = some (m + k) := by
  intro as
  induction as with
  | nil => intro n m k h; simp [depthAfter] at h ⊢; omega
  | cons a as ih =>
    intro n m k h
    cases a with
    | exclEnter => simp only [depthAfter] at h ⊢; have := ih _ _ k h; rwa [Nat.add_right_comm] at this
    | exclExit =>
      cases n with
      | zero => simp [depthAfter] at h
      | succ n => simp only [depthAfter] at h; rw [Nat.add_right_comm]; exact ih _ _ k h
    | _ => simp only [depthAfter] at h ⊢; exact ih _ _ k h

/-- The depth goes event by event. -/
theorem depthAfter_cons (n : Nat) (a : Act) (as : List Act) : depthAfter n (a :: as) = (depthAfter n [a]).bind (depthAfter · as) := by
  cases a <;> cases n <;> rfl

/-- One event leaves the save stack at the depth its list says. -/
theorem performAct_depth (h : HandleId) (a : Act) (r : Run) {m} (hd : depthAfter r.st.excl.length [a] = some m) :
    (performAct h a r).st.excl.length = m := by
  cases a with
  | exclExit =>
    cases e : r.st.excl with
    | nil => simp [e, depthAfter] at hd
    | cons x xs => simp [e, depthAfter] at hd; simp [performAct, e, hd]
  | exclEnter => simp [depthAfter] at hd; simp [performAct, hd]
  | drive p b => simpa [depthAfter, performAct] using hd
  | setDir p b => simpa [depthAfter, performAct] using hd
  | sample i => simpa [depthAfter, performAct] using hd
  | delayUnit => simpa [depthAfter, performAct] using hd
  | delaySettle => simpa [depthAfter, performAct] using hd

/-- Events leave the save stack at the depth their list says. -/
theorem runActs_depth (h : HandleId) (as : List Act) : ∀ (r : Run) {m}, depthAfter r.st.excl.length as = some m →
    (runActs h as r).st.excl.length = m := by
  induction as with
  | nil => intro r m hd; simpa [depthAfter] using hd
  | cons a as ih =>
    intro r m hd
    rw [depthAfter_cons] at hd
    cases e : depthAfter r.st.excl.length [a] with
    | none => simp [e] at hd
    | some k =>
      rw [e] at hd
      rw [runActs_cons]
      exact ih _ (by rw [performAct_depth h a r e]; exact hd)

/-- Events that leave every depth as it was. -/
theorem depthAfter_self (as : List Act) (hb : ∀ n bs, depthAfter n (as ++ bs) = depthAfter n bs) (n) : depthAfter n as = some n := by
  have := hb n []; simpa [depthAfter] using this

/-- Entries and exits account for the depth. -/
theorem depthAfter_counts : ∀ (as : List Act) (n m : Nat), depthAfter n as = some m →
    n + as.countP (fun a => decide (a = .exclEnter)) = m + as.countP (fun a => decide (a = .exclExit)) := by
  intro as
  induction as with
  | nil => intro n m h; simp [depthAfter] at h; simp [h]
  | cons a as ih =>
    intro n m h
    cases a with
    | exclEnter => simp only [depthAfter] at h; have := ih _ _ h; simp; omega
    | exclExit =>
      cases n with
      | zero => simp [depthAfter] at h
      | succ n => simp only [depthAfter] at h; have := ih _ _ h; simp; omega
    | drive _ _ => simp only [depthAfter] at h; have := ih _ _ h; simp; omega
    | setDir _ _ => simp only [depthAfter] at h; have := ih _ _ h; simp; omega
    | sample _ => simp only [depthAfter] at h; have := ih _ _ h; simp; omega
    | delayUnit => simp only [depthAfter] at h; have := ih _ _ h; simp; omega
    | delaySettle => simp only [depthAfter] at h; have := ih _ _ h; simp; omega

/-- Events that empty a stack of depth `n` have `n` regions open. -/
theorem openRegions_eq {as : List Act} {n} (h : depthAfter n as = some 0) : openRegions as = n := by
  have := depthAfter_counts as n 0 h
  simp only [openRegions]; omega

end Sys2Proof.Machine
end

