-- ==== Sys2Proof/Laws/Lines.lean ====
section
/-! SUPPORT. Who holds which lines: what decides it, what each update does to it, and what init's aliasing test says. -/

namespace Sys2Proof.Machine

open Sys2Proof.Safety

/-- The line is one of three. -/
theorem Handle.owns_iff {g : Handle} {l : LineId} : g.owns l = true ↔ g.clk = l ∨ g.dq = l ∨ g.rst = l := by
  simp [Handle.owns, or_assoc]

/-- A pin's line is the handle's. -/
theorem Handle.owns_line (g : Handle) (p : Pin) : g.owns (g.line p) = true := by
  cases p <;> simp [Handle.owns, Handle.line]

/-- Owning none of a handle's lines, one line at a time. -/
theorem Handle.owns_other {g x : Handle} (hc : g.owns x.clk = false) (hd : g.owns x.dq = false) (hr : g.owns x.rst = false)
    (l : LineId) (hl : x.owns l = true) : g.owns l = false := by
  rcases Handle.owns_iff.1 hl with rfl | rfl | rfl <;> assumption

/-- Only the records and the operations in progress decide who holds lines. -/
theorem State.holds_congr {s t : State} (hh : t.handles = s.handles) (ht : t.tasks = s.tasks) (h : HandleId) :
    t.holds h = s.holds h := by
  simp only [State.holds, State.initialising, State.handle_congr hh, State.task_congr ht]

/-- A valid handle holds its lines. -/
theorem State.holds_of_bound {s : State} {h : HandleId} (hb : (s.handle h).bound = true) : s.holds h = true := by
  simp [State.holds, hb]

/-- A handle with no operation in progress holds its lines just when it is valid. -/
theorem State.holds_of_idle {s : State} {h : HandleId} (hf : s.task h = none) : s.holds h = (s.handle h).bound := by
  simp [State.holds, State.initialising, hf]

/-- A handle with an operation in progress holds its lines when it is valid, or the operation is init. -/
theorem State.holds_of_task {s : State} {h : HandleId} {t : Task} (ht : s.task h = some t) :
    s.holds h = ((s.handle h).bound || decide (t.fin = .bind)) := by
  simp [State.holds, State.initialising, ht]

@[simp] theorem State.holds_popTurn (s : State) (h : HandleId) : s.popTurn.holds h = s.holds h := rfl
@[simp] theorem State.holds_popRequest (s : State) (h : HandleId) : s.popRequest.holds h = s.holds h := rfl
@[simp] theorem State.holds_logReturn (s : State) (k : Option HandleId) (e : Ending) (h : HandleId) :
    (s.logReturn k e).holds h = s.holds h := rfl

@[simp] theorem State.holds_runActs (h : HandleId) (as : List Act) (r : Run) (g : HandleId) :
    (runActs h as r).st.holds g = r.st.holds g :=
  State.holds_congr (runActs_handles h as r) (runActs_tasks h as r) g

@[simp] theorem State.holds_setHandle_other {s : State} {h g : HandleId} (x : Handle) (hg : g ≠ h) :
    (s.setHandle h x).holds g = s.holds g := by
  simp only [State.holds, State.handle_setHandle_other _ hg]; rfl

@[simp] theorem State.holds_setTask_other {s : State} {h g : HandleId} (k : Task) (hg : g ≠ h) :
    (s.setTask h k).holds g = s.holds g := by
  simp only [State.holds, State.initialising, State.task_setTask_other _ hg]; rfl

@[simp] theorem State.holds_clearTask_other {s : State} {h g : HandleId} (hg : g ≠ h) :
    (s.clearTask h).holds g = s.holds g := by
  simp only [State.holds, State.initialising, State.task_clearTask_other _ hg]; rfl

/-- No other handle holds one of the lines (R106, R21). -/
theorem State.lineTaken_eq_false {s : State} {h : HandleId} {clk dq rst : LineId} :
    s.lineTaken h clk dq rst = false ↔ ∀ g, g ≠ h → s.holds g = true →
      (s.handle g).owns clk = false ∧ (s.handle g).owns dq = false ∧ (s.handle g).owns rst = false := by
  simp only [State.lineTaken, List.any_eq_false, List.mem_append, List.mem_map]
  constructor
  · intro H g hg hb
    have m : (∃ a, a ∈ s.handles ∧ a.1 = g) ∨ ∃ a, a ∈ s.tasks ∧ a.1 = g := by
      rcases e : Assoc.get g s.handles with _ | x
      · rcases f : Assoc.get g s.tasks with _ | k
        · have : s.task g = none := f
          rw [State.holds_of_idle this, State.handle, e] at hb
          simp [freshHandle] at hb
        · exact .inr ⟨_, Assoc.mem_of_get f, rfl⟩
      · exact .inl ⟨_, Assoc.mem_of_get e, rfl⟩
    simpa [hg, hb, and_assoc] using H g m
  · intro H g _
    by_cases hg : g = h
    · simp [hg]
    · by_cases hb : s.holds g = true
      · simp [H g hg hb]
      · simp [hb]

/-- What init's aliasing test answers no to (R106, R21). -/
theorem State.aliased_eq_false {s : State} {h : HandleId} {clk dq rst : LineId} :
    s.aliased h clk dq rst = false ↔ linesDistinct clk dq rst = true ∧ ∀ g, g ≠ h → s.holds g = true →
      (s.handle g).owns clk = false ∧ (s.handle g).owns dq = false ∧ (s.handle g).owns rst = false := by
  simp only [State.aliased, Bool.or_eq_false_iff, Bool.not_eq_false', State.lineTaken_eq_false]

/-- Lines stay apart where every holder is a holder of the same record as before. -/
theorem linesApart_congr {s t : State} (hs : LinesApart s) (hk : ∀ g, t.holds g = true → s.holds g = true)
    (hh : ∀ g, t.handle g = s.handle g) : LinesApart t := by
  refine ⟨fun g hg => ?_, fun g k l hne hg hl => ?_⟩
  · rw [hh]; exact hs.1 g (hk g hg)
  · rw [hh, hh]; exact hs.2 g k l hne (hk g hg) (hk k hl)

/-- Lines stay apart where one handle gets a new record, or comes to hold its own, apart from all others'. -/
theorem linesApart_update {s t : State} (hs : LinesApart s) {h : HandleId}
    (hk : ∀ g, g ≠ h → t.holds g = true → s.holds g = true) (hh : ∀ g, g ≠ h → t.handle g = s.handle g)
    (hx : t.holds h = true → (t.handle h).distinct = true ∧ ∀ g, g ≠ h → s.holds g = true →
      (s.handle g).owns (t.handle h).clk = false ∧ (s.handle g).owns (t.handle h).dq = false ∧
      (s.handle g).owns (t.handle h).rst = false) : LinesApart t := by
  have other : ∀ g l, g ≠ h → t.holds h = true → t.holds g = true → (t.handle h).owns l = true → (t.handle g).owns l = false := by
    intro g l hg hth htg ho
    obtain ⟨a, b, c⟩ := (hx hth).2 g hg (hk g hg htg)
    rw [hh g hg]; exact Handle.owns_other a b c l ho
  refine ⟨fun g hg => ?_, fun g k l hne hg hl ho => ?_⟩
  · by_cases e : g = h
    · subst e; exact (hx hg).1
    · rw [hh g e]; exact hs.1 g (hk g e hg)
  · by_cases e : g = h
    · subst e; exact other k l (Ne.symm hne) hg hl ho
    · by_cases f : k = h
      · subst f
        by_contra hc
        have := other g l e hl hg (by simpa using hc)
        rw [this] at ho; cases ho
      · rw [hh g e] at ho; rw [hh k f]
        exact hs.2 g k l hne (hk g e hg) (hk k f hl) ho

end Sys2Proof.Machine
end

