-- ==== Sys2Proof/Laws/Cases.lean ====
section
/-! SUPPORT. What an operation can do, said once: how it ends, what its call starts, and what `exec` answers. -/

namespace Sys2Proof.Machine

open Sys2Proof.Safety

/-- Events that leave the interrupt state as it was leave all that no transaction writes. -/
theorem keeps_runActs (h : HandleId) (as : List Act) (acc : Word) (s : State) (ev : Option HandleId) (e : Ending)
    (hx : ∀ x, exclAfter x as = x) : Keeps s ((runActs h as ⟨acc, s⟩).st.logReturn ev e) := by
  have := runActs_excl h as ⟨acc, s⟩
  rw [hx] at this
  simp only [Prod.mk.injEq] at this
  constructor <;> simp [this]

/-- What whole events on one handle do. -/
theorem ran_runActs (h : HandleId) (as : List Act) (acc : Word) (s : State) (e : Ending)
    (hx : ∀ x, exclAfter x as = x) :
    Ran h (eventsFrom (s.handle h) s.params s.drawAt 0 as) (samplesIn as) e s
      ((runActs h as ⟨acc, s⟩).st.logReturn (some h) e) where
  keeps := keeps_runActs h as acc s _ e hx
  lines := fun l hl => runActs_latch_other h as ⟨acc, s⟩ hl
  trace := by simp [Traced, runActs_trace]
  returned := by simp [Returned]
  drew := by simpa [Drew] using runActs_drew h as ⟨acc, s⟩

/-- The poll depends on the parameters only. -/
theorem pollTask_congr {s t : State} (e : t.params = s.params) : pollTask t = pollTask s := by
  simp [pollTask, State.code, e]

/-- A handle record holds no latch. -/
theorem State.latch_setHandle (s : State) (h t l) : (s.setHandle h t).latch l = s.latch l := rfl

/-- An operation in progress holds no latch. -/
theorem State.latch_setTask (s : State) (h t l) : (s.setTask h t).latch l = s.latch l := rfl

/-- A return changes no latch. -/
theorem State.latch_logReturn (s : State) (h t l) : (s.logReturn h t).latch l = s.latch l := rfl

/-- An operation's end changes no latch. -/
theorem State.latch_clearTask (s : State) (h l) : (s.clearTask h).latch l = s.latch l := rfl

/-- What startConversion's config read leaves in the accumulator (R74). -/
theorem runActs_startActs_acc (h : HandleId) (c1 c2 : Byte) (p : Word) (s : State) (j : Nat) :
    (runActs h (writeActs c1 p 0 ++ readActs c2 8) ⟨0#16, s⟩).acc.getLsbD j = (decide (j < 8) && s.drawAt j) := by
  rw [runActs_append]
  have ha := runActs_acc h (writeActs c1 p 0) ⟨0#16, s⟩ (by simp)
  have hd := runActs_drawAt h (writeActs c1 p 0) ⟨0#16, s⟩ j
  simp at hd
  generalize runActs h (writeActs c1 p 0) ⟨0#16, s⟩ = r at ha hd
  obtain ⟨a, u⟩ := r
  simp only at ha hd
  subst ha
  rw [runActs_readActs_acc h c2 8 (by decide), hd]

/-- startConversion's frames leave the interrupt state as it was. -/
theorem exclAfter_startActs (x c1 c2) : exclAfter x (writeActs c1 0 0 ++ readActs c2 8) = x := by
  rw [exclAfter_append]; simp

/-- The four ways an operation ends or goes on. -/
theorem finish_cases (h f r) :
    finish h f r = .refused .fahrenheitOverflow ∨
    (∃ e, finish h f r = .next (r.st.logReturn (some h) e)) ∨
    ((f = .testOneShot ∨ f = .untilDone) ∧ finish h f r = .next (r.st.setTask h (pollTask r.st))) ∨
    (f = .bind ∧
      finish h f r = .next ((r.st.setHandle h { r.st.handle h with bound := true }).logReturn (some h) (.done none))) := by
  cases f with
  | returns k => obtain ⟨v, hv⟩ := result_value_isSome r.acc k; right; left; exact ⟨.done v, by simp [finish, hv]⟩
  | guarded k => right; left; exact ⟨_, rfl⟩
  | testOneShot => simp only [finish]; split_ifs <;> simp
  | untilDone => simp only [finish]; split_ifs <;> simp
  | bind => simp [finish]

/-- What init does when it is not refused (R106). -/
theorem exec_init (h clk dq rst pOut pDir pIn) (s : State) (hbusy : s.busy h = false) (hal : s.aliased h clk dq rst = false) :
    exec (.init h clk dq rst pOut pDir pIn) s = .next
      (((runActs h initActs ⟨0#16, s.setHandle h ⟨(s.handle h).bound, clk, dq, rst, pOut, pDir, pIn⟩⟩).st.setHandle h
        ⟨true, clk, dq, rst, pOut, pDir, pIn⟩).logReturn (some h) (.done none)) := by
  have e : exec (.init h clk dq rst pOut pDir pIn) s =
      runTask h ⟨initActs, 0#16, .bind⟩ (s.setHandle h ⟨(s.handle h).bound, clk, dq, rst, pOut, pDir, pIn⟩) := by
    simp [exec, execInit, callInit, hal, hbusy, Call.run]
  rw [e]
  simp [runTask, finish]

/-- What holds of every operation a call starts. -/
structure StartedOk (h : HandleId) (k : Task) (u s : State) : Prop where
  ne : k.acts ≠ []
  bal : ∀ n, depthAfter n k.acts = some n
  free : s.task h = none
  rest : u = s ∨ ∃ g, u = s.setHandle h g

/-- Every call that starts an operation starts it so. -/
theorem callOf_started {i s h k u} (hc : callOf i s = .started h k u) : StartedOk h k u s := by
  have nb : ∀ {g}, ¬ s.busy g = true → s.task g = none := by
    intro g hg; simpa [State.busy] using hg
  rcases callShape i s with ⟨h', w, acts, k', hk, -, hww, hp, hc'⟩ | ⟨h', acts, k', f, hk, hapi, -, ha, hc'⟩ | ⟨h', clk, dq, rst, a, b, c, rfl⟩ | ⟨h', rfl⟩ | ⟨v, hk, hv, hc'⟩
  · rw [hc', primitiveCall] at hc
    split_ifs at hc with h1 h2 h3
    all_goals cases hc
    · refine ⟨?_, ?_, nb h2, .inl rfl⟩
      · cases hp
        · simp [writeActs]
        · simp [readActs]
      · cases hp
        · exact depthAfter_self _ (fun n bs => depthAfter_writeActs ..)
        · exact depthAfter_self _ (fun n bs => depthAfter_readActs ..)
    · exact ⟨by simp [guardActs], fun n => rfl, nb h2, .inl rfl⟩
  · rw [hc', apiCall] at hc
    split_ifs at hc with h1 h2
    cases hc
    refine ⟨?_, ?_, nb h2, .inl rfl⟩
    · cases ha <;> simp [writeActs, readActs]
    · intro n
      cases ha
      · exact depthAfter_self _ (fun n bs => depthAfter_readActs ..) n
      · simp only [depthAfter_writeActs]; rfl
      · simp only [depthAfter_writeActs]; rfl
      · simp only [depthAfter_writeActs]; exact depthAfter_self _ (fun n bs => depthAfter_readActs ..) n
  · simp only [callOf, callInit] at hc
    split_ifs at hc with h1 h2
    cases hc
    exact ⟨by simp [initActs], fun n => rfl, nb h2, .inr ⟨_, rfl⟩⟩
  · simp only [callOf, callRelease] at hc
    split_ifs at hc
  · rw [hc'] at hc
    cases v <;> cases hc

/-- What `exec` can answer. -/
inductive ExecCases (i : Instr) (s : State) : Prop
  | refused (r) (hr : r = .widthTooLarge ∨ r = .fahrenheitOverflow ∨ r = .sharedHandle ∨ r = .aliasedLines) (e : exec i s = .refused r)
  | codec (hi : handleOf i = none) (v) (e : exec i s = .next (s.logReturn none v))
  | noop (h) (hi : handleOf i = some h) (v) (e : exec i s = .next (s.logReturn (some h) v))
  | ran (h acts v) (hi : handleOf i = some h) (hx : ∀ x, exclAfter x acts = x) (hb : (s.handle h).bound = false → acts = guardActs)
      (hend : acts = guardActs ∨ (s.handle h).bound = true ∧ (∀ c, outAfter .clk c acts = true) ∧ ∀ p, dirAfter p .output acts = .output) (hf : s.busy h = false)
      (e : exec i s = .next ((runActs h acts ⟨0#16, s⟩).st.logReturn (some h) v))
  | poll (h) (hi : handleOf i = some h) (hb : (s.handle h).bound = true) (hf : s.busy h = false)
      (e : exec i s = .next ((runActs h (writeActs (s.code .startConv) 0 0 ++ readActs (s.code .readConfig) 8) ⟨0#16, s⟩).st.setTask h (pollTask s)))
  | init (h clk dq rst a b c) (hi : i = .init h clk dq rst a b c) (hf : s.busy h = false) (ha : s.aliased h clk dq rst = false)
  | release (h) (hi : i = .release h) (hf : s.busy h = false) (hb : (s.handle h).bound = true)
      (e : exec i s = .next ((s.setHandle h { s.handle h with bound := false }).logReturn (some h) (.done none)))

/-- `exec` answers one of these. -/
theorem execCases (i s) : ExecCases i s := by
  rcases callShape i s with ⟨h, w, acts, k, hk, -, hww, hp, hc⟩ | ⟨h, acts, k, f, hk, hapi, -, ha, hc⟩ | ⟨h, clk, dq, rst, a, b, c, rfl⟩ | ⟨h, rfl⟩ | ⟨v, hk, -, hc⟩
  · have e := exec_eq_run i s
    rw [hc, primitiveCall] at e
    split_ifs at e with h1 h2 h3
    · exact .refused _ (.inl rfl) e
    · exact .refused _ (.inr (.inr (.inl rfl))) e
    · cases hp with
      | write cmd pay => exact .ran h (writeActs cmd pay w) _ hk (fun x => by simp) (by simp [h3]) (.inr ⟨h3, by simp [outAfter_writeActs], by simp [dirAfter_writeActs]⟩) (by simpa using h2) e
      | read cmd => exact .ran h (readActs cmd w) _ hk (fun x => by simp) (by simp [h3]) (.inr ⟨h3, by simp [outAfter_readActs], by simp [dirAfter_readActs]⟩) (by simpa using h2) e
    · exact .ran h guardActs _ hk (fun x => rfl) (fun _ => rfl) (.inl rfl) (by simpa using h2) e
  · have e := exec_eq_run i s
    rw [hc, apiCall] at e
    split_ifs at e with h1 h2
    · exact .refused _ (.inr (.inr (.inl rfl))) e
    · have h2 : s.busy h = false := by simpa using h2
      cases ha with
      | read c k hc =>
        obtain ⟨v, hv⟩ := result_value_isSome (runActs h (readActs (s.code c) c.width) ⟨0#16, s⟩).acc k
        simp only [Call.run, runTask, finish, hv] at e
        exact .ran h _ _ hk (fun x => by simp) (by simp [h1]) (.inr ⟨h1, by simp [outAfter_readActs], by simp [dirAfter_readActs]⟩) h2 e
      | write c pay hc => exact .ran h _ _ hk (fun x => by simp) (by simp [h1]) (.inr ⟨h1, by simp [outAfter_writeActs], by simp [dirAfter_writeActs]⟩) h2 e
      | settle c pay hc =>
        exact .ran h _ _ hk (fun x => by rw [exclAfter_append, exclAfter_writeActs]; rfl) (by simp [h1])
          (.inr ⟨h1, fun c => by rw [outAfter_append, outAfter_writeActs]; rfl, fun p => by rw [dirAfter_append, dirAfter_writeActs]; rfl⟩) h2 e
      | start =>
        have hacc := oneShot_configByte (runActs_startActs_acc h (s.code .startConv) (s.code .readConfig) noPayload s 0)
        simp only [Call.run, runTask, finish] at e
        rw [hacc] at e
        rcases hd : s.drawAt 0 with _ | _
        · rw [hd] at e
          exact .ran h _ _ hk (fun x => exclAfter_startActs x _ _) (by simp [h1]) (.inr ⟨h1, by simp [outAfter_append, outAfter_readActs], by simp [dirAfter_append, dirAfter_readActs, dirAfter_writeActs]⟩) h2 e
        · rw [hd] at e
          refine .poll h hk h1 h2 ?_
          rw [e, if_pos (by simp), pollTask_congr (t := (runActs h _ _).st) (s := s) (by simp)]; rfl
    · exact .noop h hk _ e
  · by_cases ha : s.aliased h clk dq rst = true
    · exact .refused .aliasedLines (.inr (.inr (.inr rfl))) (by simp [exec, execInit, callInit, ha, Call.run])
    · by_cases hf : s.busy h = true
      · exact .refused .sharedHandle (.inr (.inr (.inl rfl))) (by simp [exec, execInit, callInit, ha, hf, Call.run])
      · exact .init h clk dq rst a b c rfl (by simpa using hf) (by simpa using ha)
  · by_cases hf : s.busy h = true
    · exact .refused .sharedHandle (.inr (.inr (.inl rfl))) (by simp [exec, execRelease, callRelease, hf, Call.run])
    · by_cases hb : (s.handle h).bound = true
      · exact .release h rfl (by simpa using hf) hb (by simp [exec, execRelease, callRelease, hf, hb, Call.run])
      · exact .noop h rfl (.noOp none) (by simp [exec, execRelease, callRelease, hf, hb, Call.run])
  · cases v with
    | none => exact .refused .fahrenheitOverflow (.inr (.inl rfl)) (by rw [exec_eq_run, hc]; rfl)
    | some v => exact .codec hk _ (by rw [exec_eq_run, hc]; rfl)

end Sys2Proof.Machine
end

