-- ==== Sys2Proof/Laws/Encoding.lean ====
section
/-! SUPPORT. The laws of the encoding's parts: operand words, payload bytes in wire order, and the rows of the words that
hold a payload byte. -/

namespace Sys2Proof

/-- A 16-bit operand word reads back. -/
theorem wordOperand_toNat (p : Word) : wordOperand p.toNat = .ok p := by
  have := p.isLt
  rw [wordOperand, if_pos (by omega)]; simp

/-- An 8-bit operand word reads back. -/
theorem byteOperand_toNat (p : Byte) : byteOperand p.toNat = .ok p := by
  have := p.isLt
  rw [byteOperand, if_pos (by omega)]; simp

/-- A payload byte in wire order reads back. -/
theorem wireByte_withWireByte (pat : OpWord) (b : Byte) (hp : pat.setWidth 8 = 0#8) :
    wireByte (BitVec.ofNat 18 (withWireByte pat.toNat b)) = b := by
  have e : BitVec.ofNat 18 (withWireByte pat.toNat b) = pat + b.reverse.setWidth 18 := by
    apply BitVec.eq_of_toNat_eq
    simp [withWireByte]
  rw [e, wireByte, BitVec.setWidth_add _ _ (by omega), hp]
  simp

/-- A word with a payload byte is an opcode word of its row, whatever the byte. -/
theorem opWord_withWireByte (pat : OpWord) (b : Byte) (r : Row)
    (hrow : ∀ x : Byte, rowOf (pat + x.setWidth 18) = some r) (hlt : pat.toNat + 255 < 2 ^ 18) :
    opWord (withWireByte pat.toNat b) = .ok (BitVec.ofNat 18 (withWireByte pat.toNat b)) ∧ rowOf (BitVec.ofNat 18 (withWireByte pat.toNat b)) = some r := by
  have e : BitVec.ofNat 18 (withWireByte pat.toNat b) = pat + b.reverse.setWidth 18 := by
    apply BitVec.eq_of_toNat_eq
    simp [withWireByte]
  refine ⟨?_, by rw [e, hrow]⟩
  have := b.reverse.isLt
  rw [opWord, if_pos (by rw [withWireByte]; omega)]

/-- A threshold split into its wire byte and its high byte reads back. -/
theorem thresholdOf_withWireByte (pat : OpWord) (t : Word) (hp : pat.setWidth 8 = 0#8) :
    thresholdOf (BitVec.ofNat 18 (withWireByte pat.toNat (t.setWidth 8))) (BitVec.ofNat 8 (t >>> 8).toNat) = t := by
  rw [thresholdOf, wireByte_withWireByte pat _ hp]
  apply BitVec.eq_of_toNat_eq
  have := t.isLt
  rw [BitVec.toNat_append, ← Nat.shiftLeft_add_eq_or_of_lt (BitVec.isLt _)]
  simp only [BitVec.toNat_ofNat, BitVec.toNat_setWidth, BitVec.toNat_ushiftRight, Nat.shiftLeft_eq, Nat.shiftRight_eq_div_pow]
  omega

/-- A test of all bytes, by number. -/
theorem forall_byte (P : Byte → Bool) (h : (List.range 256).all (fun n => P (BitVec.ofNat 8 n)) = true) : ∀ x, P x = true := by
  intro x
  have := List.all_eq_true.1 h x.toNat (by simp [x.isLt])
  simpa using this

/-- Every writeConfig word is of its row. -/
theorem rowOf_writeConfig : ∀ x : Byte, rowOf (0x3000#18 + x.setWidth 18) = some .writeConfig := by
  intro x; have := forall_byte (fun x => decide (rowOf (0x3000#18 + x.setWidth 18) = some .writeConfig)) (by decide +kernel) x; simpa using this

/-- Every writeHighC word is of its row. -/
theorem rowOf_writeHighC : ∀ x : Byte, rowOf (0x10000#18 + x.setWidth 18) = some .writeHighC := by
  intro x; have := forall_byte (fun x => decide (rowOf (0x10000#18 + x.setWidth 18) = some .writeHighC)) (by decide +kernel) x; simpa using this

/-- Every writeLowC word is of its row. -/
theorem rowOf_writeLowC : ∀ x : Byte, rowOf (0x8000#18 + x.setWidth 18) = some .writeLowC := by
  intro x; have := forall_byte (fun x => decide (rowOf (0x8000#18 + x.setWidth 18) = some .writeLowC)) (by decide +kernel) x; simpa using this

/-- A threshold's high byte is an operand word. -/
theorem byteOperand_high (t : Word) : byteOperand (t >>> 8).toNat = .ok (BitVec.ofNat 8 (t >>> 8).toNat) := by
  have := t.isLt
  rw [byteOperand, if_pos]
  simp [Nat.shiftRight_eq_div_pow]; omega

end Sys2Proof
end

