-- ==== Sys2Proof/Laws/PerInstr.lean ====
section
/-! SUPPORT. The per-instruction family of this model: the shape of an instruction's request. -/

namespace Sys2Proof.Laws.EncodeShape

/-- The request of the instruction is an opcode word of some row of the table, and as many operand words as the row
takes. -/
def Statement (i : Instr) : Prop :=
  ∃ w args r, encode i = w :: args ∧ w < 2 ^ 18 ∧ rowOf (BitVec.ofNat 18 w) = some r ∧ args.length = r.arity

/-- A word with a payload byte under a row's pattern. -/
theorem wired (i : Instr) (pat : OpWord) (b : Byte) (args : List Nat) (r : Row)
    (hrow : ∀ x : Byte, rowOf (pat + x.setWidth 18) = some r) (hlt : pat.toNat + 255 < 2 ^ 18)
    (he : encode i = withWireByte pat.toNat b :: args) (ha : args.length = r.arity) :
    Statement i := by
  have h := opWord_withWireByte pat b r hrow hlt
  have := b.reverse.isLt
  exact ⟨_, _, r, he, by rw [withWireByte]; omega, h.2, ha⟩

theorem cmdStartConv (h : HandleId) : Statement (.cmdStartConv h) :=
  ⟨_, _, _, rfl, by decide, rfl, rfl⟩

theorem cmdStopConv (h : HandleId) : Statement (.cmdStopConv h) :=
  ⟨_, _, _, rfl, by decide, rfl, rfl⟩

theorem cmdReadTemp (h : HandleId) : Statement (.cmdReadTemp h) :=
  ⟨_, _, _, rfl, by decide, rfl, rfl⟩

theorem cmdReadHTemp (h : HandleId) : Statement (.cmdReadHTemp h) :=
  ⟨_, _, _, rfl, by decide, rfl, rfl⟩

theorem cmdReadLTemp (h : HandleId) : Statement (.cmdReadLTemp h) :=
  ⟨_, _, _, rfl, by decide, rfl, rfl⟩

theorem cmdWriteHTemp (h : HandleId) (payload : Word) : Statement (.cmdWriteHTemp h payload) :=
  ⟨_, _, _, rfl, by decide, rfl, rfl⟩

theorem cmdWriteLTemp (h : HandleId) (payload : Word) : Statement (.cmdWriteLTemp h payload) :=
  ⟨_, _, _, rfl, by decide, rfl, rfl⟩

theorem cmdReadCounter (h : HandleId) : Statement (.cmdReadCounter h) :=
  ⟨_, _, _, rfl, by decide, rfl, rfl⟩

theorem cmdReadSlope (h : HandleId) : Statement (.cmdReadSlope h) :=
  ⟨_, _, _, rfl, by decide, rfl, rfl⟩

theorem cmdReadConfig (h : HandleId) : Statement (.cmdReadConfig h) :=
  ⟨_, _, _, rfl, by decide, rfl, rfl⟩

theorem cmdWriteConfig (h : HandleId) (payload : Word) : Statement (.cmdWriteConfig h payload) :=
  ⟨_, _, _, rfl, by decide, rfl, rfl⟩

theorem init (h : HandleId) (clk dq rst : LineId) (pOut pDir pIn : PortRef) : Statement (.init h clk dq rst pOut pDir pIn) :=
  ⟨_, _, _, rfl, by decide, rfl, rfl⟩

theorem release (h : HandleId) : Statement (.release h) :=
  ⟨_, _, _, rfl, by decide, rfl, rfl⟩

theorem writeTransaction (h : HandleId) (cmd : Byte) (payload : Word) (w : Nat) : Statement (.writeTransaction h cmd payload w) :=
  ⟨_, _, _, rfl, by decide, rfl, rfl⟩

theorem readTransaction (h : HandleId) (cmd : Byte) (w : Nat) : Statement (.readTransaction h cmd w) :=
  ⟨_, _, _, rfl, by decide, rfl, rfl⟩

theorem startConversion (h : HandleId) : Statement (.startConversion h) :=
  ⟨_, _, _, rfl, by decide, rfl, rfl⟩

theorem readTempC (h : HandleId) : Statement (.readTempC h) :=
  ⟨_, _, _, rfl, by decide, rfl, rfl⟩

theorem readTempF (h : HandleId) : Statement (.readTempF h) :=
  ⟨_, _, _, rfl, by decide, rfl, rfl⟩

theorem readTempRaw (h : HandleId) : Statement (.readTempRaw h) :=
  ⟨_, _, _, rfl, by decide, rfl, rfl⟩

theorem readHighC (h : HandleId) : Statement (.readHighC h) :=
  ⟨_, _, _, rfl, by decide, rfl, rfl⟩

theorem readLowC (h : HandleId) : Statement (.readLowC h) :=
  ⟨_, _, _, rfl, by decide, rfl, rfl⟩

theorem readCounter (h : HandleId) : Statement (.readCounter h) :=
  ⟨_, _, _, rfl, by decide, rfl, rfl⟩

theorem readSlope (h : HandleId) : Statement (.readSlope h) :=
  ⟨_, _, _, rfl, by decide, rfl, rfl⟩

theorem readConfig (h : HandleId) : Statement (.readConfig h) :=
  ⟨_, _, _, rfl, by decide, rfl, rfl⟩

theorem writeConfig (h : HandleId) (c : Byte) : Statement (.writeConfig h c) :=
  wired _ 0x3000#18 c _ _ rowOf_writeConfig (by decide) rfl rfl

theorem writeHighC (h : HandleId) (t : Word) : Statement (.writeHighC h t) :=
  wired _ 0x10000#18 (t.setWidth 8) _ _ rowOf_writeHighC (by decide) rfl rfl

theorem writeLowC (h : HandleId) (t : Word) : Statement (.writeLowC h t) :=
  wired _ 0x8000#18 (t.setWidth 8) _ _ rowOf_writeLowC (by decide) rfl rfl

theorem decodeC (r : Word) : Statement (.decodeC r) :=
  ⟨_, _, _, rfl, by decide, rfl, rfl⟩

theorem toF (c : Word) : Statement (.toF c) :=
  ⟨_, _, _, rfl, by decide, rfl, rfl⟩

theorem encodeT (t : Word) : Statement (.encodeT t) :=
  ⟨_, _, _, rfl, by decide, rfl, rfl⟩

end Sys2Proof.Laws.EncodeShape
end

