-- ==== Sys2Proof/Tests/Slice0.lean ====
section
/-! SUPPORT. Tests of one step each, with results taken from spec/95_test_vectors.md, and a witness for every statement
that has hypotheses. -/

namespace Sys2Proof.Tests

open Sys2Proof.Machine Sys2Proof.Safety

set_option Elab.async false

/-! ## Small states -/

/-- The handle of the spec's programs: CLK = 0, DQ = 1, RST = 2 (95_test_vectors.md Part 3). -/
def board : Handle := ⟨true, 0, 1, 2, 10, 11, 12⟩

/-- Reset with default command codes, delays 5 and 10, and these draws. -/
def blank (draws : List Bit) : State :=
  { State.reset with params := ⟨Config.defaultCmds, 5, 10⟩, draws := draws }

/-- The state after init of handle 0 (R106). -/
def ready (draws : List Bit) : State :=
  { blank draws with handles := [(0, board)], lines := [(0, ⟨true, .output⟩), (1, ⟨true, .output⟩), (2, ⟨false, .output⟩)] }

/-- `ready` with an operation in progress on handle 0. -/
def inProgress (k : Task) (draws : List Bit) : State := (ready draws).setTask 0 k

/-- `ready` with startConversion's poll in progress on handle 0. -/
def polling (draws : List Bit) : State := inProgress (pollTask (ready [])) draws

/-- `ready` in the middle of a write: its region is entered, and one is open. -/
def midway : State :=
  { inProgress ⟨[.drive .rst false, .exclExit], 0#16, .returns .nothing⟩ [] with ie := false, excl := [true] }

/-- `midway` at the exit, the save stack empty; no run reaches it. -/
def stuck : State :=
  inProgress ⟨[.exclExit], 0#16, .returns .nothing⟩ []

/-- The state an answer goes to. -/
def goesTo : Answer → Option State
  | .next t => some t
  | .fault _ => none
  | .refused _ => none

/-- The refusal an answer is. -/
def refusedAs : Answer → Option Refusal
  | .next _ => none
  | .fault _ => none
  | .refused r => some r

/-- The fault an answer is. -/
def faultsAs : Answer → Option Fault
  | .next _ => none
  | .fault e => some e
  | .refused _ => none

/-- What the last operation to end returned. -/
def returned (a : Answer) : Option Ending :=
  (goesTo a).bind fun t => t.returns.getLast?.map Return.ending

/-- How many events happened. -/
def events (a : Answer) : Option Nat := (goesTo a).map fun t => t.trace.length

/-- The bits on DQ at each falling edge of CLK of `board`, in order. -/
def sentFrom (dq : Bit) : List Entry → List Bit
  | [] => []
  | ⟨_, .drive 1 b⟩ :: es => sentFrom b es
  | ⟨_, .drive 0 false⟩ :: es => dq :: sentFrom dq es
  | _ :: es => sentFrom dq es

/-- The wire bits an operation sent, command first. -/
def sent (a : Answer) : Option (List Bit) := (goesTo a).map fun t => sentFrom false t.trace

/-- The instruction of a request. -/
def decoded (r : Request) : Option Instr := (decode r).toOption

/-- The levels of CLK, DQ and RST of handle 0. -/
def levels (a : Answer) : Option (List Bit) :=
  (goesTo a).map fun t => [t.outOf 0 .clk, t.outOf 0 .dq, t.outOf 0 .rst]

/-! ## Well-formedness: an ill-formed term for each check -/

theorem test_wf_init_clk_dq : (Instr.init 0 0 0 2 0 0 0).wellFormed = false := by decide
theorem test_wf_init_clk_rst : (Instr.init 0 0 1 0 0 0 0).wellFormed = false := by decide
theorem test_wf_init_dq_rst : (Instr.init 0 0 1 1 0 0 0).wellFormed = false := by decide
theorem test_wf_write_width : (Instr.writeTransaction 0 0xAA 0 17).wellFormed = false := by decide
theorem test_wf_read_width : (Instr.readTransaction 0 0xAA 17).wellFormed = false := by decide
theorem test_wf_toF_high : (Instr.toF 3624).wellFormed = false := by decide
theorem test_wf_toF_low : (Instr.toF (-3641)).wellFormed = false := by decide
theorem test_wf_admitted : (Instr.init 0 0 1 2 0 0 0).wellFormed = true ∧ (Instr.writeTransaction 0 0xAA 0 16).wellFormed = true ∧
    (Instr.toF 3623).wellFormed = true ∧ (Instr.toF (-3640)).wellFormed = true := by decide

/-! ## Decoding: words written out from 30_encoding.md R50, R51 and R57, cell 0 leftmost for the operations -/

theorem test_decode_cmdStartConv : decoded [0b11101110, 7] = some (.cmdStartConv 7) := by decide
theorem test_decode_cmdStopConv : decoded [0b00100010, 7] = some (.cmdStopConv 7) := by decide
theorem test_decode_cmdReadTemp : decoded [0b10101010, 7] = some (.cmdReadTemp 7) := by decide
theorem test_decode_cmdReadHTemp : decoded [0b10100001, 7] = some (.cmdReadHTemp 7) := by decide
theorem test_decode_cmdReadLTemp : decoded [0b10100010, 7] = some (.cmdReadLTemp 7) := by decide
theorem test_decode_cmdWriteHTemp : decoded [0b00000001, 7, 0x3C] = some (.cmdWriteHTemp 7 0x3C) := by decide
theorem test_decode_cmdWriteLTemp : decoded [0b00000010, 7, 0x1EC] = some (.cmdWriteLTemp 7 0x1EC) := by decide
theorem test_decode_cmdReadCounter : decoded [0b10100000, 7] = some (.cmdReadCounter 7) := by decide
theorem test_decode_cmdReadSlope : decoded [0b10101001, 7] = some (.cmdReadSlope 7) := by decide
theorem test_decode_cmdReadConfig : decoded [0b10101100, 7] = some (.cmdReadConfig 7) := by decide
theorem test_decode_cmdWriteConfig : decoded [0b00001100, 7, 3] = some (.cmdWriteConfig 7 3) := by decide
theorem test_decode_startConversion : decoded [0b01110111, 7] = some (.startConversion 7) := by decide
theorem test_decode_readTempC : decoded [0b01010101_000000000, 7, 0] = some (.readTempC 7) := by decide
theorem test_decode_readTempF : decoded [0b01010101_011011111, 7, 1] = some (.readTempF 7) := by decide
theorem test_decode_readTempRaw : decoded [0b01010101_111111111, 7, 2] = some (.readTempRaw 7) := by decide
theorem test_decode_readHighC : decoded [0b10000101_001111000, 7] = some (.readHighC 7) := by decide
theorem test_decode_readLowC : decoded [0b01000101_001101111, 7] = some (.readLowC 7) := by decide
theorem test_decode_readCounter : decoded [0b00000101_10000001, 7] = some (.readCounter 7) := by decide
theorem test_decode_readSlope : decoded [0b10010101_00000000, 7] = some (.readSlope 7) := by decide
theorem test_decode_readConfig : decoded [0b00110101_11000001, 7] = some (.readConfig 7) := by decide
theorem test_decode_writeConfig : decoded [0b00110000_11000000, 7] = some (.writeConfig 7 0x03) := by decide
theorem test_decode_writeHighC : decoded [0b10000000_001111000, 7, 0] = some (.writeHighC 7 30) := by decide
theorem test_decode_writeLowC : decoded [0b01000000_001101111, 7, 0xFF] = some (.writeLowC 7 (-10)) := by decide
theorem test_decode_init : decoded [0x20000, 7, 0, 1, 2, 10, 11, 12] = some (.init 7 0 1 2 10 11 12) := by decide
theorem test_decode_release : decoded [0x20001, 7] = some (.release 7) := by decide
theorem test_decode_writeTransaction : decoded [0x20002, 7, 0x0C, 3, 8] = some (.writeTransaction 7 0x0C 3 8) := by decide
theorem test_decode_readTransaction : decoded [0x20003, 7, 0xAA, 9] = some (.readTransaction 7 0xAA 9) := by decide
theorem test_decode_decodeC : decoded [0x20004, 0x1F6] = some (.decodeC 0x1F6) := by decide
theorem test_decode_toF : decoded [0x20005, 100] = some (.toF 100) := by decide
theorem test_decode_encodeT : decoded [0x20006, 25] = some (.encodeT 25) := by decide
theorem test_decode_rejects : decoded [] = none ∧ decoded [0x55, 0] = none ∧ decoded [0xAA] = none ∧
    decoded [0b01010101000000000, 0, 3] = none ∧ decoded [0x20004, 65536] = none ∧ decoded [2 ^ 18, 0] = none := by decide
/-- The table's payload_width place may hold either value (log entry 4). -/
theorem test_decode_field_bit : decodeTableWord 10 0x0AA = some (.cmdReadTemp 0) ∧
    decodeTableWord 10 0x2AA = some (.cmdReadTemp 0) ∧ decodeTableWord 9 0x1AC = some (.cmdReadConfig 0) := by decide

/-! ## The codec (95_test_vectors.md 2.1, 2.2, 2.3) -/

theorem test_decodeC_shift : returned (exec (.decodeC 0x1F6) (blank [])) = some (.done (some (-5))) := by decide
theorem test_decodeC_bit_9 : returned (exec (.decodeC 0x0319) (blank [])) = some (.done (some (-116))) := by decide
theorem test_toF_truncates : returned (exec (.toF (-18)) (blank [])) = some (.done (some 0)) := by decide
theorem test_toF_edges : returned (exec (.toF 3623) (blank [])) = some (.done (some 6553)) ∧
    refusedAs (exec (.toF 3624) (blank [])) = some .fahrenheitOverflow ∧
    returned (exec (.toF (-3640)) (blank [])) = some (.done (some (-6520))) ∧
    refusedAs (exec (.toF (-3641)) (blank [])) = some .fahrenheitOverflow := by decide
theorem test_encodeT_wraps : returned (exec (.encodeT (-129)) (blank [])) = some (.done (some 0xFEFE)) := by decide
/-- 2.5: setting NVB in 0x83 gives 0x93, clearing 1SHOT gives 0x82. -/
theorem test_flags : Flag.set 0x83 .nvb = 0x93 ∧ Flag.clear 0x83 .oneShot = 0x82 ∧
    [Flag.oneShot, .cpu, .reserved2, .reserved3, .nvb, .tlf, .thf, .done].map (Flag.test 0x83) =
      [true, true, false, false, false, false, false, true] := by decide

/-! ## The primitives and the command frames (2.6, 2.7) -/

theorem test_write_startConv_wire : sent (exec (.writeTransaction 0 0xEE 0 0) (ready [])) =
    some [false, true, true, true, false, true, true, true] := by decide +kernel
theorem test_write_startConv_levels : levels (exec (.writeTransaction 0 0xEE 0 0) (ready [])) = some [true, true, true] ∧
    events (exec (.writeTransaction 0 0xEE 0 0) (ready [])) = some 43 := by decide +kernel
theorem test_read_frame : returned (exec (.readTransaction 0 0xAA 9)
      (ready [false, true, true, false, true, true, true, true, true])) = some (.done (some 0x1F6)) ∧
    events (exec (.readTransaction 0 0xAA 9) (ready [])) = some 94 ∧
    levels (exec (.readTransaction 0 0xAA 9) (ready [])) = some [true, true, false] := by decide +kernel
theorem test_read_width_0 : returned (exec (.readTransaction 0 0xAA 0) (ready [])) = some (.done (some 0)) ∧
    events (exec (.readTransaction 0 0xAA 0) (ready [])) = some 49 ∧
    refusedAs (exec (.readTransaction 0 0xAA 17) (blank [])) = some .widthTooLarge := by decide +kernel
theorem test_cmdStartConv : events (exec (.cmdStartConv 0) (ready [])) = some 43 := by decide +kernel
theorem test_cmdStopConv : levels (exec (.cmdStopConv 0) (ready [])) = some [true, false, true] := by decide +kernel
theorem test_cmdReadTemp : events (exec (.cmdReadTemp 0) (ready [])) = some 94 := by decide +kernel
theorem test_cmdReadHTemp : returned (exec (.cmdReadHTemp 0) (ready (List.replicate 9 true))) =
    some (.done (some 511)) := by decide +kernel
theorem test_cmdReadLTemp : events (exec (.cmdReadLTemp 0) (ready [])) = some 94 := by decide +kernel
theorem test_cmdWriteHTemp : sent (exec (.cmdWriteHTemp 0 0x3C) (ready [])) = some
    [true, false, false, false, false, false, false, false, false, false, true, true, true, true, false, false, false] := by
  decide +kernel
theorem test_cmdWriteLTemp : events (exec (.cmdWriteLTemp 0 0x1EC) (ready [])) = some 89 := by decide +kernel
theorem test_cmdReadCounter : returned (exec (.cmdReadCounter 0)
    (ready [true, false, false, false, false, false, false, true])) = some (.done (some 129)) := by decide +kernel
theorem test_cmdReadSlope : events (exec (.cmdReadSlope 0) (ready [])) = some 89 := by decide +kernel
theorem test_cmdReadConfig : events (exec (.cmdReadConfig 0) (ready [])) = some 89 := by decide +kernel
/-- 2.6: bits 15..8 of a payload of width 8 are never sent, and the frame has no settle delay. -/
theorem test_cmdWriteConfig : sent (exec (.cmdWriteConfig 0 0xFF03) (ready [])) = some
    [false, false, true, true, false, false, false, false, true, true, false, false, false, false, false, false] ∧
    events (exec (.cmdWriteConfig 0 0xFF03) (ready [])) = some 84 := by decide +kernel
/-- 2.7: an invalid handle's primitive enters and leaves its region. -/
theorem test_guard_masked : (goesTo (exec (.writeTransaction 5 0xEE 0 8) { ready [] with ie := false })).map
    (fun t => (t.trace, t.ie, t.excl)) = some ([⟨5, .exclEnter⟩, ⟨5, .exclExit⟩], false, []) := by decide

/-! ## The register API (2.4, 2.7, 2.8) -/

theorem test_readTempC : returned (exec (.readTempC 0) (ready [false, true, false, false, true, true, false, false, false])) =
    some (.done (some 25)) := by decide +kernel
theorem test_readTempC_invalid : returned (exec (.readTempC 5) (ready [])) = some (.noOp (some 0)) ∧
    events (exec (.readTempC 5) (ready [])) = some 0 := by decide
theorem test_readTempF : returned (exec (.readTempF 0) (ready [false, false, false, false, false, false, false, false, true])) =
    some (.done (some (-198))) := by decide +kernel
theorem test_readTempF_invalid : returned (exec (.readTempF 5) (ready [])) = some (.noOp (some 0)) := by decide
theorem test_readTempRaw : returned (exec (.readTempRaw 0) (ready (List.replicate 9 true))) = some (.done (some 511)) := by
  decide +kernel
theorem test_readHighC : returned (exec (.readHighC 0) (ready [false, false, true, true, true, true, false, false, false])) =
    some (.done (some 30)) := by decide +kernel
theorem test_readLowC : returned (exec (.readLowC 0) (ready [false, false, true, true, false, true, true, true, true])) =
    some (.done (some (-10))) := by decide +kernel
theorem test_readCounter : returned (exec (.readCounter 0) (ready [true, false, false, false, false, false, false, true])) =
    some (.done (some 129)) := by decide +kernel
theorem test_readSlope : returned (exec (.readSlope 0) (ready (List.replicate 8 false))) = some (.done (some 0)) := by
  decide +kernel
theorem test_readConfig : returned (exec (.readConfig 0) (ready (List.replicate 8 true))) = some (.done (some 255)) := by
  decide +kernel
theorem test_writeConfig : sent (exec (.writeConfig 0 0x03) (ready [])) = some
    [false, false, true, true, false, false, false, false, true, true, false, false, false, false, false, false] := by
  decide +kernel
theorem test_writeConfig_settles : events (exec (.writeConfig 0 0x03) (ready [])) = some 85 ∧
    (goesTo (exec (.writeConfig 0 0x03) (ready []))).bind (fun t => t.trace.getLast?) = some ⟨0, .delayMs 10⟩ := by
  decide +kernel
theorem test_writeHighC : sent (exec (.writeHighC 0 200) (ready [])) = some
    [true, false, false, false, false, false, false, false, false, false, false, false, true, false, false, true, true] := by
  decide +kernel
theorem test_writeLowC : sent (exec (.writeLowC 0 (-10)) (ready [])) = some
    [false, true, false, false, false, false, false, false, false, false, true, true, false, true, true, true, true] := by
  decide +kernel
theorem test_startConversion_returns : events (exec (.startConversion 0) (ready (List.replicate 8 false))) = some 132 ∧
    returned (exec (.startConversion 0) (ready (List.replicate 8 false))) = some (.done none) := by decide +kernel
theorem test_startConversion_polls : (goesTo (exec (.startConversion 0) (ready (List.replicate 8 true)))).map
    (fun t => (t.busy 0, t.returns)) = some (true, []) := by decide +kernel
theorem test_poll_done : events (resumeTurn 0 (polling [true, false, false, false, false, false, false, true])) = some 89 ∧
    returned (resumeTurn 0 (polling [true, false, false, false, false, false, false, true])) = some (.done none) := by
  decide +kernel
theorem test_poll_not_done : (goesTo (resumeTurn 0 (polling [true, false, false, false, false, false, false, false]))).map
    (fun t => (t.busy 0, t.returns)) = some (true, []) := by decide +kernel

/-! ## Lifecycle (2.9) -/

theorem test_init : (goesTo (exec (.init 0 0 1 2 10 11 12) (blank []))).map (fun t => (t.trace.map Entry.event, t.handles)) =
    some ([.drive 0 true, .drive 1 true, .drive 2 false, .setDir 0 .output, .setDir 1 .output, .setDir 2 .output],
      [(0, board)]) := by decide
theorem test_init_aliased : refusedAs (exec (.init 0 0 0 2 0 0 0) (blank [])) = some .aliasedLines ∧
    refusedAs (exec (.init 1 2 3 4 0 0 0) (ready [])) = some .aliasedLines := by decide
theorem test_release : (goesTo (exec (.release 0) (ready []))).map (fun t => ((t.handle 0).bound, t.lines, t.trace)) =
    some (false, (ready []).lines, []) := by decide
theorem test_release_busy : refusedAs (exec (.release 0) (polling [])) = some .sharedHandle := by decide

/-! ## Steps -/

/-- R105: with nothing to do the block is idle. -/
theorem test_step_idle : goesTo (step (blank [])) = some (blank []) := by decide
theorem test_step_fetches : (goesTo (step ((ready []).withFetchWord 8 0x22))).map (fun t => t.trace.length) = some 43 := by
  decide +kernel
/-- The save stack is empty where an exit comes: the stuck state (log entry 16). -/
theorem test_underflow : faultsAs (eventTurn 0 stuck) = some .exclUnderflow := by decide
/-- R103 (b): one operation per handle. -/
theorem test_shared : refusedAs (exec (.readTempC 0) midway) = some .sharedHandle := by decide

/-! ## Witnesses: concrete values that meet all hypotheses of a statement together -/

theorem ready_handle (ds : List Bit) (h : HandleId) : (ready ds).handle h = if h = 0 then board else freshHandle := by
  by_cases e : h = 0
  · subst e; rfl
  · simp [State.handle, ready, Assoc.get, e, Ne.symm e]

/-- Handle 0 alone holds lines where it alone is valid and no init is in progress. -/
theorem holds_of_ready {s : State} {ds : List Bit} (hs : s.handles = (ready ds).handles)
    (ht : ∀ h t, s.task h = some t → t.fin ≠ .bind) (h : HandleId) : s.holds h = decide (h = 0) := by
  have H : s.handle h = if h = 0 then board else freshHandle := by
    rw [State.handle_congr hs]; exact ready_handle ds h
  have I : s.initialising h = false := by
    rw [State.initialising]
    rcases e : s.task h with _ | t
    · rfl
    · simpa using ht h t e
  rw [State.holds, I, H, Bool.or_false]
  by_cases e : h = 0
  · simp [e, board]
  · simp [e, freshHandle]

theorem apart_of_ready {s : State} {ds : List Bit} (hs : s.handles = (ready ds).handles)
    (ht : ∀ h t, s.task h = some t → t.fin ≠ .bind) : LinesApart s := by
  refine ⟨fun h hb => ?_, fun h g l hne hb hg => ?_⟩
  · rw [holds_of_ready hs ht] at hb
    obtain rfl : h = 0 := by simpa using hb
    rw [State.handle_congr hs, ready_handle]; decide
  · rw [holds_of_ready hs ht] at hb hg
    exact absurd ((by simpa using hb : h = 0).trans (by simpa using hg : g = 0).symm) hne

/-- The only operation in progress is the one placed. -/
theorem task_inProgress {k : Task} {ds : List Bit} {h : HandleId} {t : Task} (ht : (inProgress k ds).task h = some t) :
    h = 0 ∧ t = k := by
  by_cases e : h = 0
  · subst e; injection ht with ht; exact ⟨rfl, ht.symm⟩
  · simp [State.task, inProgress, ready, blank, State.reset, State.setTask, Assoc.set, Assoc.get, Ne.symm e] at ht

theorem witness_OpcodeRowsNeverOverlap : ∃ r q : OpcodeRow, r ∈ opcodeRows ∧ q ∈ opcodeRows ∧
    r.covers 0xAA = true ∧ q.covers 0xAA = true := by
  exact ⟨⟨0x3FDFF, 0xAA, .command .readTemp⟩, ⟨0x3FDFF, 0xAA, .command .readTemp⟩, by decide, by decide, by decide, by decide⟩

/-- A state with one request to issue. -/
def oneRequest (t : Turn) (r : Request) : State := { ready [] with script := [r], sched := [t] }

theorem witness_StepRunsDecodedInstruction :
    (oneRequest .call [0xEE, 0]).turn = .call ∧ (oneRequest .issue [0xEE, 0]).turn = .issue ∧
    (oneRequest .call [0xEE, 0]).script = [[0xEE, 0]] ∧ decoded [0xEE, 0] = some (.cmdStartConv 0) := by decide

theorem witness_StepWithoutOperation : (blank []).turn = .call ∧ (blank []).script = [] ∧
    (oneRequest .call [0x55]).turn = .call ∧ decode [0x55] = .error .unknownWord := by
  exact ⟨by decide, by decide, by decide, rfl⟩

theorem witness_StepTakesItsTurn : ({ midway with sched := [.event 0] } : State).turn = .event 0 ∧
    ({ midway with sched := [.resume 0] } : State).turn = .resume 0 ∧ (polling []).sched = [] ∧
    (polling []).tasks = [(0, pollTask (ready []))] ∧ (blank []).sched = [] ∧ (blank []).tasks = [] := by decide

theorem witness_HostWritesInterruptState : (oneRequest (.setIe false) []).turn = .setIe false ∧
    (oneRequest (.setIe false) []).excl = [] ∧ ({ midway with sched := [.setIe true] } : State).turn = .setIe true ∧
    ({ midway with sched := [.setIe true] } : State).excl ≠ [] := by decide

theorem witness_PlacedWordRunsNext : decodeTableWord 8 0xEE = some (.cmdStartConv 0) := by decide

/-- A safe state in the middle of a write, with one region open. -/
theorem witness_safe_midway : Safe midway := by
  have T : ∀ h t, midway.task h = some t → h = 0 ∧ t = ⟨[.drive .rst false, .exclExit], 0#16, .returns .nothing⟩ :=
    fun h t ht => task_inProgress (ds := []) ht
  refine ⟨⟨by decide, by decide, by decide⟩, by decide, apart_of_ready (ds := []) rfl fun h t ht => ?_, fun h t ht => ?_,
    by decide, fun h t ht => ?_⟩
  · rw [(T h t ht).2]; decide
  · rw [(T h t ht).1]; exact .inl (by decide)
  · rw [(T h t ht).2]; decide

theorem witness_StepKeepsSafe : Safe midway ∧ (goesTo (step { midway with sched := [.event 0] })).isSome = true :=
  ⟨witness_safe_midway, by decide⟩

theorem witness_SafeStateNeverFaults : Safe midway := witness_safe_midway

theorem rest_of_ready {s : State} {ds : List Bit} (hh : s.handles = (ready ds).handles) (hl : s.lines = (ready ds).lines)
    (h : HandleId) (hb : (s.handle h).bound = true) : AtRest h s := by
  rw [State.handle_congr hh, ready_handle] at hb
  have e : h = 0 := by
    by_contra e
    rw [if_neg e] at hb; cases hb
  subst e
  exact ⟨by rw [State.outOf_congr hh hl]; rfl, fun p => by rw [State.dirOf_congr hh hl]; cases p <;> rfl⟩

/-- Between operations, a poll in progress. -/
theorem witness_between : BetweenOperations (polling []) := by
  refine ⟨apart_of_ready (ds := []) rfl fun h t ht => ?_, rfl, rest_of_ready (ds := []) rfl rfl, fun h t ht => ?_,
    fun t ht => by cases ht⟩
  · rw [(task_inProgress (ds := []) ht).2]; decide
  · obtain ⟨rfl, rfl⟩ := task_inProgress (ds := []) ht
    exact ⟨rfl, rfl⟩

theorem witness_WholeOperationsEndAtRest :
    BetweenOperations (polling []) ∧ (goesTo (step (polling (List.replicate 8 true)))).isSome = true :=
  ⟨witness_between, by decide +kernel⟩

theorem witness_StepOnlyAppends : (goesTo (step (oneRequest .call [0xEE, 0]))).isSome = true := by decide +kernel

theorem witness_RefusalsAreTheSpecs :
    refusedAs (exec (.readTransaction 0 0xAA 17) (ready [])) = some .widthTooLarge ∧
    refusedAs (exec (.toF 3624) (ready [])) = some .fahrenheitOverflow ∧
    refusedAs (exec (.readTempC 0) (polling [])) = some .sharedHandle ∧
    refusedAs (exec (.init 1 2 3 4 0 0 0) (ready [])) = some .aliasedLines := by decide

/-- A second handle on lines 3, 4, 5 beside the valid one. -/
theorem witness_second_init (g : HandleId) (hb : (ready []).holds g = true) :
    ((ready []).handle g).owns 3 = false ∧ ((ready []).handle g).owns 4 = false ∧ ((ready []).handle g).owns 5 = false := by
  rw [holds_of_ready (ds := []) rfl (fun h t ht => by cases ht)] at hb
  obtain rfl : g = 0 := by simpa using hb
  decide

theorem witness_AdmittedCallsComplete : (Instr.init 1 3 4 5 0 0 0).wellFormed = true ∧ (ready []).busy 1 = false ∧
    (∀ g, g ≠ 1 → (ready []).holds g = true → ((ready []).handle g).owns 3 = false ∧
      ((ready []).handle g).owns 4 = false ∧ ((ready []).handle g).owns 5 = false) ∧
    (Instr.readTransaction 0 0xAA 16).wellFormed = true ∧ (ready []).busy 0 = false :=
  ⟨by decide, by decide, fun g _ => witness_second_init g, by decide, by decide⟩

theorem witness_InterruptStateRestored : (goesTo (exec (.readTempC 0) (ready []))).isSome = true ∧
    (goesTo (exec (.readTempC 5) { ready [] with ie := false, excl := [true] })).isSome = true := by decide +kernel

theorem witness_RegionKeepsInterruptsOff :
    0 < 1 ∧ 1 < (writeActs 0xEE 0 0).length ∧ 42 < (writeActs 0xEE 0 0).length ∧ 1 < guardActs.length ∧
    1 < (readActs 0xAA 9).length ∧ 93 < (readActs 0xAA 9).length := by decide +kernel

/-- The edges of the nested write (95_test_vectors.md 2.6): one deep after 2 events, two after 3 and 44, one after 45. -/
theorem test_nested_region : [2, 3, 44, 45].map (fun k => (runActs 0 ((readActs 0xAA 9).take k) ⟨0#16, ready []⟩).st.excl) =
    [[true], [false, true], [false, true], [true]] := by decide +kernel

theorem witness_StepKeepsInterruptsMasked : midway.ie = false ∧ midway.excl = [true] ∧ MaskedInRegions midway ∧
    (goesTo (step { midway with sched := [.event 0] })).isSome = true :=
  ⟨rfl, rfl, fun _ => ⟨rfl, fun b hb => by cases hb⟩, by decide⟩

/-- The regions of two handles interleave on the one save stack, and the saved value comes back last (log entry 23). -/
theorem test_interleaved_regions :
    ((goesTo (eventTurn 1 ({ midway with sched := [] }.setTask 1 ⟨[.exclEnter, .exclExit], 0#16, .guarded .nothing⟩))).map
      fun t => (t.ie, t.excl)) = some (false, [false, true]) := by decide

/-- Handle 1's init is issued on lines 3, 4, 5, its events to come. -/
def initIssued : State :=
  (goesTo (issueInstr (.init 1 3 4 5 0 0 0) (ready []))).getD (ready [])

/-- An init in progress holds its lines: another on one of them is refused, one on other lines is not (R21 (c); log entry
15), and the first binds at its end. -/
theorem test_init_holds_lines : initIssued.holds 1 = true ∧ (initIssued.handle 1).bound = false ∧
    refusedAs (exec (.init 2 5 6 7 0 0 0) initIssued) = some .aliasedLines ∧
    (goesTo (exec (.init 2 6 7 8 0 0 0) initIssued)).isSome = true ∧
    (goesTo (resumeTurn 1 initIssued)).map (fun t => (t.handle 1).bound) = some true := by decide

theorem witness_OtherHandlesUntouched : handleOf (.init 1 3 4 5 0 0 0) = some 1 ∧
    (goesTo (exec (.init 1 3 4 5 0 0 0) (ready []))).isSome = true ∧ board.owns 3 = false := by decide

theorem witness_TurnsOfOtherHandlesUntouched : (goesTo (eventTurn 0 midway)).isSome = true ∧
    (goesTo (resumeTurn 0 midway)).isSome = true ∧ (1 : HandleId) ≠ 0 ∧ board.owns 3 = false := by decide

theorem witness_EventTurnsRunTheOperation : callOf (.writeTransaction 0 0xEE 0 0) (ready []) =
    .started 0 ⟨writeActs 0xEE 0 0, 0#16, .returns .nothing⟩ (ready []) := by decide

theorem witness_DqIsNeverDrivenAsInput : ∃ k u, callOf (.readTempC 0) (ready []) = .started 0 k u ∧ k.fin ≠ .bind := by
  exact ⟨_, _, rfl, by decide⟩

theorem witness_EventsSetTheirLineOnly : (5 : LineId) ≠ ((ready []).handle 0).line .dq := by decide

theorem ready_ready (ds : List Bit) : Ready 0 (ready ds) := ⟨rfl, rfl, rfl⟩

theorem witness_WriteTransactionRunsFrame : Ready 0 (ready []) ∧ 0 ≤ 16 ∧ 16 ≤ 16 := ⟨ready_ready [], by decide, by decide⟩
theorem witness_ReadTransactionRunsFrame : Ready 0 (ready []) ∧ 0 ≤ 16 ∧ 16 ≤ 16 := ⟨ready_ready [], by decide, by decide⟩
theorem witness_ClockPulsesCountTheBits : Ready 0 (ready []) ∧ 0 ≤ 16 ∧ 16 ≤ 16 := ⟨ready_ready [], by decide, by decide⟩
theorem witness_LeastSignificantBitFirst : Ready 0 (ready []) ∧ 0 ≤ 16 ∧ 16 ≤ 16 := ⟨ready_ready [], by decide, by decide⟩
theorem witness_TraceLengthsOfFrames : Ready 0 (ready []) ∧ 0 ≤ 16 ∧ 16 ≤ 16 := ⟨ready_ready [], by decide, by decide⟩

theorem witness_PrimitivesKeepTheRest : (goesTo (exec (.writeTransaction 0 0xEE 0 0) (ready []))).isSome = true ∧
    (goesTo (exec (.readTransaction 5 0xAA 9) (ready []))).isSome = true ∧ (3 : LineId) ≠ ((ready []).handle 0).dq := by
  decide +kernel

theorem witness_InvalidHandleGuardsPrimitives :
    ((ready []).handle 5).bound = false ∧ (ready []).busy 5 = false ∧ 16 ≤ 16 := by decide

theorem witness_WidthAbove16Refused : 16 < 17 := by decide

/-- Handle 0 is busy with a poll; lines 3, 4, 5 are no valid handle's. -/
theorem witness_SharedHandleRefused : handleOf (.readTempC 0) = some 0 ∧ (polling []).busy 0 = true ∧
    (Instr.readTempC 0).wellFormed = true ∧ ((polling []).handle 0).bound = true ∧
    handleOf (.init 0 3 4 5 0 0 0) = some 0 ∧ (Instr.init 0 3 4 5 0 0 0).wellFormed = true ∧
    (polling []).lineTaken 0 3 4 5 = false ∧ (Instr.writeTransaction 0 0xEE 0 16).wellFormed = true := by decide

theorem witness_WriteCommandsRunFrames : Ready 0 (ready []) := ready_ready []
theorem witness_ReadCommandsRunFrames : Ready 0 (ready []) := ready_ready []
theorem witness_api : Ready 0 (ready []) ∧ ((ready []).handle 5).bound = false := ⟨ready_ready [], by decide⟩
theorem witness_ReadTempCReturnsCelsius : Ready 0 (ready []) ∧ ((ready []).handle 5).bound = false := witness_api
theorem witness_ThresholdReadsReturnCelsius : Ready 0 (ready []) ∧ ((ready []).handle 5).bound = false := witness_api
theorem witness_ReadTempFReturnsFahrenheit : Ready 0 (ready []) ∧ ((ready []).handle 5).bound = false := witness_api
theorem witness_RawReadsReturnBits : Ready 0 (ready []) ∧ ((ready []).handle 5).bound = false := witness_api
theorem witness_ApiOperationsRunFrames : Ready 0 (ready []) := ready_ready []

theorem witness_WriteConfigSendsAndSettles : Ready 0 (ready []) ∧ ((ready []).handle 5).bound = false := witness_api
theorem witness_ThresholdWritesSendTwice : Ready 0 (ready []) ∧ ((ready []).handle 5).bound = false ∧
    127 < BitVec.toInt (128 : Word) ∧ IsCelsius (BitVec.ofNat 16 (2 * (128 : Word).toNat)) (-128) ∧
    BitVec.toInt (-129 : Word) < -128 ∧ IsCelsius (BitVec.ofNat 16 (2 * (-129 : Word).toNat)) 127 :=
  ⟨ready_ready [], by decide, by decide, by unfold IsCelsius; decide, by decide, by unfold IsCelsius; decide⟩

theorem witness_RawReadsApplyIdentity : Ready 0 (ready []) := ready_ready []
theorem witness_ThresholdWritesDoNotSettle : Ready 0 (ready []) ∧
    (∀ g c, Instr.writeHighC 0 30 ≠ .writeConfig g c) ∧
    (goesTo (exec (.writeHighC 0 30) (ready []))).isSome = true :=
  ⟨ready_ready [], fun _ _ e => (by cases e), by decide +kernel⟩

theorem witness_StartConversionStarts : Ready 0 (ready [false]) ∧ (ready [false]).drawAt 0 = false ∧
    Ready 0 (ready [true]) ∧ (ready [true]).drawAt 0 = true ∧ ((ready []).handle 5).bound = false :=
  ⟨ready_ready _, by decide, ready_ready _, by decide, by decide⟩

theorem witness_PollReadDecides : PollReady 0 (polling (List.replicate 8 true)) ∧
    (polling (List.replicate 8 true)).drawAt 7 = true ∧ PollReady 0 (polling (List.replicate 8 false)) ∧
    (polling (List.replicate 8 false)).drawAt 7 = false :=
  ⟨⟨rfl, rfl, rfl⟩, by decide, ⟨rfl, rfl, rfl⟩, by decide⟩

/-- The config read shows 1SHOT, the first poll read no DONE, the second DONE. -/
def twoPolls : List Bit := List.replicate 8 true ++ List.replicate 8 false ++ List.replicate 8 true

theorem witness_PollReturnsAtFirstDone : Ready 0 (ready twoPolls) ∧ (ready twoPolls).drawAt 0 = true ∧
    (∀ j, j < 1 → (ready twoPolls).drawAt (8 + 8 * j + 7) = false) ∧ (ready twoPolls).drawAt (8 + 8 * 1 + 7) = true ∧
    (ready (List.replicate 16 true)).drawAt 0 = true ∧ (ready (List.replicate 16 true)).drawAt (8 + 8 * 0 + 7) = true :=
  ⟨ready_ready _, by decide, by decide, by decide, by decide, by decide⟩

theorem witness_PollIsUnbounded : Ready 0 (ready twoPolls) ∧ (ready twoPolls).drawAt 0 = true ∧
    ∀ j, j < 1 → (ready twoPolls).drawAt (8 + 8 * j + 7) = false :=
  ⟨ready_ready _, by decide, by decide⟩

theorem witness_ThresholdRoundTrip : Ready 0 (ready []) := ready_ready []

theorem witness_InitBindsAndIdles : (ready []).busy 1 = false ∧
    (3 : LineId) ≠ 4 ∧ (3 : LineId) ≠ 5 ∧ (4 : LineId) ≠ 5 ∧
    ∀ g, g ≠ 1 → (ready []).holds g = true → ((ready []).handle g).owns 3 = false ∧
      ((ready []).handle g).owns 4 = false ∧ ((ready []).handle g).owns 5 = false :=
  ⟨by decide, by decide, by decide, by decide, fun g _ => witness_second_init g⟩

theorem witness_AliasedInitRefused : (0 : HandleId) ≠ 1 ∧ (ready []).holds 0 = true ∧
    ((ready []).handle 0).owns 0 = true ∧ ((ready []).handle 0).owns 1 = true ∧ ((ready []).handle 0).owns 2 = true ∧
    initIssued.holds 1 = true ∧ (initIssued.handle 1).owns 3 = true := by
  decide

/-- With handle 1's init in progress beside the valid handle 0 the state is safe. -/
theorem witness_safe_initIssued : Safe initIssued := by
  have H : ∀ h, initIssued.handle h = if h = 0 then board else if h = 1 then ⟨false, 3, 4, 5, 0, 0, 0⟩ else freshHandle := by
    intro h
    by_cases e : h = 0
    · subst e; rfl
    · by_cases f : h = 1
      · subst f; rfl
      · rw [if_neg e, if_neg f]
        show (Assoc.get h [(0, board), (1, _)]).getD freshHandle = _
        simp [Assoc.get, Ne.symm e, Ne.symm f]
  have T : ∀ h t, initIssued.task h = some t → h = 1 ∧ t = ⟨initActs, 0#16, .bind⟩ := by
    intro h t ht
    change Assoc.get h [(1, (⟨initActs, 0#16, .bind⟩ : Task))] = some t at ht
    by_cases f : h = 1
    · subst f; injection ht with ht; exact ⟨rfl, ht.symm⟩
    · simp [Assoc.get, Ne.symm f] at ht
  have K : ∀ h, initIssued.holds h = true → h = 0 ∨ h = 1 := by
    intro h hh
    by_contra c
    rw [not_or] at c
    have n : initIssued.task h = none := by
      rcases e : initIssued.task h with _ | t
      · rfl
      · exact absurd (T h t e).1 c.2
    rw [State.holds_of_idle n, H, if_neg c.1, if_neg c.2] at hh
    cases hh
  refine ⟨⟨by decide, by decide, by decide⟩, by decide, ⟨fun h hb => ?_, fun h g l hne hb hg ho => ?_⟩, fun h t ht => ?_,
    by decide, fun h t ht => ?_⟩
  · rcases K h hb with rfl | rfl <;> decide
  · have two : ∀ l, board.owns l = true → Handle.owns ⟨false, 3, 4, 5, 0, 0, 0⟩ l = false := fun l hl =>
      Handle.owns_other (by decide) (by decide) (by decide) l hl
    rcases K h hb with rfl | rfl <;> rcases K g hg with rfl | rfl
    · exact absurd rfl hne
    · exact two l ho
    · by_contra c
      have ho' : Handle.owns ⟨false, 3, 4, 5, 0, 0, 0⟩ l = true := ho
      rw [two l (show board.owns l = true from Bool.eq_true_of_not_eq_false c)] at ho'
      cases ho'
    · exact absurd rfl hne
  · rw [(T h t ht).1]; exact .inl (by decide)
  · rw [(T h t ht).2]; decide

theorem witness_HeldLinesAreExclusive : Safe initIssued ∧ (0 : HandleId) ≠ 1 ∧ initIssued.holds 0 = true ∧
    initIssued.holds 1 = true ∧ (goesTo (eventTurn 1 initIssued)).isSome = true ∧
    (goesTo (resumeTurn 1 initIssued)).isSome = true ∧ (goesTo (exec (.readTempC 0) initIssued)).isSome = true ∧
    (goesTo (issueInstr (.readTempC 0) initIssued)).isSome = true :=
  ⟨witness_safe_initIssued, by decide, by decide, by decide, by decide, by decide, by decide +kernel, by decide⟩

theorem witness_ReleaseUnbindsOnly : (ready []).busy 0 = false ∧ ((ready []).handle 0).bound = true ∧
    (ready []).busy 5 = false ∧ ((ready []).handle 5).bound = false := by decide

theorem witness_ToFReturnsOrRefuses : (-3640 : Int) ≤ BitVec.toInt (-3640 : Word) ∧ BitVec.toInt (3623 : Word) ≤ 3623 ∧
    BitVec.toInt (-3641 : Word) < -3640 ∧ 3623 < BitVec.toInt (3624 : Word) := by decide

end Sys2Proof.Tests
end

section
/-! PROOFS. The order of the bits on the wire (20_memory.md R37): what a ready primitive answers, what the trace of a
frame clocks out on DQ and what it samples, and the statement LeastSignificantBitFirst. -/

namespace Sys2Proof.Proofs

open Sys2Proof.Machine Sys2Proof.Safety

/-! ## What a ready primitive answers -/

/-- On a ready handle a primitive of an admitted width starts its own frame, not the guard's. -/
theorem primitiveCall_of_ready {h : HandleId} {w : Nat} {s : State} (hr : Ready h s) (hw : w ≤ 16) (acts : List Act)
    (k : Result) : primitiveCall h w acts k s = .started h ⟨acts, 0#16, .returns k⟩ s := by
  have hw' : ¬ Config.maxWidth < w := Nat.not_lt.mpr hw
  simp [primitiveCall, hw', hr.free, hr.bound]

/-- A ready writeTransaction runs its events and returns nothing (40_transaction_engine.md R66). -/
theorem exec_writeTransaction_of_ready {h : HandleId} {w : Nat} {s : State} (hr : Ready h s) (hw : w ≤ 16) (cmd : Byte)
    (pay : Word) : exec (.writeTransaction h cmd pay w) s =
      .next ((runActs h (writeActs cmd pay w) ⟨0#16, s⟩).st.logReturn (some h) (.done none)) := by
  have hc : callOf (.writeTransaction h cmd pay w) s = .started h ⟨writeActs cmd pay w, 0#16, .returns .nothing⟩ s :=
    primitiveCall_of_ready hr hw _ _
  rw [exec_eq_run, hc]; rfl

/-- A ready readTransaction runs its events and returns its accumulator (R67). -/
theorem exec_readTransaction_of_ready {h : HandleId} {w : Nat} {s : State} (hr : Ready h s) (hw : w ≤ 16) (cmd : Byte) :
    exec (.readTransaction h cmd w) s =
      .next ((runActs h (readActs cmd w) ⟨0#16, s⟩).st.logReturn (some h)
        (.done (some (runActs h (readActs cmd w) ⟨0#16, s⟩).acc))) := by
  have hc : callOf (.readTransaction h cmd w) s = .started h ⟨readActs cmd w, 0#16, .returns .raw⟩ s :=
    primitiveCall_of_ready hr hw _ _
  rw [exec_eq_run, hc]; rfl

/-- A ready writeTransaction ran the spec's write trace (R66). -/
theorem writeTransaction_ran {h : HandleId} {w : Nat} {s : State} (hr : Ready h s) (hw : w ≤ 16) (cmd : Byte)
    (pay : Word) : ∃ t, exec (.writeTransaction h cmd pay w) s = .next t ∧
      Ran h (writeEvents (s.handle h) s.params.tUnitUs cmd pay w) 0 (.done none) s t := by
  refine ⟨_, exec_writeTransaction_of_ready hr hw cmd pay, ?_⟩
  have ran := ran_runActs h (writeActs cmd pay w) 0#16 s (.done none) (fun x => exclAfter_writeActs x cmd pay w)
  rwa [eventsFrom_writeActs, samplesIn_writeActs] at ran

/-- A ready readTransaction ran the spec's read trace and returned a word that holds the draws (R67, R55). -/
theorem readTransaction_ran {h : HandleId} {w : Nat} {s : State} (hr : Ready h s) (hw : w ≤ 16) (cmd : Byte) :
    ∃ t v, exec (.readTransaction h cmd w) s = .next t ∧ HoldsDraws s w v ∧
      Ran h (readEvents (s.handle h) s.params.tUnitUs cmd (drawnBits s w)) w (.done (some v)) s t := by
  refine ⟨_, _, exec_readTransaction_of_ready hr hw cmd, fun i _ => runActs_readActs_acc h cmd w hw s i, ?_⟩
  have ran := ran_runActs h (readActs cmd w) 0#16 s (.done (some (runActs h (readActs cmd w) ⟨0#16, s⟩).acc))
    (fun x => exclAfter_readActs x cmd w)
  simpa only [eventsFrom_readActs, samplesIn_readActs, drawnBits, Nat.zero_add] using ran

/-! ## What a frame's trace clocks out on DQ -/

/-- A drive of RST is neither a level of DQ nor an edge of CLK. -/
theorem clockedBits_drive_rst {g : Handle} (hd : g.distinct = true) (dq b : Bit) (es : List Event) :
    clockedBits g dq (.drive g.rst b :: es) = clockedBits g dq es := by
  have hrd : g.rst ≠ g.dq := (Handle.line_injective hd (p := .rst) (q := .dq)).not.mpr (by decide)
  have hrc : g.rst ≠ g.clk := (Handle.line_injective hd (p := .rst) (q := .clk)).not.mpr (by decide)
  simp [clockedBits, hrd, hrc]

/-- Entering the region and asserting RST shows nothing (R66, R67). -/
theorem clockedBits_frameStart {g : Handle} (hd : g.distinct = true) (dq : Bit) (es : List Event) :
    clockedBits g dq ([.exclEnter, .drive g.rst true] ++ es) = clockedBits g dq es :=
  clockedBits_drive_rst hd dq true es

/-- A write cell shows its bit at its one rising edge and leaves it on DQ (R64). -/
theorem clockedBits_writeCell {g : Handle} (hd : g.distinct = true) (unit : Nat) (dq b : Bit) (es : List Event) :
    clockedBits g dq (writeCellEvents g unit b ++ es) = b :: clockedBits g b es := by
  have hcd : g.clk ≠ g.dq := (Handle.line_injective hd (p := .clk) (q := .dq)).not.mpr (by decide)
  simp [writeCellEvents, clockedBits, hcd]

/-- Write cells show their bits in order and leave the last on DQ. -/
theorem clockedBits_writeCells {g : Handle} (hd : g.distinct = true) (unit : Nat) (bits : List Bit) (dq : Bit)
    (es : List Event) : clockedBits g dq (bits.flatMap (writeCellEvents g unit) ++ es) =
      bits ++ clockedBits g (bits.getLastD dq) es := by
  induction bits generalizing dq with
  | nil => rfl
  | cons b bits ih =>
    rw [List.flatMap_cons, List.append_assoc, clockedBits_writeCell hd, ih, List.getLastD_cons, List.cons_append]

/-- A write frame shows the command's bits and then the payload's, bit 0 first, and nothing at its end. -/
theorem clockedBits_writeEvents {g : Handle} (hd : g.distinct = true) (unit : Nat) (cmd : Byte) (pay : Word) (w : Nat)
    (dq : Bit) : clockedBits g dq (writeEvents g unit cmd pay w) = lowBits cmd 8 ++ lowBits pay w := by
  have close : ∀ d, clockedBits g d ((if w = 0 then [] else [.drive g.rst false]) ++ [.exclExit]) = [] := by
    intro d
    split_ifs
    · rfl
    · exact clockedBits_drive_rst hd d false _
  rw [writeEvents, List.append_assoc, List.append_assoc, clockedBits_frameStart hd, clockedBits_writeCells hd, close,
    List.append_nil]

/-- A read frame shows the command's bits, bit 0 first, before any other. -/
theorem clockedBits_readEvents {g : Handle} (hd : g.distinct = true) (unit : Nat) (cmd : Byte) (bits : List Bit)
    (dq : Bit) : ∃ later, clockedBits g dq (readEvents g unit cmd bits) = lowBits cmd 8 ++ later := by
  simp only [readEvents, writeEvents, List.append_assoc, clockedBits_frameStart hd, clockedBits_writeCells hd]
  exact ⟨_, rfl⟩

/-! ## What a frame's trace samples -/

@[simp] theorem sampledBits_append (es fs : List Event) : sampledBits (es ++ fs) = sampledBits es ++ sampledBits fs := by
  induction es with
  | nil => rfl
  | cons e es ih => cases e <;> simp [sampledBits, ih]

theorem sampledBits_writeCells (g : Handle) (unit : Nat) (bits : List Bit) :
    sampledBits (bits.flatMap (writeCellEvents g unit)) = [] := by
  induction bits with
  | nil => rfl
  | cons b bits ih => rw [List.flatMap_cons, sampledBits_append, ih]; rfl

theorem sampledBits_readCells (g : Handle) (unit : Nat) (bits : List Bit) :
    sampledBits (bits.flatMap (readCellEvents g unit)) = bits := by
  induction bits with
  | nil => rfl
  | cons b bits ih => rw [List.flatMap_cons, sampledBits_append, ih]; rfl

/-- A write frame samples nothing. -/
theorem sampledBits_writeEvents (g : Handle) (unit : Nat) (cmd : Byte) (pay : Word) (w : Nat) :
    sampledBits (writeEvents g unit cmd pay w) = [] := by
  by_cases e : w = 0 <;> simp [writeEvents, sampledBits_writeCells, sampledBits, e]

/-- A read frame samples its data cells' bits, in order. -/
theorem sampledBits_readEvents (g : Handle) (unit : Nat) (cmd : Byte) (bits : List Bit) :
    sampledBits (readEvents g unit cmd bits) = bits := by
  simp [readEvents, sampledBits_writeEvents, sampledBits_readCells, sampledBits]

/-! ## Bit order -/

theorem length_lowBits {n : Nat} (v : BitVec n) (w : Nat) : (lowBits v w).length = w := by simp [lowBits]

/-- Bits 0 to `w - 1` of a word that holds `w` draws are those draws, in wire order. -/
theorem lowBits_of_holdsDraws {s : State} {w : Nat} {v : Word} (hw : w ≤ 16) (hv : HoldsDraws s w v) :
    lowBits v w = drawnBits s w := by
  refine List.map_congr_left fun i hi => ?_
  have hi : i < w := List.mem_range.mp hi
  simp [hv i (by omega), hi]

/-- Settles O27: the trace of either primitive is the spec's, and that trace clocks out and samples in bit order. -/
theorem leastSignificantBitFirst : Obligations.LeastSignificantBitFirst := by
  intro h cmd pay w s hr hw
  constructor
  · obtain ⟨t, ht, ran⟩ := writeTransaction_ran hr hw cmd pay
    exact ⟨t, _, ht, ran.trace, clockedBits_writeEvents hr.distinct _ cmd pay w _⟩
  · obtain ⟨t, v, ht, hv, ran⟩ := readTransaction_ran hr hw cmd
    refine ⟨t, _, v, ht, ran.trace, ran.returned, ?_, ?_⟩
    · obtain ⟨later, hl⟩ := clockedBits_readEvents hr.distinct s.params.tUnitUs cmd (drawnBits s w) (s.outOf h .dq)
      rw [hl, List.take_left' (length_lowBits cmd 8)]
    · rw [sampledBits_readEvents, lowBits_of_holdsDraws hw hv]

end Sys2Proof.Proofs
end

section
/-! PROOFS. The raw reads of the register API (42_temperature_codec.md R90): on a ready handle each is the call of
readTransaction itself, and the statement RawReadsApplyIdentity. -/

namespace Sys2Proof.Proofs

open Sys2Proof.Machine Sys2Proof.Safety

/-- On a ready handle a register-API operation starts its events; neither its guard nor a refusal answers. -/
theorem apiCall_of_ready {h : HandleId} {s : State} (hr : Ready h s) (acts : List Act) (k : Result) (f : Finish) :
    apiCall h acts k f s = .started h ⟨acts, 0#16, f⟩ s := by
  simp [apiCall, hr.bound, hr.free]

/-- No command's width exceeds nine bits (30_encoding.md R50). -/
theorem width_le_nine (c : Command) : c.width ≤ 9 := by cases c <;> decide

/-- On a ready handle a raw read of a command's register is readTransaction's call: it applies the identity (R90). -/
theorem apiRead_raw_eq_readCall {h : HandleId} {s : State} (hr : Ready h s) (c : Command) :
    apiRead h c .raw s = readCall h (s.code c) c.width s := by
  have hw : c.width ≤ 16 := (width_le_nine c).trans (by decide)
  rw [apiRead, readCall, apiCall_of_ready hr, primitiveCall_of_ready hr hw]

/-- A ready readTransaction narrower than a word returns its draws as an unsigned value of its width (R55, R67). -/
theorem answersTheRead_readTransaction {h : HandleId} {w : Nat} {s : State} (hr : Ready h s) (hw : w < 16) (cmd : Byte) :
    AnswersTheRead h cmd w (2 ^ w - 1) s (exec (.readTransaction h cmd w) s) := by
  obtain ⟨u, v, hu, hv, ran⟩ := readTransaction_ran hr hw.le cmd
  obtain ⟨-, hsign, hlt⟩ := isRaw_of_holdsDraws hw hv
  exact ⟨u, v, hu, hu, ran.returned, hv, hsign, Nat.le_sub_one_of_lt hlt⟩

/-- A raw read of any command's register answers the state in which its readTransaction returned. -/
theorem answersTheRead_apiRead_raw {h : HandleId} {s : State} (hr : Ready h s) (c : Command) :
    AnswersTheRead h (s.code c) c.width (2 ^ c.width - 1) s (apiRead h c .raw s).run := by
  have hw : c.width < 16 := (width_le_nine c).trans_lt (by decide)
  rw [apiRead_raw_eq_readCall hr]
  exact answersTheRead_readTransaction hr hw (s.code c)

/-- Settles O54: the four operations are the raw reads of READ_TEMP, READ_COUNTER, READ_SLOPE and READ_CONFIG. -/
theorem rawReadsApplyIdentity : Obligations.RawReadsApplyIdentity := by
  intro h s hr
  have raw := answersTheRead_apiRead_raw hr
  exact ⟨raw .readTemp, raw .readCounter, raw .readSlope, raw .readConfig⟩

end Sys2Proof.Proofs
end

section
/-! PROOFS. The settle delay (70_reset_and_hazards.md R114, R115): a threshold write is the call of writeTransaction itself;
what a call may start and what then reaches the trace; and the statement ThresholdWritesDoNotSettle. -/

namespace Sys2Proof.Proofs

open Sys2Proof.Machine Sys2Proof.Safety

/-! ## A write with nothing after its frame -/

/-- On a ready handle a register write with nothing after it is writeTransaction's call (R72, R115). -/
theorem apiWrite_nil_eq_writeCall {h : HandleId} {s : State} (hr : Ready h s) (c : Command) (pay : Word) :
    apiWrite h c pay [] s = writeCall h (s.code c) pay c.width s := by
  have hw : c.width ≤ 16 := (width_le_nine c).trans (by decide)
  rw [apiWrite, writeCall, apiCall_of_ready hr, primitiveCall_of_ready hr hw, List.append_nil]

/-- Such a write answers the state in which its frame ended. -/
theorem answersAWrite_apiWrite_nil {h : HandleId} {s : State} (hr : Ready h s) (c : Command) (pay : Word) :
    AnswersAWrite h (s.code c) c.width s (apiWrite h c pay [] s).run := by
  have hw : c.width ≤ 16 := (width_le_nine c).trans (by decide)
  obtain ⟨u, hu, ran⟩ := writeTransaction_ran hr hw (s.code c) pay
  rw [apiWrite_nil_eq_writeCall hr]
  exact ⟨pay, u, hu, hu, ran.returned⟩

/-! ## Which acts put a DelayMs into the trace -/

/-- Only the settle act's event is a DelayMs (00_scope.md R14). -/
theorem eq_delaySettle_of_event_eq_delayMs {g : Handle} {p : Params} {b : Bit} {a : Act} {n : Nat}
    (e : a.event g p b = .delayMs n) : a = .delaySettle := by
  cases a <;> simp [Act.event] at e ⊢

/-- Every event of a list of acts is the event of one of them. -/
theorem exists_act_of_mem_eventsFrom {g : Handle} {p : Params} {draw : Nat → Bit} {e : Event} {as : List Act} {k : Nat}
    (he : e ∈ eventsFrom g p draw k as) : ∃ a ∈ as, ∃ b, a.event g p b = e := by
  induction as generalizing k with
  | nil => cases he
  | cons a as ih =>
    rcases List.mem_cons.mp he with rfl | he
    · exact ⟨a, List.mem_cons_self, _, rfl⟩
    · obtain ⟨a', ha', hb⟩ := ih he
      exact ⟨a', List.mem_cons_of_mem a ha', hb⟩

/-- Acts without a settle have no DelayMs among their events. -/
theorem delayMs_notMem_eventsFrom {as : List Act} (ha : .delaySettle ∉ as) (g : Handle) (p : Params) (draw : Nat → Bit)
    (k n : Nat) : .delayMs n ∉ eventsFrom g p draw k as := by
  intro hm
  obtain ⟨a, hmem, b, e⟩ := exists_act_of_mem_eventsFrom hm
  exact ha (eq_delaySettle_of_event_eq_delayMs e ▸ hmem)

/-- A write frame holds no settle (R66). -/
theorem delaySettle_notMem_writeActs (cmd : Byte) (pay : Word) (w : Nat) : .delaySettle ∉ writeActs cmd pay w := by
  by_cases e : w = 0 <;> simp [writeActs, commandCells, payloadCells, writeCell, closeWrite, e]

/-- A read frame holds no settle (R67). -/
theorem delaySettle_notMem_readActs (cmd : Byte) (w : Nat) : .delaySettle ∉ readActs cmd w := by
  simp [readActs, delaySettle_notMem_writeActs, sampleCells, readCell]

/-- A primitive's frame holds no settle. -/
theorem delaySettle_notMem_of_primitiveActs {w : Nat} {acts : List Act} {k : Result} (hp : PrimitiveActs w acts k) :
    .delaySettle ∉ acts := by
  cases hp with
  | write cmd pay => exact delaySettle_notMem_writeActs cmd pay w
  | read cmd => exact delaySettle_notMem_readActs cmd w

/-! ## What a call adds to the trace -/

/-- The trace grew from `s` to `t` by events none of which is a DelayMs. -/
def GrowsWithoutDelayMs (s t : State) : Prop :=
  ∃ es, t.trace = s.trace ++ es ∧ ∀ (g : HandleId) (n : Nat), ⟨g, .delayMs n⟩ ∉ es

/-- The call, made in `s`, has added no event yet and starts no operation that settles. -/
inductive StartsNoSettle (s : State) : Call → Prop
  | refuse (r : Refusal) : StartsNoSettle s (.refuse r)
  | ended (u : State) (ht : u.trace = s.trace) : StartsNoSettle s (.ended u)
  | started (h : HandleId) (k : Task) (u : State) (ht : u.trace = s.trace) (ha : .delaySettle ∉ k.acts) :
      StartsNoSettle s (.started h k u)

/-- However an operation ends or goes on, that adds no event. -/
theorem finish_trace {h : HandleId} {f : Finish} {r : Run} {t : State} (e : finish h f r = .next t) :
    t.trace = r.st.trace := by
  rcases finish_cases h f r with e' | ⟨v, e'⟩ | ⟨-, e'⟩ | ⟨-, e'⟩ <;> cases e'.symm.trans e <;> rfl

/-- Run whole, a call that starts no settle adds no DelayMs. -/
theorem StartsNoSettle.run_grows {s t : State} {c : Call} (hc : StartsNoSettle s c) (e : c.run = .next t) :
    GrowsWithoutDelayMs s t := by
  cases hc with
  | refuse r => cases e
  | ended u ht =>
    cases e
    exact ⟨[], by simp [ht], by simp⟩
  | started h k u ht ha =>
    refine ⟨_, by rw [finish_trace e, runActs_trace, ht], fun g n hm => ?_⟩
    obtain ⟨ev, hev, hen⟩ := List.mem_map.mp hm
    cases hen
    exact delayMs_notMem_eventsFrom ha _ _ _ _ _ hev

/-- A primitive call settles only in its own acts: the guard of an invalid handle has no delay (R62). -/
theorem startsNoSettle_primitiveCall {acts : List Act} (ha : .delaySettle ∉ acts) (h : HandleId) (w : Nat) (k : Result)
    (s : State) : StartsNoSettle s (primitiveCall h w acts k s) := by
  rw [primitiveCall]
  split_ifs
  · exact .refuse _
  · exact .refuse _
  · exact .started _ _ _ rfl ha
  · exact .started _ _ _ rfl (by simp [guardActs])

/-- A register-API call settles only in its own acts: its no-op adds no event (R71). -/
theorem startsNoSettle_apiCall {acts : List Act} (ha : .delaySettle ∉ acts) (h : HandleId) (k : Result) (f : Finish)
    (s : State) : StartsNoSettle s (apiCall h acts k f s) := by
  rw [apiCall]
  split_ifs
  · exact .refuse _
  · exact .started _ _ _ rfl ha
  · exact .ended _ rfl

theorem startsNoSettle_apiRead (h : HandleId) (c : Command) (k : Result) (s : State) :
    StartsNoSettle s (apiRead h c k s) :=
  startsNoSettle_apiCall (delaySettle_notMem_readActs _ _) h k (.returns k) s

/-- A register write settles only after its frame: with nothing there, never (R115). -/
theorem startsNoSettle_apiWrite_nil (h : HandleId) (c : Command) (pay : Word) (s : State) :
    StartsNoSettle s (apiWrite h c pay [] s) :=
  startsNoSettle_apiCall (by simp [delaySettle_notMem_writeActs]) h .nothing (.returns .nothing) s

/-- startConversion is two frames and polls, with no settle between them (R74). -/
theorem startsNoSettle_callStartConversion (h : HandleId) (s : State) : StartsNoSettle s (callStartConversion h s) :=
  startsNoSettle_apiCall (by simp [delaySettle_notMem_writeActs, delaySettle_notMem_readActs]) h .nothing .testOneShot s

theorem startsNoSettle_codecCall (v : Option Word) (s : State) : StartsNoSettle s (codecCall v s) := by
  cases v with
  | none => exact .refuse _
  | some x => exact .ended _ rfl

/-- init writes the record, which is no event, and starts six events without a delay (R106). -/
theorem startsNoSettle_callInit (h : HandleId) (clk dq rst : LineId) (pOut pDir pIn : PortRef) (s : State) :
    StartsNoSettle s (callInit h clk dq rst pOut pDir pIn s) := by
  rw [callInit]
  split_ifs
  · exact .refuse _
  · exact .refuse _
  · exact .started _ _ _ rfl (by simp [initActs])

/-- release has no event (R107). -/
theorem startsNoSettle_callRelease (h : HandleId) (s : State) : StartsNoSettle s (callRelease h s) := by
  rw [callRelease]
  split_ifs
  · exact .refuse _
  · exact .ended _ rfl
  · exact .ended _ rfl

/-- No register-API operation but writeConfig starts a settle (R114). -/
theorem startsNoSettle_callOf_of_isApi {i : Instr} (hapi : isApi i = true) (hi : ∀ g c, i ≠ .writeConfig g c) (s : State) :
    StartsNoSettle s (callOf i s) := by
  cases i with
  | readTempC | readTempF | readTempRaw | readHighC | readLowC | readCounter | readSlope | readConfig =>
    exact startsNoSettle_apiRead ..
  | writeHighC | writeLowC => exact startsNoSettle_apiWrite_nil ..
  | writeConfig h c => exact absurd rfl (hi h c)
  | startConversion h => exact startsNoSettle_callStartConversion h s
  | _ => cases hapi

/-- No instruction but writeConfig starts a settle; the row WRITE_CONFIG is a primitive's frame alone (R114, log entry 2). -/
theorem startsNoSettle_callOf {i : Instr} (hi : ∀ g c, i ≠ .writeConfig g c) (s : State) :
    StartsNoSettle s (callOf i s) := by
  rcases callShape i s with ⟨h, w, acts, k, -, -, -, hp, hc⟩ | ⟨-, -, -, -, -, hapi, -, -, -⟩ |
    ⟨h, clk, dq, rst, a, b, c, rfl⟩ | ⟨h, rfl⟩ | ⟨v, -, -, hc⟩
  · rw [hc]
    exact startsNoSettle_primitiveCall (delaySettle_notMem_of_primitiveActs hp) h w k s
  · exact startsNoSettle_callOf_of_isApi hapi hi s
  · exact startsNoSettle_callInit h clk dq rst a b c s
  · exact startsNoSettle_callRelease h s
  · rw [hc]
    exact startsNoSettle_codecCall v s

/-- Settles O55: a threshold write is its frame's own call, and no call but writeConfig's starts a settle. -/
theorem thresholdWritesDoNotSettle : Obligations.ThresholdWritesDoNotSettle := by
  refine ⟨fun h t s hr => ?_, fun i s t hi e => ?_⟩
  · exact ⟨answersAWrite_apiWrite_nil hr .writeHTemp (thresholdPayload t),
      answersAWrite_apiWrite_nil hr .writeLTemp (thresholdPayload t)⟩
  · rw [exec_eq_run] at e
    exact (startsNoSettle_callOf hi s).run_grows e

end Sys2Proof.Proofs
end

section
/-! PROOFS. The encoding (30_encoding.md R50, R51): the decoder undoes the encoder, and the rows of the opcode table cover
disjoint sets of words. -/

namespace Sys2Proof.Proofs

/-! ## Decoding what was encoded -/

/-- The decoder hands a word's row, the word and its operand words to the row's own decoder. -/
theorem decode_of_row {n : Nat} {w : OpWord} {r : Row} (hw : opWord n = .ok w) (hr : rowOf w = some r)
    (args : List Nat) : decode (n :: args) = decodeRow r w args := by
  simp [decode, hw, hr]

/-- A word under a row's pattern with a payload byte decodes as that row. -/
theorem decode_withWireByte (pat : OpWord) {r : Row} (hrow : ∀ x : Byte, rowOf (pat + x.setWidth 18) = some r)
    (hlt : pat.toNat + 255 < 2 ^ 18) (b : Byte) (args : List Nat) :
    decode (withWireByte pat.toNat b :: args) = decodeRow r (BitVec.ofNat 18 (withWireByte pat.toNat b)) args := by
  obtain ⟨hw, hr⟩ := opWord_withWireByte pat b r hrow hlt
  exact decode_of_row hw hr args

/-- A writeConfig word gives back its byte (R57). -/
theorem decode_encode_writeConfig (h : HandleId) (c : Byte) :
    decode (encode (.writeConfig h c)) = .ok (.writeConfig h c) := by
  refine (decode_withWireByte 0x3000#18 rowOf_writeConfig (by decide) c [h]).trans ?_
  rw [decodeRow, wireByte_withWireByte 0x3000#18 c rfl]

/-- A writeHighC word and its operand give back the threshold (R56, R57). -/
theorem decode_encode_writeHighC (h : HandleId) (t : Word) : decode (encode (.writeHighC h t)) = .ok (.writeHighC h t) := by
  refine (decode_withWireByte 0x10000#18 rowOf_writeHighC (by decide) (t.setWidth 8) [h, (t >>> 8).toNat]).trans ?_
  rw [decodeRow, byteOperand_high, Except.map, thresholdOf_withWireByte 0x10000#18 t rfl]

/-- A writeLowC word and its operand give back the threshold (R56, R57). -/
theorem decode_encode_writeLowC (h : HandleId) (t : Word) : decode (encode (.writeLowC h t)) = .ok (.writeLowC h t) := by
  refine (decode_withWireByte 0x8000#18 rowOf_writeLowC (by decide) (t.setWidth 8) [h, (t >>> 8).toNat]).trans ?_
  rw [decodeRow, byteOperand_high, Except.map, thresholdOf_withWireByte 0x8000#18 t rfl]

/-- A 16-bit operand word goes into the instruction as it is. -/
theorem map_wordOperand {α : Type} (f : Word → α) (v : Word) : (wordOperand v.toNat).map f = .ok (f v) := by
  rw [wordOperand_toNat, Except.map]

/-- An 8-bit operand word goes into the instruction as it is. -/
theorem map_byteOperand {α : Type} (f : Byte → α) (b : Byte) : (byteOperand b.toNat).map f = .ok (f b) := by
  rw [byteOperand_toNat, Except.map]

/-- writeTransaction's request gives back its command and its payload (R57). -/
theorem decode_encode_writeTransaction (h : HandleId) (cmd : Byte) (p : Word) (w : Nat) :
    decode (encode (.writeTransaction h cmd p w)) = .ok (.writeTransaction h cmd p w) := by
  refine (decode_of_row (r := .writeTransaction) rfl rfl [h, cmd.toNat, p.toNat, w]).trans ?_
  rw [decodeRow, byteOperand_toNat, wordOperand_toNat]

/-- Settles O1: a fixed word names its row, and a payload byte and an operand word read back. -/
theorem decodeEncodeRoundTrip : Obligations.DecodeEncodeRoundTrip := by
  intro i
  cases i with
  | cmdWriteHTemp h p => exact map_wordOperand (Instr.cmdWriteHTemp h) p
  | cmdWriteLTemp h p => exact map_wordOperand (Instr.cmdWriteLTemp h) p
  | cmdWriteConfig h p => exact map_wordOperand (Instr.cmdWriteConfig h) p
  | writeTransaction h cmd p w => exact decode_encode_writeTransaction h cmd p w
  | readTransaction h cmd w => exact map_byteOperand (Instr.readTransaction h · w) cmd
  | decodeC r => exact map_wordOperand Instr.decodeC r
  | toF c => exact map_wordOperand Instr.toF c
  | encodeT t => exact map_wordOperand Instr.encodeT t
  | writeConfig h c => exact decode_encode_writeConfig h c
  | writeHighC h t => exact decode_encode_writeHighC h t
  | writeLowC h t => exact decode_encode_writeLowC h t
  | _ => rfl

/-! ## Rows that never overlap -/

/-- Two rows of one word agree wherever both of them look. -/
theorem pattern_agree_of_covers {w : OpWord} {r q : OpcodeRow} (hr : r.covers w = true) (hq : q.covers w = true) :
    r.pattern &&& q.mask = q.pattern &&& r.mask := by
  rw [OpcodeRow.covers, decide_eq_true_eq] at hr hq
  rw [← hr, ← hq, BitVec.and_assoc, BitVec.and_assoc, BitVec.and_comm r.mask]

/-- Any two rows of the table differ at a bit where both of them look (R51). -/
theorem opcodeRows_eq_of_agree : ∀ r ∈ opcodeRows, ∀ q ∈ opcodeRows,
    r.pattern &&& q.mask = q.pattern &&& r.mask → r = q := by decide +kernel

/-- Settles O2: rows of one word agree where both look, and different rows do not. -/
theorem opcodeRowsNeverOverlap : Obligations.OpcodeRowsNeverOverlap := by
  intro w r q hr hq cr cq
  exact opcodeRows_eq_of_agree r hr q hq (pattern_agree_of_covers cr cq)

/-- Settles O3: the five words are closed, and the decoder runs on each. -/
theorem tableWordsDecode : Obligations.TableWordsDecode := by
  unfold Obligations.TableWordsDecode
  decide +kernel

end Sys2Proof.Proofs
end

section
/-! PROOFS. What a call can be (60_exceptions.md R95, R97): the operation it starts and on which handle, when it is refused,
and that nothing else stops it. -/

namespace Sys2Proof.Proofs

open Sys2Proof.Machine Sys2Proof.Safety

/-! ## What a call can be -/

/-- The events an operation on a valid handle starts, init aside, and what follows the last: one write frame, one read
frame, writeConfig's frame and delay, or startConversion's two frames. -/
inductive FrameActs : List Act → Finish → Prop
  | write (cmd : Byte) (pay : Word) (w : Nat) : FrameActs (writeActs cmd pay w) (.returns .nothing)
  | read (cmd : Byte) (w : Nat) (k : Result) : FrameActs (readActs cmd w) (.returns k)
  | settle (cmd : Byte) (pay : Word) (w : Nat) : FrameActs (writeActs cmd pay w ++ [.delaySettle]) (.returns .nothing)
  | start (c d : Byte) : FrameActs (writeActs c noPayload 0 ++ readActs d 8) .testOneShot

/-- What the call of an instruction can be. -/
inductive CallCases (i : Instr) (s : State) : Call → Prop
  | refuse (r : Refusal) (hr : r = .widthTooLarge ∨ r = .fahrenheitOverflow ∨ r = .sharedHandle ∨ r = .aliasedLines) :
      CallCases i s (.refuse r)
  | ended (v : Ending) : CallCases i s (.ended (s.logReturn (handleOf i) v))
  | released (h : HandleId) (hi : handleOf i = some h) (hf : s.task h = none) :
      CallCases i s (.ended ((s.setHandle h { s.handle h with bound := false }).logReturn (some h) (.done none)))
  | guarded (h : HandleId) (hi : handleOf i = some h) (hf : s.task h = none) (k : Result) :
      CallCases i s (.started h ⟨guardActs, 0#16, .guarded k⟩ s)
  | frame (h : HandleId) (hi : handleOf i = some h) (hf : s.task h = none) (hb : (s.handle h).bound = true)
      (as : List Act) (f : Finish) (ha : FrameActs as f) : CallCases i s (.started h ⟨as, 0#16, f⟩ s)
  | init (h : HandleId) (clk dq rst : LineId) (a b c : PortRef) (hi : handleOf i = some h) (hf : s.task h = none)
      (ha : s.aliased h clk dq rst = false) :
      CallCases i s (.started h ⟨initActs, 0#16, .bind⟩ (s.setHandle h ⟨(s.handle h).bound, clk, dq, rst, a, b, c⟩))

theorem task_of_not_busy {s : State} {h : HandleId} (hf : ¬ s.busy h = true) : s.task h = none := by
  simpa [State.busy] using hf

theorem frameActs_of_primitiveActs {w : Nat} {as : List Act} {k : Result} (hp : PrimitiveActs w as k) :
    FrameActs as (.returns k) := by
  cases hp with
  | write cmd pay => exact .write cmd pay w
  | read cmd => exact .read cmd w .raw

theorem frameActs_of_apiActs {s : State} {as : List Act} {k : Result} {f : Finish} (ha : ApiActs s as k f) :
    FrameActs as f := by
  cases ha with
  | read c k hc => exact .read _ _ k
  | write c pay hc => rw [List.append_nil]; exact .write _ pay _
  | settle c pay hc => exact .settle _ pay _
  | start => exact .start _ _

/-- Every instruction's call is one of these. -/
theorem callCases (i : Instr) (s : State) : CallCases i s (callOf i s) := by
  rcases callShape i s with ⟨h, w, as, k, hi, -, -, hp, hc⟩ | ⟨h, as, k, f, hi, -, -, ha, hc⟩ |
    ⟨h, clk, dq, rst, a, b, c, rfl⟩ | ⟨h, rfl⟩ | ⟨v, hi, -, hc⟩
  · rw [hc, primitiveCall]
    split_ifs with hw hf hb
    · exact .refuse _ (.inl rfl)
    · exact .refuse _ (.inr (.inr (.inl rfl)))
    · exact .frame h hi (task_of_not_busy hf) hb as _ (frameActs_of_primitiveActs hp)
    · exact .guarded h hi (task_of_not_busy hf) k
  · rw [hc, apiCall]
    split_ifs with hb hf
    · exact .refuse _ (.inr (.inr (.inl rfl)))
    · exact .frame h hi (task_of_not_busy hf) hb as f (frameActs_of_apiActs ha)
    · rw [← hi]; exact .ended _
  · rw [callOf, callInit]
    split_ifs with ha hf
    · exact .refuse _ (.inr (.inr (.inr rfl)))
    · exact .refuse _ (.inr (.inr (.inl rfl)))
    · exact .init h clk dq rst a b c rfl (task_of_not_busy hf) (by simpa using ha)
  · rw [callOf, callRelease]
    split_ifs with hf hb
    · exact .refuse _ (.inr (.inr (.inl rfl)))
    · exact .released h rfl (task_of_not_busy hf)
    · exact .ended _
  · rw [hc]
    cases v with
    | none => exact .refuse _ (.inr (.inl rfl))
    | some x => rw [codecCall, ← hi]; exact .ended _

/-- A call starts an operation on the handle of its instruction. -/
theorem handleOf_of_started {i : Instr} {s u : State} {h : HandleId} {k : Task} (hc : callOf i s = .started h k u) :
    handleOf i = some h := by
  have shape := callCases i s
  rw [hc] at shape
  cases shape with
  | guarded _ hi _ _ => exact hi
  | frame _ hi _ _ _ _ _ => exact hi
  | init _ _ _ _ _ _ _ hi _ _ => exact hi

/-! ## Refusals -/

/-- A call is refused for one of the spec's four reasons (R95). -/
theorem refusal_of_refuse {i : Instr} {s : State} {r : Refusal} (hc : callOf i s = .refuse r) :
    r = .widthTooLarge ∨ r = .fahrenheitOverflow ∨ r = .sharedHandle ∨ r = .aliasedLines := by
  have shape := callCases i s
  rw [hc] at shape
  cases shape with
  | refuse _ hr => exact hr

/-- A call that is refused refuses the operation. -/
theorem exec_of_refuse {i : Instr} {s : State} {r : Refusal} (hc : callOf i s = .refuse r) : exec i s = .refused r := by
  rw [exec_eq_run, hc, Call.run]

/-- An operation that has started comes to an end, or to startConversion's poll. -/
theorem exists_finish_next (h : HandleId) (f : Finish) (r : Run) : ∃ t, finish h f r = .next t := by
  cases f with
  | returns k =>
    obtain ⟨v, hv⟩ := result_value_isSome r.acc k
    exact ⟨_, by rw [finish, hv]⟩
  | guarded k => exact ⟨_, rfl⟩
  | testOneShot => rw [finish]; split_ifs <;> exact ⟨_, rfl⟩
  | untilDone => rw [finish]; split_ifs <;> exact ⟨_, rfl⟩
  | bind => exact ⟨_, rfl⟩

/-- A call that starts an operation or has ended answers a next state. -/
theorem exec_of_not_refused {i : Instr} {s : State} (hc : ∀ r, callOf i s ≠ .refuse r) : ∃ t, exec i s = .next t := by
  rw [exec_eq_run]
  cases e : callOf i s with
  | refuse r => exact absurd e (hc r)
  | ended u => exact ⟨u, rfl⟩
  | started h k u => exact exists_finish_next h k.fin _

/-- Settles O13: a call is refused for one of the four reasons, and otherwise answers a next state. -/
theorem refusalsAreTheSpecs : Obligations.RefusalsAreTheSpecs := by
  intro i s
  by_cases hc : ∃ r, callOf i s = .refuse r
  · obtain ⟨r, hr⟩ := hc
    have refused := exec_of_refuse hr
    refine ⟨fun e he => (by cases refused.symm.trans he), fun r' he => ?_⟩
    cases refused.symm.trans he
    exact refusal_of_refuse hr
  · obtain ⟨t, ht⟩ := exec_of_not_refused (not_exists.mp hc)
    exact ⟨fun e he => (by cases ht.symm.trans he), fun r he => (by cases ht.symm.trans he)⟩

/-- Settles O14: with admitted operands, a free handle and free lines no clause of a call refuses. -/
theorem admittedCallsComplete : Obligations.AdmittedCallsComplete := by
  intro i s hwf hfree hlines
  refine exec_of_not_refused fun r => ?_
  rcases callShape i s with ⟨h, w, as, k, hi, -, hw, -, hc⟩ | ⟨h, as, k, f, hi, -, -, -, hc⟩ |
    ⟨h, clk, dq, rst, a, b, c, rfl⟩ | ⟨h, rfl⟩ | ⟨v, -, hv, hc⟩
  · have hw' : ¬ Config.maxWidth < w := Nat.not_lt.mpr (hw.mp hwf)
    rw [hc, primitiveCall, if_neg hw', hfree h hi]
    by_cases hb : (s.handle h).bound = true <;> simp [hb]
  · rw [hc, apiCall, hfree h hi]
    by_cases hb : (s.handle h).bound = true <;> simp [hb]
  · have ha : s.aliased h clk dq rst = false := State.aliased_eq_false.mpr ⟨hwf, hlines h clk dq rst a b c rfl⟩
    simp [callOf, callInit, ha, hfree h rfl]
  · rw [callOf, callRelease, hfree h rfl]
    by_cases hb : (s.handle h).bound = true <;> simp [hb]
  · obtain ⟨x, rfl⟩ := Option.isSome_iff_exists.mp (hv hwf)
    simp [hc, codecCall]

theorem primitiveCall_of_too_wide {w : Nat} (hw : 16 < w) (h : HandleId) (as : List Act) (k : Result) (s : State) :
    primitiveCall h w as k s = .refuse .widthTooLarge :=
  if_pos hw

/-- Settles O30: the width is the first thing either primitive looks at. -/
theorem widthAbove16Refused : Obligations.WidthAbove16Refused := by
  intro h cmd pay w s hw
  exact ⟨exec_of_refuse (primitiveCall_of_too_wide hw h _ _ s), exec_of_refuse (primitiveCall_of_too_wide hw h _ _ s)⟩

/-- Settles O31: with everything that is refused earlier in order, each call refuses a busy handle. -/
theorem sharedHandleRefused : Obligations.SharedHandleRefused := by
  intro i h s hi hbusy hwf hapi hinit
  apply exec_of_refuse
  rcases callShape i s with ⟨h', w, as, k, hi', -, hw, -, hc⟩ | ⟨h', as, k, f, hi', hapi', -, -, hc⟩ |
    ⟨h', clk, dq, rst, a, b, c, rfl⟩ | ⟨h', rfl⟩ | ⟨v, hi', -, hc⟩
  · cases hi.symm.trans hi'
    have hw' : ¬ Config.maxWidth < w := Nat.not_lt.mpr (hw.mp hwf)
    simp [hc, primitiveCall, hw', hbusy]
  · cases hi.symm.trans hi'
    simp [hc, apiCall, hapi hapi', hbusy]
  · cases hi
    have ha : s.aliased h clk dq rst = false :=
      State.aliased_eq_false.mpr ⟨hwf, State.lineTaken_eq_false.mp (hinit clk dq rst a b c rfl)⟩
    simp [callOf, callInit, ha, hbusy]
  · cases hi
    simp [callOf, callRelease, hbusy]
  · cases hi.symm.trans hi'

/-- Three lines are distinct when each two are (10_state.md R21 (a)). -/
theorem linesDistinct_iff {clk dq rst : LineId} :
    linesDistinct clk dq rst = true ↔ clk ≠ dq ∧ clk ≠ rst ∧ dq ≠ rst := by
  simp [linesDistinct, and_assoc]

/-- Settles O47: an init that is not aliased has distinct lines that no other handle holds. -/
theorem aliasedInitRefused : Obligations.AliasedInitRefused := by
  intro h clk dq rst a b c s halias
  have aliased : s.aliased h clk dq rst = true := by
    by_contra hn
    obtain ⟨hd, hfree⟩ := State.aliased_eq_false.mp (Bool.eq_false_of_not_eq_true hn)
    obtain ⟨hcd, hcr, hdr⟩ := linesDistinct_iff.mp hd
    rcases halias with e | e | e | ⟨g, hg, hh, ho⟩
    · exact hcd e
    · exact hcr e
    · exact hdr e
    · obtain ⟨oc, od, or⟩ := hfree g hg hh
      simp [oc, od, or] at ho
  exact exec_of_refuse (if_pos aliased)

end Sys2Proof.Proofs
end

section
/-! PROOFS. The turns (20_memory.md R44): what a step is on each turn, how an operation run whole is its issue and one
resume turn, how its event turns add up to that resume turn, and what a step can do at all. -/

namespace Sys2Proof.Proofs

open Sys2Proof.Machine Sys2Proof.Safety

/-! ## What a step is on each turn -/

theorem step_of_turn_call {s : State} (ht : s.turn = .call) : step s = hostTurn exec s.popTurn := by simp [step, ht]
theorem step_of_turn_issue {s : State} (ht : s.turn = .issue) : step s = hostTurn issueInstr s.popTurn := by
  simp [step, ht]
theorem step_of_turn_event {s : State} {h : HandleId} (ht : s.turn = .event h) : step s = eventTurn h s.popTurn := by
  simp [step, ht]
theorem step_of_turn_resume {s : State} {h : HandleId} (ht : s.turn = .resume h) : step s = resumeTurn h s.popTurn := by
  simp [step, ht]
theorem step_of_turn_setIe {s : State} {b : Bit} (ht : s.turn = .setIe b) : step s = setIeTurn b s.popTurn := by
  simp [step, ht]

theorem turn_of_sched {s : State} {t : Turn} {rest : List Turn} (hs : s.sched = t :: rest) : s.turn = t := by
  simp [State.turn, hs]

/-- With an empty schedule the first listed operation in progress runs on. -/
theorem turn_of_tasks {s : State} {h : HandleId} {k : Task} {rest : List (HandleId × Task)} (hs : s.sched = [])
    (hk : s.tasks = (h, k) :: rest) : s.turn = .resume h := by
  simp [State.turn, hs, hk]

theorem turn_of_idle {s : State} (hs : s.sched = []) (hk : s.tasks = []) : s.turn = .call := by
  simp [State.turn, hs, hk]

/-- With an empty schedule there is no turn to take off. -/
theorem popTurn_of_sched_nil {s : State} (hs : s.sched = []) : s.popTurn = s := by
  obtain ⟨⟩ := s
  subst hs
  rfl

/-- The host issues the request at the head of its script. -/
theorem hostTurn_of_request {s : State} {r : Request} {rest : List Request} {i : Instr} (hs : s.script = r :: rest)
    (hd : decode r = .ok i) (f : Instr → State → Answer) : hostTurn f s = f i s.popRequest := by
  simp [hostTurn, State.nextRequest, hs, hd]

/-- A request that decodes to nothing is refused by the decoder's reason. -/
theorem hostTurn_of_error {s : State} {r : Request} {rest : List Request} {e : DecodeError} (hs : s.script = r :: rest)
    (hd : decode r = .error e) (f : Instr → State → Answer) : hostTurn f s = .refused (.undecodable e) := by
  simp [hostTurn, State.nextRequest, hs, hd]

/-- With no request left the host is idle. -/
theorem hostTurn_of_script_nil {s : State} (hs : s.script = []) (f : Instr → State → Answer) :
    hostTurn f s = .next s := by
  simp [hostTurn, State.nextRequest, hs]

/-- Settles O4: the host's turn hands the first request to `exec` or to the issue. -/
theorem stepRunsDecodedInstruction : Obligations.StepRunsDecodedInstruction := by
  intro s r rest i hs hd
  have hpop : s.popTurn.popRequest = { s with script := rest, sched := s.sched.tail } := by
    simp [State.popRequest, State.popTurn, hs]
  refine ⟨fun ht => ?_, fun ht => ?_⟩
  · rw [step_of_turn_call ht, hostTurn_of_request (s := s.popTurn) hs hd, hpop]
  · rw [step_of_turn_issue ht, hostTurn_of_request (s := s.popTurn) hs hd, hpop, issueInstr]

/-- Settles O5: with no request the host is idle, and an undecodable one is refused. -/
theorem stepWithoutOperation : Obligations.StepWithoutOperation := by
  intro s ht
  refine ⟨fun hs => ?_, fun r rest e hs hd => ?_⟩
  · rw [step_of_turn_call ht, hostTurn_of_script_nil (s := s.popTurn) hs, State.popTurn]
  · rw [step_of_turn_call ht, hostTurn_of_error (s := s.popTurn) hs hd]

/-- Settles O6: the two cases of the host's write are those of the save stack. -/
theorem hostWritesInterruptState : Obligations.HostWritesInterruptState := by
  intro s b ht
  refine ⟨fun hx => ?_, fun hx => ?_⟩
  · rw [step_of_turn_setIe ht, setIeTurn, if_pos (show s.popTurn.excl = [] from hx)]; rfl
  · rw [step_of_turn_setIe ht, setIeTurn, if_neg (show s.popTurn.excl ≠ [] from hx), State.popTurn]

/-- A table word that names an instruction is a request that decodes to it. -/
theorem decode_tableRequest {nbits w : Nat} {i : Instr} (hw : decodeTableWord nbits w = some i) :
    decode (tableRequest nbits w) = .ok i := by
  rw [decodeTableWord] at hw
  split at hw
  · cases hw; assumption
  · cases hw

/-- Settles O7: the placed request is the head of the script and its turn the head of the schedule. -/
theorem placedWordRunsNext : Obligations.PlacedWordRunsNext := by
  intro s nbits w i hw
  have ht : (s.withFetchWord nbits w).turn = .call := turn_of_sched rfl
  rw [step_of_turn_call ht, hostTurn_of_request rfl (decode_tableRequest hw)]
  rfl

/-- Settles O53: each clause is one equation of the turns. -/
theorem stepTakesItsTurn : Obligations.StepTakesItsTurn := by
  intro s h
  refine ⟨step_of_turn_event, step_of_turn_resume, fun t rest => turn_of_sched, fun k rest hs hk => ?_, turn_of_idle⟩
  have ht := turn_of_tasks hs hk
  exact ⟨ht, by rw [step_of_turn_resume ht, popTurn_of_sched_nil hs]⟩

/-! ## The operations in progress as a table -/

/-- Removing a key forgets what was last written under it. -/
theorem assoc_erase_set {α : Type} (k : Nat) (v : α) (l : List (Nat × α)) :
    Assoc.erase k (Assoc.set k v l) = Assoc.erase k l := by
  induction l with
  | nil => simp [Assoc.set, Assoc.erase]
  | cons e l ih =>
    obtain ⟨j, u⟩ := e
    simp only [Assoc.set]
    split_ifs with h1 h2
    · simp [Assoc.erase]
    · simp [Assoc.erase, h2]
    · simp [Assoc.erase, h2, ih]

@[simp] theorem clearTask_setTask (s : State) (h : HandleId) (k : Task) : (s.setTask h k).clearTask h = s.clearTask h := by
  simp [State.clearTask, State.setTask, assoc_erase_set]

theorem clearTask_of_task_none {s : State} {h : HandleId} (hn : s.task h = none) : s.clearTask h = s := by
  rw [State.clearTask, Assoc.erase_of_get_none hn]

/-- Events do not read the operations in progress. -/
theorem performAct_clearTask (h g : HandleId) (a : Act) (acc : Word) (s : State) :
    performAct h a ⟨acc, s.clearTask g⟩ =
      ⟨(performAct h a ⟨acc, s⟩).acc, (performAct h a ⟨acc, s⟩).st.clearTask g⟩ := by
  cases a <;> rfl

/-! ## An event turn -/

/-- The state in which an operation with events to come has performed its next one. -/
def afterEvent (h : HandleId) (k : Task) (a : Act) (rest : List Act) (s : State) : State :=
  (performAct h a ⟨k.acc, s⟩).st.setTask h ⟨rest, (performAct h a ⟨k.acc, s⟩).acc, k.fin⟩

/-- An event that leaves others to come is performed and the operation stays in progress (10_state.md R18). -/
theorem eventTurn_of_more {h : HandleId} {s : State} {k : Task} {a b : Act} {more : List Act} (hk : s.task h = some k)
    (ha : k.acts = a :: b :: more) (hu : underflows s.excl.length [a] = false) :
    eventTurn h s = .next (afterEvent h k a (b :: more) s) := by
  simp [eventTurn, hk, ha, hu, afterEvent]

/-- An event turn of a handle with at most one event to come is its resume turn (R110). -/
theorem eventTurn_eq_resumeTurn {h : HandleId} {s : State} (hl : ∀ k, s.task h = some k → k.acts.length ≤ 1) :
    eventTurn h s = resumeTurn h s := by
  rw [eventTurn, resumeTurn]
  cases hk : s.task h with
  | none => rfl
  | some k =>
    obtain ⟨acts, acc, fin⟩ := k
    match acts, hl _ hk with
    | [], _ => rfl
    | [a], _ => rfl

/-- What an event turn that answers a next state did: it performed one event of several, or what a resume turn does. -/
inductive EventNext (h : HandleId) (s t : State) : Prop
  | more (k : Task) (a b : Act) (more : List Act) (hk : s.task h = some k) (ha : k.acts = a :: b :: more)
      (hu : underflows s.excl.length [a] = false) (e : t = afterEvent h k a (b :: more) s)
  | last (e : resumeTurn h s = .next t)

theorem eventNext {h : HandleId} {s t : State} (e : eventTurn h s = .next t) : EventNext h s t := by
  by_cases hl : ∀ k, s.task h = some k → k.acts.length ≤ 1
  · exact .last ((eventTurn_eq_resumeTurn hl).symm.trans e)
  · push Not at hl
    obtain ⟨k, hk, hlen⟩ := hl
    match ha : k.acts, hlen with
    | a :: b :: more, _ =>
      by_cases hu : underflows s.excl.length [a] = true
      · simp [eventTurn, hk, ha, hu] at e
      · rw [Bool.not_eq_true] at hu
        rw [eventTurn_of_more hk ha hu] at e
        cases e
        exact .more k a b more hk ha hu rfl

/-! ## A resume turn -/

/-- A resume turn that may perform its events runs the operation in progress to its end. -/
theorem resumeTurn_of_task {h : HandleId} {s : State} {k : Task} (hk : s.task h = some k)
    (hu : underflows s.excl.length k.acts = false) : resumeTurn h s = runTask h k (s.clearTask h) := by
  simp [resumeTurn, hk, hu]

/-- What a resume turn that answers a next state did: nothing, or it ran the operation in progress. -/
inductive ResumeNext (h : HandleId) (s t : State) : Prop
  | idle (e : t = s)
  | ran (k : Task) (hk : s.task h = some k) (hu : underflows s.excl.length k.acts = false)
      (e : runTask h k (s.clearTask h) = .next t)

theorem resumeNext {h : HandleId} {s t : State} (e : resumeTurn h s = .next t) : ResumeNext h s t := by
  cases hk : s.task h with
  | none =>
    simp only [resumeTurn, hk] at e
    cases e
    exact .idle rfl
  | some k =>
    by_cases hu : underflows s.excl.length k.acts = true
    · simp [resumeTurn, hk, hu] at e
    · rw [Bool.not_eq_true] at hu
      exact .ran k hk hu ((resumeTurn_of_task hk hu).symm.trans e)

/-- How an operation ends: it returns, it goes on to poll, or init's handle becomes valid. -/
inductive FinishNext (h : HandleId) (f : Finish) (u t : State) : Prop
  | returned (v : Ending) (e : t = u.logReturn (some h) v)
  | polls (hf : f = .testOneShot ∨ f = .untilDone) (e : t = u.setTask h (pollTask u))
  | binds (hf : f = .bind)
      (e : t = (u.setHandle h { u.handle h with bound := true }).logReturn (some h) (.done none))

theorem finishNext {h : HandleId} {f : Finish} {r : Run} {t : State} (e : finish h f r = .next t) :
    FinishNext h f r.st t := by
  rcases finish_cases h f r with e' | ⟨v, e'⟩ | ⟨hf, e'⟩ | ⟨hf, e'⟩ <;> cases e'.symm.trans e
  · exact .returned v rfl
  · exact .polls hf rfl
  · exact .binds hf rfl

/-! ## An operation run whole is its issue and its event turns -/

/-- Events whose depth is known leave the save stack something to take at every exit. -/
theorem underflows_of_depthAfter {n m : Nat} {as : List Act} (hd : depthAfter n as = some m) : underflows n as = false := by
  simp [underflows, hd]

/-- A started operation has taken nothing in progress on its handle. -/
theorem task_of_started {i : Instr} {s u : State} {h : HandleId} {k : Task} (hc : callOf i s = .started h k u) :
    u.task h = none := by
  obtain ⟨-, -, free, rest⟩ := callOf_started hc
  rcases rest with rfl | ⟨g, rfl⟩
  · exact free
  · rwa [State.task_setHandle]

/-- Once issued, an operation's events leave the save stack something to take at every exit. -/
theorem underflows_of_started {i : Instr} {s u : State} {h : HandleId} {k : Task} (hc : callOf i s = .started h k u) :
    underflows (u.setTask h k).excl.length k.acts = false :=
  underflows_of_depthAfter ((callOf_started hc).bal _)

/-- An operation run whole is the resume turn of the issued operation (D1). -/
theorem exec_eq_resumeTurn {i : Instr} {s u : State} {h : HandleId} {k : Task} (hc : callOf i s = .started h k u) :
    exec i s = resumeTurn h (u.setTask h k) := by
  rw [resumeTurn_of_task (State.task_setTask_same u h k) (underflows_of_started hc), clearTask_setTask,
    clearTask_of_task_none (task_of_started hc), exec_eq_run, hc, Call.run]

/-- Performing one event early changes nothing of what the operation does. -/
theorem runTask_afterEvent {h : HandleId} {s : State} {k : Task} {a : Act} {rest : List Act} (ha : k.acts = a :: rest) :
    runTask h ⟨rest, (performAct h a ⟨k.acc, s⟩).acc, k.fin⟩ ((afterEvent h k a rest s).clearTask h) =
      runTask h k (s.clearTask h) := by
  rw [afterEvent, clearTask_setTask, runTask, runTask, ha, runActs_cons, performAct_clearTask]

/-- Events that may be performed may be performed one by one. -/
theorem underflows_afterEvent {h : HandleId} {s : State} {k : Task} {a : Act} {rest : List Act}
    (hu : underflows s.excl.length (a :: rest) = false) : underflows s.excl.length [a] = false ∧
      underflows (afterEvent h k a rest s).excl.length rest = false := by
  obtain ⟨m, hm⟩ : ∃ m, depthAfter s.excl.length (a :: rest) = some m :=
    Option.isSome_iff_exists.mp (by simpa [underflows] using hu)
  rw [depthAfter_cons] at hm
  obtain ⟨d, ha, hd⟩ := Option.bind_eq_some_iff.mp hm
  rw [← performAct_depth h a ⟨k.acc, s⟩ ha] at hd
  exact ⟨underflows_of_depthAfter ha, underflows_of_depthAfter hd⟩

/-- One event turn per event does what a resume turn does (R18). -/
theorem eventTurns_eq_resumeTurn {h : HandleId} (as : List Act) {s : State} {k : Task} (ha : k.acts = as) (hne : as ≠ [])
    (hk : s.task h = some k) (hu : underflows s.excl.length as = false) :
    eventTurns h as.length s = resumeTurn h s := by
  induction as generalizing s k with
  | nil => exact absurd rfl hne
  | cons a rest ih =>
    cases rest with
    | nil =>
      have one : eventTurn h s = resumeTurn h s := eventTurn_eq_resumeTurn fun k' hk' => by
        cases hk.symm.trans hk'; simp [ha]
      rw [List.length_singleton, eventTurns, one]
      cases resumeTurn h s <;> rfl
    | cons b more =>
      obtain ⟨hone, hrest⟩ := underflows_afterEvent (h := h) (k := k) hu
      have htask : (afterEvent h k a (b :: more) s).task h = some _ := State.task_setTask_same _ _ _
      have hstep : eventTurns h (a :: b :: more).length s =
          eventTurns h (b :: more).length (afterEvent h k a (b :: more) s) := by
        rw [List.length_cons, eventTurns, eventTurn_of_more hk ha hone]
      rw [hstep, ih rfl (List.cons_ne_nil _ _) htask hrest, resumeTurn_of_task htask hrest, runTask_afterEvent ha,
        resumeTurn_of_task hk (by rwa [ha])]

/-- Settles O20: issued, an operation's event turns add up to its resume turn, and that is `exec`. -/
theorem eventTurnsRunTheOperation : Obligations.EventTurnsRunTheOperation := by
  intro i s u h k hc
  refine ⟨by rw [issueInstr, hc, Call.issue], ?_⟩
  rw [exec_eq_resumeTurn hc]
  exact eventTurns_eq_resumeTurn k.acts rfl (callOf_started hc).ne (State.task_setTask_same u h k) (underflows_of_started hc)

end Sys2Proof.Proofs
end

section
/-! PROOFS. What every step keeps: the inversion of a step, the logs that only grow, interrupts off while a region is open,
and the interrupt state after an operation. -/

namespace Sys2Proof.Proofs

open Sys2Proof.Machine Sys2Proof.Safety

/-! ## What a step can do -/

/-- What an issue that answers a next state did: the call ended, or its operation is in progress. -/
inductive IssueNext (i : Instr) (s t : State) : Prop
  | ended (v : Ending) (e : t = s.logReturn (handleOf i) v)
  | released (h : HandleId) (hi : handleOf i = some h) (hf : s.task h = none)
      (e : t = (s.setHandle h { s.handle h with bound := false }).logReturn (some h) (.done none))
  | guarded (h : HandleId) (hi : handleOf i = some h) (hf : s.task h = none) (k : Result)
      (e : t = s.setTask h ⟨guardActs, 0#16, .guarded k⟩)
  | frame (h : HandleId) (hi : handleOf i = some h) (hf : s.task h = none) (hb : (s.handle h).bound = true)
      (as : List Act) (f : Finish) (ha : FrameActs as f) (e : t = s.setTask h ⟨as, 0#16, f⟩)
  | init (h : HandleId) (clk dq rst : LineId) (a b c : PortRef) (hi : handleOf i = some h) (hf : s.task h = none)
      (ha : s.aliased h clk dq rst = false)
      (e : t = (s.setHandle h ⟨(s.handle h).bound, clk, dq, rst, a, b, c⟩).setTask h ⟨initActs, 0#16, .bind⟩)

theorem issueNext {i : Instr} {s t : State} (e : issueInstr i s = .next t) : IssueNext i s t := by
  have shape := callCases i s
  rw [issueInstr] at e
  generalize callOf i s = call at shape e
  cases shape with
  | refuse => cases e
  | ended v => cases e; exact .ended v rfl
  | released h hi hf => cases e; exact .released h hi hf rfl
  | guarded h hi hf k => cases e; exact .guarded h hi hf k rfl
  | frame h hi hf hb as f ha => cases e; exact .frame h hi hf hb as f ha rfl
  | init h clk dq rst a b c hi hf ha => cases e; exact .init h clk dq rst a b c hi hf ha rfl

/-- An operation run whole is its issue alone, or its issue and the resume turn of its handle. -/
theorem exec_next {i : Instr} {s t : State} (e : exec i s = .next t) :
    issueInstr i s = .next t ∨ ∃ h u, handleOf i = some h ∧ issueInstr i s = .next u ∧ resumeTurn h u = .next t := by
  cases hc : callOf i s with
  | refuse r => cases (exec_of_refuse hc).symm.trans e
  | ended u =>
    rw [exec_eq_run, hc] at e
    rw [issueInstr, hc]
    exact .inl e
  | started h k u =>
    rw [exec_eq_resumeTurn hc] at e
    exact .inr ⟨h, u.setTask h k, handleOf_of_started hc, by rw [issueInstr, hc, Call.issue], e⟩

/-- The host is idle, its request is undecodable, or it issues an instruction. -/
theorem hostTurn_cases (f : Instr → State → Answer) (s : State) :
    hostTurn f s = .next s ∨ (∃ e, hostTurn f s = .refused (.undecodable e)) ∨
      ∃ i, hostTurn f s = f i s.popRequest := by
  cases hs : s.script with
  | nil => exact .inl (hostTurn_of_script_nil hs f)
  | cons r rest =>
    cases hd : decode r with
    | error e => exact .inr (.inl ⟨e, hostTurn_of_error hs hd f⟩)
    | ok i => exact .inr (.inr ⟨i, hostTurn_of_request hs hd f⟩)

/-- A host's turn that answers a next state was idle or issued an instruction. -/
theorem hostTurn_next {f : Instr → State → Answer} {s t : State} (e : hostTurn f s = .next t) :
    t = s ∨ ∃ i, f i s.popRequest = .next t := by
  rcases hostTurn_cases f s with e' | ⟨_, e'⟩ | ⟨i, e'⟩
  · exact .inl (Host.Outcome.next.inj (e.symm.trans e'))
  · cases e.symm.trans e'
  · exact .inr ⟨i, e' ▸ e⟩

/-- What a step that answers a next state did. -/
inductive StepNext (s t : State) : Prop
  | idle (e : t = s.popTurn)
  | exec (i : Instr) (e : exec i s.popTurn.popRequest = .next t)
  | issue (ht : s.turn = .issue) (i : Instr) (e : issueInstr i s.popTurn.popRequest = .next t)
  | event (h : HandleId) (ht : s.turn = .event h) (e : eventTurn h s.popTurn = .next t)
  | resume (h : HandleId) (e : resumeTurn h s.popTurn = .next t)
  | setIe (b : Bit) (hx : s.excl = []) (e : t = { s.popTurn with ie := b })

theorem stepNext {s t : State} (e : step s = .next t) : StepNext s t := by
  cases ht : s.turn with
  | call =>
    rw [step_of_turn_call ht] at e
    rcases hostTurn_next e with rfl | ⟨i, e⟩
    · exact .idle rfl
    · exact .exec i e
  | issue =>
    rw [step_of_turn_issue ht] at e
    rcases hostTurn_next e with rfl | ⟨i, e⟩
    · exact .idle rfl
    · exact .issue ht i e
  | event h => exact .event h ht (step_of_turn_event ht ▸ e)
  | resume h => exact .resume h (step_of_turn_resume ht ▸ e)
  | setIe b =>
    rw [step_of_turn_setIe ht, setIeTurn] at e
    split_ifs at e with hx <;> cases e
    · exact .setIe b hx rfl
    · exact .idle rfl

/-- A property of states that each part of a step keeps: taking off the turn or the request, issuing an instruction, one event
of several, the rest of an operation in progress, and the host's write of `host.ie` outside every region. -/
structure StepClosed (P : State → Prop) : Prop where
  popTurn : ∀ {s}, P s → P s.popTurn
  popRequest : ∀ {s}, P s → P s.popRequest
  issue : ∀ {i s t}, P s → IssueNext i s t → P t
  event : ∀ {h s k a rest}, P s → s.task h = some k → k.acts = a :: rest → rest ≠ [] → P (afterEvent h k a rest s)
  run : ∀ {h s k t}, P s → s.task h = some k →
    FinishNext h k.fin (runActs h k.acts ⟨k.acc, s.clearTask h⟩).st t → P t
  setIe : ∀ {s} (b), P s → s.excl = [] → P { s with ie := b }

theorem StepClosed.resume {P : State → Prop} (c : StepClosed P) {h : HandleId} {s t : State} (hs : P s)
    (e : resumeTurn h s = .next t) : P t := by
  rcases resumeNext e with rfl | ⟨k, hk, -, e⟩
  · exact hs
  · exact c.run hs hk (finishNext e)

theorem StepClosed.eventTurn {P : State → Prop} (c : StepClosed P) {h : HandleId} {s t : State} (hs : P s)
    (e : eventTurn h s = .next t) : P t := by
  rcases eventNext e with ⟨k, a, b, more, hk, ha, -, rfl⟩ | e
  · exact c.event hs hk ha (List.cons_ne_nil b more)
  · exact c.resume hs e

theorem StepClosed.exec {P : State → Prop} (c : StepClosed P) {i : Instr} {s t : State} (hs : P s)
    (e : exec i s = .next t) : P t := by
  rcases exec_next e with e | ⟨h, u, -, e, e'⟩
  · exact c.issue hs (issueNext e)
  · exact c.resume (c.issue hs (issueNext e)) e'

/-- What every part of a step keeps, every step keeps. -/
theorem StepClosed.step {P : State → Prop} (c : StepClosed P) {s t : State} (hs : P s) (e : step s = .next t) : P t := by
  cases stepNext e with
  | idle e => exact e ▸ c.popTurn hs
  | exec i e => exact c.exec (c.popRequest (c.popTurn hs)) e
  | issue _ i e => exact c.issue (c.popRequest (c.popTurn hs)) (issueNext e)
  | event h _ e => exact c.eventTurn (c.popTurn hs) e
  | resume h e => exact c.resume (c.popTurn hs) e
  | setIe b hx e => exact e ▸ c.setIe b (c.popTurn hs) hx

/-! ## The logs only grow -/

/-- `t` has the parameters of `s`, and its trace and its returns extend those of `s`. -/
structure Extends (s t : State) : Prop where
  params : t.params = s.params
  trace : s.trace <+: t.trace
  returns : s.returns <+: t.returns

theorem Extends.trans {s t u : State} (hst : Extends s t) (htu : Extends t u) : Extends s u :=
  ⟨htu.params.trans hst.params, hst.trace.trans htu.trace, hst.returns.trans htu.returns⟩

/-- Where all three are the same, nothing was lost. -/
theorem extends_of_eq {s t : State} (hp : t.params = s.params) (ht : t.trace = s.trace) (hr : t.returns = s.returns) :
    Extends s t :=
  ⟨hp, ht ▸ List.prefix_rfl, hr ▸ List.prefix_rfl⟩

theorem extends_setHandle (s : State) (h : HandleId) (x : Handle) : Extends s (s.setHandle h x) := extends_of_eq rfl rfl rfl

theorem extends_logReturn (s : State) (h : Option HandleId) (v : Ending) : Extends s (s.logReturn h v) :=
  ⟨rfl, List.prefix_rfl, List.prefix_append _ _⟩

theorem extends_runActs (h : HandleId) (as : List Act) (r : Run) : Extends r.st (runActs h as r).st :=
  ⟨runActs_params h as r, runActs_trace h as r ▸ List.prefix_append _ _, runActs_returns h as r ▸ List.prefix_rfl⟩

theorem extends_issue {i : Instr} {s t : State} (e : IssueNext i s t) : Extends s t := by
  cases e with
  | ended v e => exact e ▸ extends_logReturn s _ v
  | released h hi hf e => exact e ▸ (extends_setHandle s h _).trans (extends_logReturn _ _ _)
  | guarded h hi hf k e => exact e ▸ extends_of_eq rfl rfl rfl
  | frame h hi hf hb as f ha e => exact e ▸ extends_of_eq rfl rfl rfl
  | init h clk dq rst a b c hi hf ha e => exact e ▸ extends_of_eq rfl rfl rfl

theorem extends_finish {h : HandleId} {f : Finish} {u t : State} (e : FinishNext h f u t) : Extends u t := by
  cases e with
  | returned v e => exact e ▸ extends_logReturn u _ v
  | polls hf e => exact e ▸ extends_of_eq rfl rfl rfl
  | binds hf e => exact e ▸ (extends_setHandle u h _).trans (extends_logReturn _ _ _)

theorem stepClosed_extends (s : State) : StepClosed (Extends s) where
  popTurn hs := hs.trans (extends_of_eq rfl rfl rfl)
  popRequest hs := hs.trans (extends_of_eq rfl rfl rfl)
  issue hs e := hs.trans (extends_issue e)
  event {h u k a _} hs _ _ _ := (hs.trans (extends_runActs h [a] ⟨k.acc, u⟩)).trans (extends_of_eq rfl rfl rfl)
  run {h u k _} hs _ e := by
    have cleared : Extends u (u.clearTask h) := extends_of_eq rfl rfl rfl
    exact ((hs.trans cleared).trans (extends_runActs h k.acts ⟨k.acc, u.clearTask h⟩)).trans (extends_finish e)
  setIe _ hs _ := hs.trans (extends_of_eq rfl rfl rfl)

/-- Settles O12: no part of a step changes the parameters or takes anything off a log. -/
theorem stepOnlyAppends : Obligations.StepOnlyAppends := by
  intro s t e
  obtain ⟨hp, ⟨es, ht⟩, rs, hr⟩ := (stepClosed_extends s).step (extends_of_eq rfl rfl rfl) e
  exact ⟨hp, ⟨es, ht.symm⟩, rs, hr.symm⟩

/-! ## Interrupts while a region is open -/

/-- `host.ie` and the save stack as MaskedInRegions has them. -/
def Masked (x : Bit × List Bit) : Prop := x.2 ≠ [] → x.1 = false ∧ ∀ b, b ∈ x.2.dropLast → b = false

/-- Entering pushes a 0 unless the stack was empty; leaving gives back a 0 unless it empties the stack. -/
theorem masked_act {x : Bit × List Bit} (hx : Masked x) (a : Act) : Masked (a.exclAfter x) := by
  obtain ⟨ie, excl⟩ := x
  cases a with
  | exclEnter =>
    cases excl with
    | nil => exact fun _ => ⟨rfl, by simp [Act.exclAfter]⟩
    | cons b bs =>
      obtain ⟨rfl, hs⟩ := hx (List.cons_ne_nil b bs)
      exact fun _ => ⟨rfl, by simpa [Act.exclAfter] using hs⟩
  | exclExit =>
    match excl, hx with
    | [], _ => exact fun h => absurd rfl h
    | [b], _ => exact fun h => absurd rfl h
    | b :: c :: bs, hx =>
      obtain ⟨-, hs⟩ := hx (List.cons_ne_nil _ _)
      simp only [List.dropLast_cons_cons, List.mem_cons, forall_eq_or_imp] at hs
      exact fun _ => hs
  | _ => exact hx

theorem masked_exclAfter (as : List Act) {x : Bit × List Bit} (hx : Masked x) : Masked (exclAfter x as) := by
  induction as generalizing x with
  | nil => exact hx
  | cons a as ih => exact ih (masked_act hx a)

theorem masked_runActs {h : HandleId} {as : List Act} {r : Run} (hr : MaskedInRegions r.st) :
    MaskedInRegions (runActs h as r).st := by
  have hm := masked_exclAfter as (x := (r.st.ie, r.st.excl)) hr
  rwa [← runActs_excl h as r] at hm

/-- What no event between `s` and `t` leaves as it was: the interrupt state and the lines. -/
structure NoEvent (s t : State) : Prop where
  ie : t.ie = s.ie
  excl : t.excl = s.excl
  lines : t.lines = s.lines

/-- An end performs no event. -/
theorem noEvent_finish {h : HandleId} {f : Finish} {u t : State} (e : FinishNext h f u t) : NoEvent u t := by
  cases e with
  | returned v e => exact e ▸ ⟨rfl, rfl, rfl⟩
  | polls hf e => exact e ▸ ⟨rfl, rfl, rfl⟩
  | binds hf e => exact e ▸ ⟨rfl, rfl, rfl⟩

/-- An issue performs no event. -/
theorem noEvent_issue {i : Instr} {s t : State} (e : IssueNext i s t) : NoEvent s t := by
  cases e with
  | ended v e => exact e ▸ ⟨rfl, rfl, rfl⟩
  | released h hi hf e => exact e ▸ ⟨rfl, rfl, rfl⟩
  | guarded h hi hf k e => exact e ▸ ⟨rfl, rfl, rfl⟩
  | frame h hi hf hb as f ha e => exact e ▸ ⟨rfl, rfl, rfl⟩
  | init h clk dq rst a b c hi hf ha e => exact e ▸ ⟨rfl, rfl, rfl⟩

theorem maskedInRegions_of_noEvent {s t : State} (hs : MaskedInRegions s) (hn : NoEvent s t) : MaskedInRegions t := by
  rwa [MaskedInRegions, hn.ie, hn.excl]

theorem stepClosed_masked : StepClosed MaskedInRegions where
  popTurn := id
  popRequest := id
  issue hs e := maskedInRegions_of_noEvent hs (noEvent_issue e)
  event {h s k a _} hs _ _ _ := masked_runActs (h := h) (as := [a]) (r := ⟨k.acc, s⟩) hs
  run {h s k _} hs _ e :=
    maskedInRegions_of_noEvent (masked_runActs (h := h) (as := k.acts) (r := ⟨k.acc, s.clearTask h⟩) hs) (noEvent_finish e)
  setIe _ _ hx := fun h => absurd hx h

/-- Settles O17: each event keeps interrupts masked, whoever performs it. -/
theorem stepKeepsInterruptsMasked : Obligations.StepKeepsInterruptsMasked :=
  fun _ _ hs e => stepClosed_masked.step hs e

/-! ## The interrupt state after an operation -/

/-- Events that balance leave `host.ie` and the save stack as they were (40_transaction_engine.md R60). -/
theorem region_runActs {as : List Act} (hx : ∀ x, exclAfter x as = x) (h : HandleId) (r : Run) :
    (runActs h as r).st.ie = r.st.ie ∧ (runActs h as r).st.excl = r.st.excl := by
  have e := runActs_excl h as r
  rw [hx] at e
  exact Prod.mk.inj e

/-- Settles O15: what an operation performs balances. -/
theorem interruptStateRestored : Obligations.InterruptStateRestored := by
  intro i s t e
  rcases execCases i s with ⟨r, -, e'⟩ | ⟨-, v, e'⟩ | ⟨h, -, v, e'⟩ | ⟨h, as, v, -, hx, -, -, -, e'⟩ |
    ⟨h, -, -, -, e'⟩ | ⟨h, clk, dq, rst, a, b, c, rfl, hf, ha⟩ | ⟨h, rfl, -, -, e'⟩
  · cases e'.symm.trans e
  · cases e'.symm.trans e; exact ⟨rfl, rfl⟩
  · cases e'.symm.trans e; exact ⟨rfl, rfl⟩
  · cases e'.symm.trans e; exact region_runActs hx h _
  · obtain rfl := Host.Outcome.next.inj (e'.symm.trans e)
    exact region_runActs (exclAfter_startActs · (s.code .startConv) (s.code .readConfig)) h ⟨0#16, s⟩
  · obtain rfl := Host.Outcome.next.inj ((exec_init h clk dq rst a b c s hf ha).symm.trans e)
    exact region_runActs (as := initActs) (fun _ => rfl) h
      ⟨0#16, s.setHandle h ⟨(s.handle h).bound, clk, dq, rst, a, b, c⟩⟩
  · cases e'.symm.trans e; exact ⟨rfl, rfl⟩

end Sys2Proof.Proofs
end

section
/-! PROOFS. Safe states (10_state.md R21, R28; 40_transaction_engine.md R60): each part of a step keeps them, so no step
faults, and no handle ever reaches a line that another holds. -/

namespace Sys2Proof.Proofs

open Sys2Proof.Machine Sys2Proof.Safety

/-! ## Open regions and the save stack -/

/-- The regions that an operation has open, none where there is none. -/
def openOf (k : Option Task) : Nat := (k.map fun k => openRegions k.acts).getD 0

/-- No operation has more regions open than all together have. -/
theorem openOf_le_excl {s : State} (hr : Assoc.rising s.tasks = true) (hm : RegionsMatch s) (h : HandleId) :
    openOf (s.task h) ≤ s.excl.length := by
  have total := Assoc.total_erase (fun k => openRegions k.acts) h hr
  have total' := hm.1
  rw [openOf, State.task]
  omega

/-- Putting an operation in progress adds its open regions for those of the operation it replaces. -/
theorem regionsMatch_set {s t : State} {h : HandleId} {k : Task} (hm : RegionsMatch s) (hr : Assoc.rising s.tasks = true)
    (ht : t.tasks = Assoc.set h k s.tasks) (hd : depthAfter (openRegions k.acts) k.acts = some 0)
    (hx : t.excl.length + openOf (s.task h) = s.excl.length + openRegions k.acts) : RegionsMatch t := by
  have total := Assoc.total_set (fun k => openRegions k.acts) h k hr
  have total' := hm.1
  rw [openOf, State.task] at hx
  refine ⟨by rw [ht]; omega, fun g k' hk => ?_⟩
  rw [State.task, ht, Assoc.get_set] at hk
  split_ifs at hk
  · cases hk; exact hd
  · exact hm.2 g k' hk

/-- Taking an operation off takes its open regions off. -/
theorem regionsMatch_erase {s t : State} {h : HandleId} (hm : RegionsMatch s) (hr : Assoc.rising s.tasks = true)
    (ht : t.tasks = Assoc.erase h s.tasks) (hx : t.excl.length + openOf (s.task h) = s.excl.length) : RegionsMatch t := by
  have total := Assoc.total_erase (fun k => openRegions k.acts) h hr
  have total' := hm.1
  rw [openOf, State.task] at hx
  refine ⟨by rw [ht]; omega, fun g k' hk => ?_⟩
  rw [State.task, ht, Assoc.get_erase] at hk
  split_ifs at hk
  exact hm.2 g k' hk

/-- Where the regions match, an operation's events find on the save stack all they take, and leave there the open regions
of the others. -/
theorem depthAfter_of_regionsMatch {s : State} (hr : Assoc.rising s.tasks = true) (hm : RegionsMatch s) {h : HandleId}
    {k : Task} (hk : s.task h = some k) :
    ∃ m, depthAfter s.excl.length k.acts = some m ∧ m + openRegions k.acts = s.excl.length := by
  obtain ⟨m, he⟩ := Nat.exists_eq_add_of_le (openOf_le_excl hr hm h)
  have ho : openOf (s.task h) = openRegions k.acts := by rw [hk]; rfl
  rw [ho] at he
  refine ⟨m, ?_, by omega⟩
  rw [he]
  simpa using depthAfter_add k.acts _ _ m (hm.2 h k hk)

/-- After one event the events to come close exactly the regions then open. -/
theorem openRegions_tail {a : Act} {rest : List Act} (hd : depthAfter (openRegions (a :: rest)) (a :: rest) = some 0) :
    depthAfter (openRegions (a :: rest)) [a] = some (openRegions rest) ∧ depthAfter (openRegions rest) rest = some 0 := by
  rw [depthAfter_cons] at hd
  obtain ⟨d, ha, hrest⟩ := Option.bind_eq_some_iff.mp hd
  rw [openRegions_eq hrest]
  exact ⟨ha, hrest⟩

/-! ## Each update keeps a safe state safe -/

/-- The handle may hold the lines of this record: they are distinct, and no other handle holds one of them. -/
def MayHold (s : State) (h : HandleId) (x : Handle) : Prop :=
  x.distinct = true ∧ ∀ g, g ≠ h → s.holds g = true →
    (s.handle g).owns x.clk = false ∧ (s.handle g).owns x.dq = false ∧ (s.handle g).owns x.rst = false

/-- A handle that holds its lines may hold them. -/
theorem mayHold_of_holds {s : State} (ha : LinesApart s) {h : HandleId} (hh : s.holds h = true) :
    MayHold s h (s.handle h) := by
  have apart : ∀ g, g ≠ h → s.holds g = true → ∀ p, (s.handle g).owns ((s.handle h).line p) = false :=
    fun g hg hgh p => ha.2 h g _ (Ne.symm hg) hh hgh (Handle.owns_line _ p)
  exact ⟨ha.1 h hh, fun g hg hgh => ⟨apart g hg hgh .clk, apart g hg hgh .dq, apart g hg hgh .rst⟩⟩

/-- Safety is a property of the parameters, the three tables and the save stack. -/
theorem safe_congr {s t : State} (hs : Safe s) (hp : t.params = s.params) (hh : t.handles = s.handles)
    (hl : t.lines = s.lines) (ht : t.tasks = s.tasks) (hx : t.excl = s.excl) : Safe t where
  canonical := by rw [Canonical, hh, hl, ht]; exact hs.canonical
  params := hp ▸ hs.params
  apart := linesApart_congr hs.apart (fun g => by rw [State.holds_congr hh ht]; exact id) (State.handle_congr hh)
  reach := fun h k hk => by
    rw [State.holds_congr hh ht]
    exact hs.reach h k (State.task_congr ht h ▸ hk)
  regions := by
    refine ⟨by rw [hx, ht]; exact hs.regions.1, fun h k hk => hs.regions.2 h k (State.task_congr ht h ▸ hk)⟩

theorem tasks_rising {s : State} (hs : Safe s) : Assoc.rising s.tasks = true := hs.canonical.2.2

theorem safe_logReturn {s : State} (hs : Safe s) (h : Option HandleId) (v : Ending) : Safe (s.logReturn h v) :=
  safe_congr hs rfl rfl rfl rfl rfl

/-- A handle with nothing in progress may get a record whose lines it may hold, or an invalid one. -/
theorem safe_setHandle {s : State} {h : HandleId} {x : Handle} (hs : Safe s) (hn : s.task h = none)
    (hx : x.bound = true → MayHold s h x) : Safe (s.setHandle h x) where
  canonical := ⟨Assoc.rising_set h x hs.canonical.1, hs.canonical.2⟩
  params := hs.params
  apart := by
    refine linesApart_update hs.apart (h := h) (fun g hg => by simp [hg]) (fun g hg => by simp [hg]) fun hh => ?_
    rw [State.holds_of_idle (by simpa using hn), State.handle_setHandle_same] at hh
    simpa [MayHold] using hx hh
  reach := fun g k hk => by
    rw [State.task_setHandle] at hk
    have hg : g ≠ h := by rintro rfl; cases hn.symm.trans hk
    rw [State.holds_setHandle_other x hg]
    exact hs.reach g k hk
  regions := hs.regions

/-- An operation whose events balance may be put in progress on a handle with none, where the handle is valid, or it is an
init on lines the handle may hold, or it is a guard path. -/
theorem safe_setTask {s : State} {h : HandleId} {k : Task} (hs : Safe s) (hn : s.task h = none)
    (hd : ∀ n, depthAfter n k.acts = some n) (hbind : k.fin = .bind → MayHold s h (s.handle h))
    (hreach : (s.handle h).bound = true ∨ k.fin = .bind ∨
      (∃ r, k.fin = .guarded r) ∧ k.acts.all (!reachesLine ·) = true) :
    Safe (s.setTask h k) where
  canonical := ⟨hs.canonical.1, hs.canonical.2.1, Assoc.rising_set h k (tasks_rising hs)⟩
  params := hs.params
  apart := by
    refine linesApart_update hs.apart (h := h) (fun g hg => by simp [hg]) (fun g _ => by simp) fun hh => ?_
    rw [State.holds_of_task (State.task_setTask_same s h k), State.handle_setTask] at hh
    rw [State.handle_setTask]
    rcases Bool.or_eq_true_iff.mp hh with hb | hf
    · exact mayHold_of_holds hs.apart (State.holds_of_bound hb)
    · exact hbind (of_decide_eq_true hf)
  reach := fun g k' hk => by
    by_cases hg : g = h
    · subst hg
      cases (State.task_setTask_same s g k).symm.trans hk
      rw [State.holds_of_task (State.task_setTask_same s g k), State.handle_setTask]
      rcases hreach with hb | hf | hguard
      · exact .inl (by simp [hb])
      · exact .inl (by simp [hf])
      · exact .inr hguard
    · rw [State.task_setTask_other s hg] at hk
      rw [State.holds_setTask_other k hg]
      exact hs.reach g k' hk
  regions := by
    have hopen : openRegions k.acts = 0 := openRegions_eq (hd 0)
    exact regionsMatch_set hs.regions (tasks_rising hs) rfl (hopen ▸ hd 0) (by simp [hn, openOf, hopen])

theorem handle_afterEvent (h : HandleId) (k : Task) (a : Act) (rest : List Act) (s : State) (g : HandleId) :
    (afterEvent h k a rest s).handle g = s.handle g := by
  simp [afterEvent]

theorem task_afterEvent_other {h g : HandleId} (hg : g ≠ h) (k : Task) (a : Act) (rest : List Act) (s : State) :
    (afterEvent h k a rest s).task g = s.task g := by
  rw [afterEvent, State.task_setTask_other _ hg, State.task_congr (performAct_tasks h a _)]

theorem task_afterEvent_same (h : HandleId) (k : Task) (a : Act) (rest : List Act) (s : State) :
    (afterEvent h k a rest s).task h = some ⟨rest, (performAct h a ⟨k.acc, s⟩).acc, k.fin⟩ :=
  State.task_setTask_same _ _ _

/-- An event changes nothing of who holds lines. -/
theorem holds_afterEvent {s : State} {h : HandleId} {k : Task} (hk : s.task h = some k) (a : Act) (rest : List Act)
    (g : HandleId) : (afterEvent h k a rest s).holds g = s.holds g := by
  by_cases hg : g = h
  · rw [hg, State.holds_of_task (task_afterEvent_same h k a rest s), State.holds_of_task hk, handle_afterEvent]
  · rw [State.holds, State.holds, State.initialising, State.initialising, handle_afterEvent, task_afterEvent_other hg]

theorem canonical_afterEvent {s : State} (hc : Canonical s) (h : HandleId) (k : Task) (a : Act) (rest : List Act) :
    Canonical (afterEvent h k a rest s) := by
  obtain ⟨hhandles, hlines, htasks⟩ := hc
  refine ⟨?_, performAct_rising h a ⟨k.acc, s⟩ hlines, ?_⟩
  · simpa [afterEvent] using hhandles
  · simpa [afterEvent] using Assoc.rising_set h _ htasks

/-- An event opens or closes on the save stack the region it opens or closes of its operation. -/
theorem regionsMatch_afterEvent {s : State} {h : HandleId} {k : Task} {a : Act} {rest : List Act}
    (hr : Assoc.rising s.tasks = true) (hm : RegionsMatch s) (hk : s.task h = some k) (ha : k.acts = a :: rest) :
    RegionsMatch (afterEvent h k a rest s) := by
  obtain ⟨m, -, hlen⟩ := depthAfter_of_regionsMatch hr hm hk
  obtain ⟨hone, hrest⟩ := openRegions_tail (ha ▸ hm.2 h k hk)
  have hdepth : (afterEvent h k a rest s).excl.length = openRegions rest + m := by
    refine performAct_depth h a ⟨k.acc, s⟩ ?_
    have := depthAfter_add [a] _ _ m hone
    rwa [← ha, Nat.add_comm, hlen] at this
  have hopen : openOf (s.task h) = openRegions k.acts := by rw [hk]; rfl
  refine regionsMatch_set hm hr (h := h) (k := ⟨rest, (performAct h a ⟨k.acc, s⟩).acc, k.fin⟩) ?_ hrest ?_
  · simp [afterEvent]
  · rw [hopen, hdepth, ← hlen]; ring

/-- An operation in progress has performed one event of several. -/
theorem safe_afterEvent {s : State} {h : HandleId} {k : Task} {a : Act} {rest : List Act} (hs : Safe s)
    (hk : s.task h = some k) (ha : k.acts = a :: rest) : Safe (afterEvent h k a rest s) where
  canonical := canonical_afterEvent hs.canonical h k a rest
  params := by simpa [afterEvent] using hs.params
  apart := linesApart_congr hs.apart (fun g hg => holds_afterEvent hk a rest g ▸ hg) (handle_afterEvent h k a rest s)
  reach := fun g k' hk' => by
    rw [holds_afterEvent hk]
    by_cases hg : g = h
    · subst hg
      cases (task_afterEvent_same g k a rest s).symm.trans hk'
      refine (hs.reach g k hk).imp_right fun ⟨hfin, hall⟩ => ⟨hfin, ?_⟩
      rw [ha, List.all_cons, Bool.and_eq_true] at hall
      exact hall.2
    · exact hs.reach g k' (task_afterEvent_other hg k a rest s ▸ hk')
  regions := regionsMatch_afterEvent (tasks_rising hs) hs.regions hk ha

/-- An operation in progress has performed all its events and is in progress no more. -/
theorem safe_runActs {s : State} {h : HandleId} {k : Task} (hs : Safe s) (hk : s.task h = some k) :
    Safe (runActs h k.acts ⟨k.acc, s.clearTask h⟩).st := by
  obtain ⟨hrising, hlines, htasks⟩ := hs.canonical
  have hholds : ∀ g, g ≠ h → (runActs h k.acts ⟨k.acc, s.clearTask h⟩).st.holds g = s.holds g := fun g hg => by
    simp [hg]
  refine ⟨⟨?_, runActs_rising h k.acts ⟨k.acc, s.clearTask h⟩ hlines, ?_⟩, ?_, ?_, fun g k' hk' => ?_, ?_⟩
  · simpa using hrising
  · simpa using Assoc.rising_erase h htasks
  · simpa using hs.params
  · refine linesApart_update hs.apart (h := h) (fun g hg hh => hholds g hg ▸ hh) (fun g _ => by simp) fun hh => ?_
    have hb : (s.handle h).bound = true := by
      rw [State.holds_of_idle (by simp)] at hh
      simpa using hh
    simpa [MayHold] using mayHold_of_holds hs.apart (State.holds_of_bound hb)
  · rw [runActs_task] at hk'
    have hg : g ≠ h := by rintro rfl; simp at hk'
    rw [State.task_clearTask_other s hg] at hk'
    rw [hholds g hg]
    exact hs.reach g k' hk'
  · obtain ⟨m, hdepth, hlen⟩ := depthAfter_of_regionsMatch htasks hs.regions hk
    have hexcl := runActs_depth h k.acts ⟨k.acc, s.clearTask h⟩ hdepth
    have ho : openOf (s.task h) = openRegions k.acts := by rw [hk]; rfl
    exact regionsMatch_erase hs.regions htasks (h := h) (by simp) (by rw [ho, hexcl, hlen])

/-! ## Each part of a step keeps a safe state safe -/

/-- What an operation on a valid handle starts balances, and it is no init. -/
theorem frameActs_balance {as : List Act} {f : Finish} (ha : FrameActs as f) (n : Nat) : depthAfter n as = some n := by
  cases ha with
  | write cmd pay w => exact depthAfter_self _ (fun n bs => depthAfter_writeActs n cmd pay w bs) n
  | read cmd w k => exact depthAfter_self _ (fun n bs => depthAfter_readActs n cmd w bs) n
  | settle cmd pay w => exact depthAfter_writeActs n cmd pay w _
  | start c d =>
    rw [depthAfter_writeActs]
    exact depthAfter_self _ (fun n bs => depthAfter_readActs n d 8 bs) n

theorem frameActs_ne_bind {as : List Act} {f : Finish} (ha : FrameActs as f) : f ≠ .bind := by
  cases ha <;> simp

theorem safe_issue {i : Instr} {s t : State} (hs : Safe s) (e : IssueNext i s t) : Safe t := by
  cases e with
  | ended v e => exact e ▸ safe_logReturn hs _ v
  | released h hi hf e => exact e ▸ safe_logReturn (safe_setHandle hs hf (fun hb => by simp at hb)) _ _
  | guarded h hi hf k e =>
    exact e ▸ safe_setTask hs hf (fun _ => rfl) (fun hb => by simp at hb) (.inr (.inr ⟨⟨k, rfl⟩, rfl⟩))
  | frame h hi hf hb as f ha e =>
    exact e ▸ safe_setTask hs hf (frameActs_balance ha) (fun hbind => absurd hbind (frameActs_ne_bind ha)) (.inl hb)
  | init h clk dq rst a b c hi hf ha e =>
    have mayHold : MayHold s h ⟨(s.handle h).bound, clk, dq, rst, a, b, c⟩ := State.aliased_eq_false.mp ha
    refine e ▸ safe_setTask (safe_setHandle hs hf fun _ => mayHold) (by simpa using hf) (fun _ => rfl) (fun _ => ?_)
      (.inr (.inl rfl))
    rw [State.handle_setHandle_same]
    exact ⟨mayHold.1, fun g hg hh => by
      rw [State.handle_setHandle_other _ hg]
      exact mayHold.2 g hg (by rwa [State.holds_setHandle_other _ hg] at hh)⟩

/-- An operation that polls or binds holds its handle's lines, and unless it is an init its handle is valid. -/
theorem holds_of_not_guarded {s : State} (hr : HoldersReachLines s) {h : HandleId} {k : Task} (hk : s.task h = some k)
    (hf : ∀ r, k.fin ≠ .guarded r) : s.holds h = true :=
  (hr h k hk).resolve_right fun ⟨⟨r, e⟩, _⟩ => hf r e

theorem safe_finish {s t : State} {h : HandleId} {k : Task} (hs : Safe s) (hk : s.task h = some k)
    (e : FinishNext h k.fin (runActs h k.acts ⟨k.acc, s.clearTask h⟩).st t) : Safe t := by
  have ran := safe_runActs hs hk
  have hn : (runActs h k.acts ⟨k.acc, s.clearTask h⟩).st.task h = none := by simp
  have hhandle : (runActs h k.acts ⟨k.acc, s.clearTask h⟩).st.handle h = s.handle h := by simp
  cases e with
  | returned v e => exact e ▸ safe_logReturn ran _ v
  | polls hf e =>
    have hh : s.holds h = true := holds_of_not_guarded hs.reach hk (by rcases hf with hf | hf <;> simp [hf])
    have hb : (s.handle h).bound = true := by
      rw [State.holds_of_task hk] at hh
      rcases hf with hf | hf <;> simpa [hf] using hh
    exact e ▸ safe_setTask ran hn (frameActs_balance (.read _ _ .raw)) (fun hbind => by cases hbind)
      (.inl (hhandle ▸ hb))
  | binds hf e =>
    have hh : s.holds h = true := holds_of_not_guarded hs.reach hk (by simp [hf])
    have mayHold := mayHold_of_holds hs.apart hh
    refine e ▸ safe_logReturn (safe_setHandle ran hn fun _ => ?_) _ _
    rw [hhandle]
    exact ⟨mayHold.1, fun g hg hg' => by simpa using mayHold.2 g hg (by simpa [hg] using hg')⟩

theorem stepClosed_safe : StepClosed Safe where
  popTurn hs := safe_congr hs rfl rfl rfl rfl rfl
  popRequest hs := safe_congr hs rfl rfl rfl rfl rfl
  issue hs e := safe_issue hs e
  event hs hk ha _ := safe_afterEvent hs hk ha
  run hs hk e := safe_finish hs hk e
  setIe _ hs _ := safe_congr hs rfl rfl rfl rfl rfl

/-- Settles O9: each part of a step keeps a safe state safe. -/
theorem stepKeepsSafe : Obligations.StepKeepsSafe :=
  fun _ _ hs e => stepClosed_safe.step hs e

/-- Settles O8: at reset every table is empty. -/
theorem resetIsSafe : Obligations.ResetIsSafe := by
  have hholds : ∀ h, State.reset.holds h = false := fun _ => rfl
  have apart : LinesApart State.reset :=
    ⟨fun h hh => absurd hh (by simp [hholds]), fun h _ _ _ hh => absurd hh (by simp [hholds])⟩
  have notask : ∀ h k, State.reset.task h ≠ some k := fun h k hk => by cases hk
  have unbound : ∀ h, (State.reset.handle h).bound = false := fun _ => rfl
  have params : State.reset.params.wf = true := by
    have hd : Config.defaultCmds.distinct = true := by decide
    simp [Params.wf, State.reset, Config.params, Config.timingUnit, hd]
  refine ⟨⟨⟨rfl, rfl, rfl⟩, params, apart, fun h k hk => absurd hk (notask h k), rfl, fun h k hk => absurd hk (notask h k)⟩,
    ⟨apart, rfl, fun h hb => ?_, fun h k hk => absurd hk (notask h k), fun t ht => ?_⟩, fun h => ⟨unbound h, rfl⟩, rfl,
    rfl, rfl⟩
  · cases (unbound h).symm.trans hb
  · cases ht

/-! ## No step faults -/

/-- A resume turn never refuses, and it faults only where its events would take too much off the save stack. -/
theorem resumeTurn_answers (h : HandleId) (s : State) : (∃ t, resumeTurn h s = .next t) ∨
    resumeTurn h s = .fault .exclUnderflow ∧ ∃ k, s.task h = some k ∧ underflows s.excl.length k.acts = true := by
  cases hk : s.task h with
  | none => exact .inl ⟨s, by rw [resumeTurn, hk]⟩
  | some k =>
    by_cases hu : underflows s.excl.length k.acts = true
    · exact .inr ⟨by simp [resumeTurn, hk, hu], k, rfl, hu⟩
    · rw [resumeTurn_of_task hk (Bool.eq_false_of_not_eq_true hu)]
      exact .inl (exists_finish_next h k.fin _)

/-- Nor does an event turn. -/
theorem eventTurn_answers (h : HandleId) (s : State) : (∃ t, eventTurn h s = .next t) ∨
    eventTurn h s = .fault .exclUnderflow ∧ ∃ k, s.task h = some k ∧ underflows s.excl.length k.acts = true := by
  by_cases hl : ∀ k, s.task h = some k → k.acts.length ≤ 1
  · rw [eventTurn_eq_resumeTurn hl]
    exact resumeTurn_answers h s
  · push Not at hl
    obtain ⟨k, hk, hlen⟩ := hl
    match ha : k.acts, hlen with
    | a :: b :: more, _ =>
      by_cases hu : underflows s.excl.length [a] = true
      · refine .inr ⟨by simp [eventTurn, hk, ha, hu], k, hk, ?_⟩
        by_contra hall
        rw [ha, Bool.not_eq_true] at hall
        cases hu.symm.trans (underflows_afterEvent (h := h) (k := k) hall).1
      · rw [eventTurn_of_more hk ha (Bool.eq_false_of_not_eq_true hu)]
        exact .inl ⟨_, rfl⟩

/-- In a safe state no operation in progress takes too much off the save stack. -/
theorem underflows_of_safe {s : State} (hs : Safe s) {h : HandleId} {k : Task} (hk : s.task h = some k) :
    underflows s.excl.length k.acts = false := by
  obtain ⟨m, hm, -⟩ := depthAfter_of_regionsMatch (tasks_rising hs) hs.regions hk
  exact underflows_of_depthAfter hm

/-- The reasons a step may be refused for. -/
def NamedRefusal (r : Refusal) : Prop :=
  r = .widthTooLarge ∨ r = .fahrenheitOverflow ∨ r = .sharedHandle ∨ r = .aliasedLines ∨ ∃ e, r = .undecodable e

theorem namedRefusal_of_four {r : Refusal}
    (hr : r = .widthTooLarge ∨ r = .fahrenheitOverflow ∨ r = .sharedHandle ∨ r = .aliasedLines) : NamedRefusal r := by
  unfold NamedRefusal
  tauto

/-- The answer is no fault, and if it is a refusal it has one of the named reasons. -/
def NoFault (a : Answer) : Prop := (∀ e, a ≠ .fault e) ∧ ∀ r, a = .refused r → NamedRefusal r

theorem noFault_next (t : State) : NoFault (.next t) := ⟨fun _ e => (by cases e), fun _ e => (by cases e)⟩

theorem noFault_refused {r : Refusal} (hr : NamedRefusal r) : NoFault (.refused r) :=
  ⟨fun _ e => (by cases e), fun _ e => (by cases e; exact hr)⟩

theorem noFault_exec (i : Instr) (s : State) : NoFault (exec i s) := by
  obtain ⟨hfault, hrefused⟩ := refusalsAreTheSpecs i s
  exact ⟨hfault, fun r e => namedRefusal_of_four (hrefused r e)⟩

theorem noFault_issueInstr (i : Instr) (s : State) : NoFault (issueInstr i s) := by
  rw [issueInstr]
  cases hc : callOf i s with
  | refuse r => exact noFault_refused (namedRefusal_of_four (refusal_of_refuse hc))
  | ended u => exact noFault_next u
  | started h k u => exact noFault_next _

theorem noFault_hostTurn {f : Instr → State → Answer} (hf : ∀ i s, NoFault (f i s)) (s : State) :
    NoFault (hostTurn f s) := by
  rcases hostTurn_cases f s with e | ⟨d, e⟩ | ⟨i, e⟩ <;> rw [e]
  · exact noFault_next s
  · exact noFault_refused (.inr (.inr (.inr (.inr ⟨d, rfl⟩))))
  · exact hf i _

/-- An answer of a step is harmless, or a turn found too little on the save stack for its operation. -/
theorem step_noFault (s : State) : NoFault (step s) ∨
    step s = .fault .exclUnderflow ∧ ∃ h k, s.task h = some k ∧ underflows s.excl.length k.acts = true := by
  cases ht : s.turn with
  | call => exact .inl (step_of_turn_call ht ▸ noFault_hostTurn noFault_exec _)
  | issue => exact .inl (step_of_turn_issue ht ▸ noFault_hostTurn noFault_issueInstr _)
  | event h =>
    rw [step_of_turn_event ht]
    rcases eventTurn_answers h s.popTurn with ⟨t, e⟩ | ⟨e, hk⟩
    · exact .inl (e ▸ noFault_next t)
    · exact .inr ⟨e, h, hk⟩
  | resume h =>
    rw [step_of_turn_resume ht]
    rcases resumeTurn_answers h s.popTurn with ⟨t, e⟩ | ⟨e, hk⟩
    · exact .inl (e ▸ noFault_next t)
    · exact .inr ⟨e, h, hk⟩
  | setIe b =>
    rw [step_of_turn_setIe ht, setIeTurn]
    split_ifs
    · exact .inl (noFault_next _)
    · exact .inl (noFault_next _)

/-- Settles O10: only an operation that takes too much off the save stack faults, and in a safe state there is none. -/
theorem safeStateNeverFaults : Obligations.SafeStateNeverFaults := by
  intro s
  rcases step_noFault s with ⟨hfault, hrefused⟩ | ⟨e, h, k, hk, hu⟩
  · exact ⟨fun _ => hfault, hrefused⟩
  · refine ⟨fun hs => ?_, fun r e' => by cases e.symm.trans e'⟩
    cases hu.symm.trans (underflows_of_safe hs hk)

end Sys2Proof.Proofs
end

section
/-! PROOFS. Handles apart (10_state.md R21, 60_exceptions.md R103): what a turn or an operation of one handle leaves of the
others and of their lines. -/

namespace Sys2Proof.Proofs

open Sys2Proof.Machine Sys2Proof.Safety

/-! ## Other handles' records and operations -/

/-- No other handle than `h` got another record or another operation in progress. -/
def OthersKept (h : HandleId) (s t : State) : Prop :=
  ∀ g, g ≠ h → t.handle g = s.handle g ∧ t.task g = s.task g

theorem OthersKept.trans {h : HandleId} {s t u : State} (hst : OthersKept h s t) (htu : OthersKept h t u) :
    OthersKept h s u :=
  fun g hg => ⟨(htu g hg).1.trans (hst g hg).1, (htu g hg).2.trans (hst g hg).2⟩

theorem OthersKept.holds {h g : HandleId} {s t : State} (ho : OthersKept h s t) (hg : g ≠ h) : t.holds g = s.holds g := by
  obtain ⟨hhandle, htask⟩ := ho g hg
  rw [State.holds, State.holds, State.initialising, State.initialising, hhandle, htask]

theorem othersKept_issue {i : Instr} {h : HandleId} {s t : State} (hi : handleOf i = some h) (e : IssueNext i s t) :
    OthersKept h s t := by
  intro g hg
  cases e with
  | ended v e => exact e ▸ ⟨rfl, rfl⟩
  | released h' hi' hf e => cases hi.symm.trans hi'; subst e; simp [hg]
  | guarded h' hi' hf k e => cases hi.symm.trans hi'; subst e; simp [hg]
  | frame h' hi' hf hb as f ha e => cases hi.symm.trans hi'; subst e; simp [hg]
  | init h' clk dq rst a b c hi' hf ha e => cases hi.symm.trans hi'; subst e; simp [hg]

theorem othersKept_run {h : HandleId} {s t : State} {k : Task}
    (e : FinishNext h k.fin (runActs h k.acts ⟨k.acc, s.clearTask h⟩).st t) : OthersKept h s t := by
  intro g hg
  cases e with
  | returned v e => subst e; simp [hg]
  | polls hf e => subst e; simp [hg]
  | binds hf e => subst e; simp [hg]

theorem othersKept_resume {h : HandleId} {s t : State} (e : resumeTurn h s = .next t) : OthersKept h s t := by
  rcases resumeNext e with rfl | ⟨k, -, -, e⟩
  · exact fun _ _ => ⟨rfl, rfl⟩
  · exact othersKept_run (finishNext e)

theorem othersKept_eventTurn {h : HandleId} {s t : State} (e : eventTurn h s = .next t) : OthersKept h s t := by
  rcases eventNext e with ⟨k, a, b, more, -, -, -, rfl⟩ | e
  · exact fun g hg => ⟨handle_afterEvent h k a (b :: more) s g, task_afterEvent_other hg k a (b :: more) s⟩
  · exact othersKept_resume e

/-! ## Lines -/

/-- Where the lines are the same, every latch is. -/
theorem otherLinesKept_of_lines {s t : State} (e : t.lines = s.lines) (x : Handle) : OtherLinesKept x s t :=
  fun l _ => State.latch_congr e l

theorem otherLinesKept_run {h : HandleId} {s t : State} {k : Task}
    (e : FinishNext h k.fin (runActs h k.acts ⟨k.acc, s.clearTask h⟩).st t) : OtherLinesKept (s.handle h) s t := by
  intro l hl
  have hlines := (noEvent_finish e).lines
  rw [State.latch_congr hlines, runActs_latch_other h k.acts ⟨k.acc, s.clearTask h⟩ (by simpa using hl),
    State.latch_clearTask]

theorem otherLinesKept_resume {h : HandleId} {s t : State} (e : resumeTurn h s = .next t) :
    OtherLinesKept (s.handle h) s t := by
  rcases resumeNext e with rfl | ⟨k, -, -, e⟩
  · exact fun _ _ => rfl
  · exact otherLinesKept_run (finishNext e)

theorem otherLinesKept_eventTurn {h : HandleId} {s t : State} (e : eventTurn h s = .next t) :
    OtherLinesKept (s.handle h) s t := by
  rcases eventNext e with ⟨k, a, b, more, -, -, -, rfl⟩ | e
  · exact fun l hl => performAct_latch_other h a ⟨k.acc, s⟩ hl
  · exact otherLinesKept_resume e

/-- Settles O19: an event reaches only its handle's lines, and an end only its handle's record and task. -/
theorem turnsOfOtherHandlesUntouched : Obligations.TurnsOfOtherHandlesUntouched := by
  intro s t h e
  rcases e with e | e
  · exact ⟨othersKept_eventTurn e, otherLinesKept_eventTurn e⟩
  · exact ⟨othersKept_resume e, otherLinesKept_resume e⟩

/-- The rest of an operation leaves its handle's lines what they are. -/
theorem owns_resume {h : HandleId} {s t : State} (e : resumeTurn h s = .next t) (l : LineId) :
    (t.handle h).owns l = (s.handle h).owns l := by
  rcases resumeNext e with rfl | ⟨k, -, -, e⟩
  · rfl
  · cases finishNext e with
    | returned v e => subst e; simp
    | polls hf e => subst e; simp
    | binds hf e => subst e; simp [Handle.owns]

/-- Settles O18: an issue performs no event, and the rest of the operation reaches only its handle's lines. -/
theorem otherHandlesUntouched : Obligations.OtherHandlesUntouched := by
  intro i s t h hi e
  rcases exec_next e with e | ⟨h', u, hi', e, e'⟩
  · have hlines := (noEvent_issue (issueNext e)).lines
    exact ⟨othersKept_issue hi (issueNext e), otherLinesKept_of_lines hlines _⟩
  · cases hi.symm.trans hi'
    have hlines := (noEvent_issue (issueNext e)).lines
    refine ⟨(othersKept_issue hi (issueNext e)).trans (othersKept_resume e'), fun l hl => ?_⟩
    rw [otherLinesKept_resume e' l (owns_resume e' l ▸ hl), State.latch_congr hlines]

/-! ## Lines that another handle holds -/

/-- Events that reach no line leave the lines as they were. -/
theorem lines_runActs_of_no_reach {as : List Act} (ha : as.all (!reachesLine ·) = true) (h : HandleId) (r : Run) :
    (runActs h as r).st.lines = r.st.lines := by
  induction as generalizing r with
  | nil => rfl
  | cons a as ih =>
    rw [List.all_cons, Bool.and_eq_true] at ha
    rw [runActs_cons, ih ha.2]
    cases a with
    | drive | setDir | sample => simp [reachesLine] at ha
    | delayUnit | delaySettle | exclEnter | exclExit => rfl

/-- A line that another handle holds is not of a handle that holds its own. -/
theorem owns_line_of_holds {s : State} (ha : LinesApart s) {h g : HandleId} (hg : g ≠ h) (hh : s.holds h = true)
    (hgh : s.holds g = true) (p : Pin) : (s.handle h).owns ((s.handle g).line p) = false :=
  ha.2 g h _ hg hgh hh (Handle.owns_line _ p)

/-- In a safe state an operation in progress performs its events without touching a line that another handle holds. -/
theorem heldLine_runActs {s : State} (hs : Safe s) {h g : HandleId} (hg : g ≠ h) (hh : s.holds g = true) {k : Task}
    (hk : s.task h = some k) {as : List Act} (hsub : as ⊆ k.acts) (p : Pin) {r : Run} (hr : r.st.handles = s.handles) :
    (runActs h as r).st.latch ((s.handle g).line p) = r.st.latch ((s.handle g).line p) := by
  rcases hs.reach h k hk with hholds | ⟨-, hall⟩
  · refine runActs_latch_other h as r ?_
    rw [State.handle_congr hr]
    exact owns_line_of_holds hs.apart hg hholds hh p
  · refine State.latch_congr (lines_runActs_of_no_reach (List.all_eq_true.mpr fun a ha => ?_) h r) _
    exact List.all_eq_true.mp hall a (hsub ha)

theorem heldLine_resume {s t : State} (hs : Safe s) {h g : HandleId} (hg : g ≠ h) (hh : s.holds g = true)
    (e : resumeTurn h s = .next t) (p : Pin) : t.latch ((s.handle g).line p) = s.latch ((s.handle g).line p) := by
  rcases resumeNext e with rfl | ⟨k, hk, -, e⟩
  · rfl
  · have hlines := (noEvent_finish (finishNext e)).lines
    rw [State.latch_congr hlines, heldLine_runActs hs hg hh hk (List.Subset.refl _) p rfl, State.latch_clearTask]

theorem heldLine_eventTurn {s t : State} (hs : Safe s) {h g : HandleId} (hg : g ≠ h) (hh : s.holds g = true)
    (e : eventTurn h s = .next t) (p : Pin) : t.latch ((s.handle g).line p) = s.latch ((s.handle g).line p) := by
  rcases eventNext e with ⟨k, a, b, more, hk, ha, -, rfl⟩ | e
  · exact heldLine_runActs hs hg hh hk (as := [a]) (by simp [ha]) p (r := ⟨k.acc, s⟩) rfl
  · exact heldLine_resume hs hg hh e p

/-- Settles O56: an issue performs no event, and in a safe state no turn's event reaches a line that another handle holds. -/
theorem heldLinesAreExclusive : Obligations.HeldLinesAreExclusive := by
  intro s t h g p hs hg hh e
  have issued : ∀ {i u}, issueInstr i s = .next u → ∀ l, u.latch l = s.latch l := fun e =>
    State.latch_congr (noEvent_issue (issueNext e)).lines
  rcases e with e | e | ⟨i, hi, e | e⟩
  · exact heldLine_eventTurn hs hg hh e p
  · exact heldLine_resume hs hg hh e p
  · rcases exec_next e with e | ⟨h', u, hi', e, e'⟩
    · exact issued e _
    · cases hi.symm.trans hi'
      have others := othersKept_issue hi (issueNext e)
      have held := heldLine_resume (safe_issue hs (issueNext e)) hg (others.holds hg ▸ hh) e' p
      rwa [(others g hg).1, issued e] at held
  · exact issued e _

end Sys2Proof.Proofs
end

section
/-! PROOFS. init and release (70_reset_and_hazards.md R106, R107). -/

namespace Sys2Proof.Proofs

open Sys2Proof.Machine Sys2Proof.Safety

/-! ## init -/

/-- A latch is its level and its direction. -/
theorem latch_line {s : State} {h : HandleId} {p : Pin} {o : Bit} {d : Dir} (ho : s.outOf h p = o) (hd : s.dirOf h p = d) :
    s.latch ((s.handle h).line p) = ⟨o, d⟩ := by
  rw [← ho, ← hd, State.outOf, State.dirOf]

/-- init's events leave its three lines at their idle levels, all outputs (R106). -/
theorem latch_runActs_initActs {h : HandleId} {s : State} {acc : Word} (hd : (s.handle h).distinct = true) :
    (runActs h initActs ⟨acc, s⟩).st.latch (s.handle h).clk = ⟨true, .output⟩ ∧
    (runActs h initActs ⟨acc, s⟩).st.latch (s.handle h).dq = ⟨true, .output⟩ ∧
    (runActs h initActs ⟨acc, s⟩).st.latch (s.handle h).rst = ⟨false, .output⟩ := by
  have pin := runActs_pin h initActs ⟨acc, s⟩ hd
  have at_line : ∀ p, (runActs h initActs ⟨acc, s⟩).st.latch ((s.handle h).line p) =
      ⟨outAfter p (s.outOf h p) initActs, dirAfter p (s.dirOf h p) initActs⟩ := fun p => by
    have := latch_line (pin p).1 (pin p).2
    rwa [runActs_handle] at this
  exact ⟨at_line .clk, at_line .dq, at_line .rst⟩

/-- What init's events put into the trace. -/
theorem traced_initActs (h : HandleId) (acc : Word) (s : State) :
    Traced h (initEvents (s.handle h).clk (s.handle h).dq (s.handle h).rst) s (runActs h initActs ⟨acc, s⟩).st :=
  runActs_trace h initActs ⟨acc, s⟩

/-- Settles O46: init writes the record, and its six events reach the new lines only. -/
theorem initBindsAndIdles : Obligations.InitBindsAndIdles := by
  intro h clk dq rst a b c s hf hcd hcr hdr hfree
  have hd : linesDistinct clk dq rst = true := linesDistinct_iff.mpr ⟨hcd, hcr, hdr⟩
  have he := exec_init h clk dq rst a b c s hf (State.aliased_eq_false.mpr ⟨hd, hfree⟩)
  obtain ⟨others, lines⟩ := otherHandlesUntouched _ _ _ h rfl he
  obtain ⟨hie, hexcl⟩ := interruptStateRestored _ _ _ he
  generalize hu : s.setHandle h ⟨(s.handle h).bound, clk, dq, rst, a, b, c⟩ = u at he others lines hie hexcl
  have hrec : u.handle h = ⟨(s.handle h).bound, clk, dq, rst, a, b, c⟩ := by rw [← hu, State.handle_setHandle_same]
  obtain ⟨lclk, ldq, lrst⟩ := latch_runActs_initActs (h := h) (s := u) (acc := 0#16) (by rw [hrec]; exact hd)
  have htrace := traced_initActs h 0#16 u
  rw [hrec] at lclk ldq lrst htrace
  refine ⟨_, he, by simp, fun g hg => (others g hg).1, lclk, ldq, lrst, lines, ?_, ?_, ?_, ?_, ?_, hie, hexcl, ?_, ?_⟩
  · simpa [Traced, ← hu] using htrace
  · simp [Returned, ← hu]
  · have none_taken : samplesIn initActs = 0 := rfl
    simpa [Drew, ← hu, none_taken] using runActs_drew h initActs ⟨0#16, u⟩
  · simp [← hu]
  · simp [← hu]
  · simp [← hu]
  · simp [← hu]

/-! ## release -/

/-- Settles O48: release writes the record of a valid handle and nothing else. -/
theorem releaseUnbindsOnly : Obligations.ReleaseUnbindsOnly := by
  intro h s hf
  have call : exec (.release h) s = (callRelease h s).run := rfl
  refine ⟨fun hb => ?_, fun hb => ?_⟩
  · simp [call, callRelease, hf, hb, Call.run, IsNoOp, State.logReturn]
  · refine ⟨Assoc.set h { s.handle h with bound := false } s.handles, ?_, ?_, fun g hg => ?_⟩
    · simp [call, callRelease, hf, hb, Call.run, State.logReturn, State.setHandle]
    · exact State.handle_setHandle_same s h _
    · exact State.handle_setHandle_other s hg _

end Sys2Proof.Proofs
end

section
/-! PROOFS. Between operations (10_state.md R25, R26, R33): a host that runs its operations whole leaves every valid handle's
lines at rest, no region open, and only polls in progress. -/

namespace Sys2Proof.Proofs

open Sys2Proof.Machine Sys2Proof.Safety

/-! ## Each update keeps a state between operations -/

theorem atRest_congr {s t : State} {h : HandleId} (hs : AtRest h s) (hh : t.handle h = s.handle h)
    (hl : ∀ p, t.latch ((s.handle h).line p) = s.latch ((s.handle h).line p)) : AtRest h t := by
  refine ⟨?_, fun p => ?_⟩
  · rw [State.outOf, hh, hl]; exact hs.clk
  · rw [State.dirOf, hh, hl]; exact hs.dirs p

/-- Being between operations is a property of the parameters, the three tables, the save stack and the schedule. -/
theorem between_congr {s t : State} (hs : BetweenOperations s) (hp : t.params = s.params) (hh : t.handles = s.handles)
    (hl : t.lines = s.lines) (ht : t.tasks = s.tasks) (hx : t.excl = s.excl) (hd : t.sched ⊆ s.sched) :
    BetweenOperations t where
  apart := linesApart_congr hs.apart (fun g => by rw [State.holds_congr hh ht]; exact id) (State.handle_congr hh)
  excl := hx.trans hs.excl
  rest := fun h hb => by
    rw [State.handle_congr hh] at hb
    exact atRest_congr (hs.rest h hb) (State.handle_congr hh h) fun p => State.latch_congr hl _
  polls := fun h k hk => by
    rw [State.task_congr ht] at hk
    rw [pollTask_congr hp, State.handle_congr hh]
    exact hs.polls h k hk
  sched := fun k hk => hs.sched k (hd hk)

theorem between_logReturn {s : State} (hs : BetweenOperations s) (h : Option HandleId) (v : Ending) :
    BetweenOperations (s.logReturn h v) :=
  between_congr hs rfl rfl rfl rfl rfl (List.Subset.refl _)

/-- Taking an operation off leaves the others the polls they were. -/
theorem between_clearTask {s : State} (hs : BetweenOperations s) (h : HandleId) : BetweenOperations (s.clearTask h) where
  apart := by
    refine linesApart_congr hs.apart (fun g hg => ?_) (fun g => by simp)
    by_cases e : g = h
    · subst e
      rw [State.holds_of_idle (by simp)] at hg
      exact State.holds_of_bound (by simpa using hg)
    · rwa [State.holds_clearTask_other e] at hg
  excl := hs.excl
  rest := fun g hb => atRest_congr (hs.rest g hb) rfl fun _ => rfl
  polls := fun g k hk => by
    have hg : g ≠ h := by rintro rfl; simp at hk
    rw [State.task_clearTask_other s hg] at hk
    exact hs.polls g k hk
  sched := hs.sched

/-- The poll may be in progress on a valid handle. -/
theorem between_setTask_poll {s : State} (hs : BetweenOperations s) {h : HandleId} (hb : (s.handle h).bound = true) :
    BetweenOperations (s.setTask h (pollTask s)) where
  apart := by
    refine linesApart_congr hs.apart (fun g hg => ?_) (fun g => by simp)
    by_cases e : g = h
    · exact State.holds_of_bound (e ▸ hb)
    · rwa [State.holds_setTask_other _ e] at hg
  excl := hs.excl
  rest := fun g hb => atRest_congr (hs.rest g hb) rfl fun _ => rfl
  polls := fun g k hk => by
    by_cases e : g = h
    · subst e
      cases (State.task_setTask_same s g _).symm.trans hk
      exact ⟨rfl, hb⟩
    · rw [State.task_setTask_other s e] at hk
      exact hs.polls g k hk
  sched := hs.sched

/-- A handle with nothing in progress may get a record, valid only where its lines are its to hold and at rest. -/
theorem between_setHandle {s : State} (hs : BetweenOperations s) {h : HandleId} {x : Handle} (hn : s.task h = none)
    (hx : x.bound = true → MayHold s h x ∧ AtRest h (s.setHandle h x)) : BetweenOperations (s.setHandle h x) where
  apart := by
    refine linesApart_update hs.apart (h := h) (fun g hg => by simp [hg]) (fun g hg => by simp [hg]) fun hh => ?_
    rw [State.holds_of_idle (by simpa using hn), State.handle_setHandle_same] at hh
    simpa [MayHold] using (hx hh).1
  excl := hs.excl
  rest := fun g hb => by
    by_cases e : g = h
    · subst e
      rw [State.handle_setHandle_same] at hb
      exact (hx hb).2
    · rw [State.handle_setHandle_other s e] at hb
      exact atRest_congr (hs.rest g hb) (State.handle_setHandle_other s e x) fun _ => rfl
  polls := fun g k hk => by
    rw [State.task_setHandle] at hk
    have e : g ≠ h := by rintro rfl; cases hn.symm.trans hk
    rw [State.handle_setHandle_other s e]
    exact hs.polls g k hk
  sched := hs.sched

/-- Events that balance and leave the lines of every valid handle at rest keep a state between operations. -/
theorem between_runActs {s : State} (hs : BetweenOperations s) {h : HandleId} {as : List Act} {acc : Word}
    (hx : ∀ x, exclAfter x as = x) (hrest : ∀ g, (s.handle g).bound = true → AtRest g (runActs h as ⟨acc, s⟩).st) :
    BetweenOperations (runActs h as ⟨acc, s⟩).st where
  apart := linesApart_congr hs.apart (fun g hg => by simpa using hg) (fun g => by simp)
  excl := (region_runActs hx h ⟨acc, s⟩).2.trans hs.excl
  rest := fun g hb => hrest g (by simpa using hb)
  polls := fun g k hk => by
    rw [runActs_task] at hk
    rw [runActs_handle, pollTask_congr (runActs_params h as ⟨acc, s⟩)]
    exact hs.polls g k hk
  sched := by simpa using hs.sched

/-! ## What a frame leaves of a handle at rest -/

/-- Events that leave CLK high and all three lines outputs, as a frame does (R26, the spec's decision D29). -/
structure LeavesRest (as : List Act) : Prop where
  clk : ∀ c, outAfter .clk c as = true
  dirs : ∀ p, dirAfter p .output as = .output

theorem leavesRest_readActs (cmd : Byte) (w : Nat) : LeavesRest (readActs cmd w) :=
  ⟨fun c => outAfter_readActs .clk c cmd w, fun p => by simp [dirAfter_readActs]⟩

theorem leavesRest_startActs (c d : Byte) : LeavesRest (writeActs c 0 0 ++ readActs d 8) :=
  ⟨fun b => by simp [outAfter_append, outAfter_readActs],
    fun p => by simp [dirAfter_append, dirAfter_readActs, dirAfter_writeActs]⟩

/-- A frame of a valid handle leaves its own lines at rest and reaches no other's. -/
theorem between_frame {s : State} (hs : BetweenOperations s) {h : HandleId} (hb : (s.handle h).bound = true)
    {as : List Act} {acc : Word} (hx : ∀ x, exclAfter x as = x) (hr : LeavesRest as) :
    BetweenOperations (runActs h as ⟨acc, s⟩).st := by
  have hh : s.holds h = true := State.holds_of_bound hb
  refine between_runActs hs hx fun g hg => ?_
  by_cases e : g = h
  · subst e
    have pin := runActs_pin g as ⟨acc, s⟩ (hs.apart.1 g hh)
    refine ⟨(pin .clk).1.trans (hr.clk _), fun p => (pin p).2.trans ?_⟩
    rw [show State.dirOf s g p = .output from (hs.rest g hg).dirs p]
    exact hr.dirs p
  · exact atRest_congr (hs.rest g hg) (by simp) fun p =>
      runActs_latch_other h as ⟨acc, s⟩ (owns_line_of_holds hs.apart e hh (State.holds_of_bound hg) p)

/-- The guard path of an invalid handle reaches no line. -/
theorem between_guard {s : State} (hs : BetweenOperations s) (h : HandleId) (acc : Word) :
    BetweenOperations (runActs h guardActs ⟨acc, s⟩).st :=
  between_runActs hs (fun _ => rfl) fun g hb => atRest_congr (hs.rest g hb) rfl fun _ => rfl

/-- init leaves the lines of its new record at rest and reaches no other valid handle's (R106). -/
theorem between_init {s t : State} (hs : BetweenOperations s) {h : HandleId} {clk dq rst : LineId} {a b c : PortRef}
    (hf : s.busy h = false) (ha : s.aliased h clk dq rst = false) (e : exec (.init h clk dq rst a b c) s = .next t) :
    BetweenOperations t := by
  obtain ⟨hd, hfree⟩ := State.aliased_eq_false.mp ha
  obtain ⟨hcd, hcr, hdr⟩ := linesDistinct_iff.mp hd
  obtain ⟨u, he, hrec, hother, lclk, ldq, lrst, lines, -, -, -, hparams, htasks, -, hexcl, -, hsched⟩ :=
    initBindsAndIdles h clk dq rst a b c s hf hcd hcr hdr hfree
  obtain rfl := Host.Outcome.next.inj (he.symm.trans e)
  have hholds : ∀ g, g ≠ h → u.holds g = s.holds g := fun g hg => by
    rw [State.holds, State.holds, State.initialising, State.initialising, hother g hg, State.task_congr htasks]
  have apart : LinesApart u := linesApart_update hs.apart (h := h) (fun g hg hh => hholds g hg ▸ hh) hother
    fun _ => hrec ▸ ⟨hd, hfree⟩
  refine ⟨apart, hexcl.trans hs.excl, fun g hb => ?_, fun g k hk => ?_, hsched ▸ hs.sched⟩
  · by_cases hg : g = h
    · subst hg
      refine ⟨by rw [State.outOf, hrec, Handle.line, lclk], fun p => ?_⟩
      cases p <;> rw [State.dirOf, hrec, Handle.line]
      · rw [lclk]
      · rw [ldq]
      · rw [lrst]
    · have hh : u.holds h = true := State.holds_of_bound (by rw [hrec])
      have away := owns_line_of_holds apart hg hh (State.holds_of_bound hb)
      rw [hother g hg] at hb away
      exact atRest_congr (hs.rest g hb) (hother g hg) fun p => lines _ (away p)
  · rw [State.task_congr htasks] at hk
    obtain ⟨hpoll, hb⟩ := hs.polls g k hk
    have hg : g ≠ h := by rintro rfl; simp [State.busy, hk] at hf
    exact ⟨hpoll.trans (pollTask_congr hparams).symm, by rw [hother g hg]; exact hb⟩

/-! ## Whole operations -/

theorem between_exec {i : Instr} {s t : State} (hs : BetweenOperations s) (e : exec i s = .next t) :
    BetweenOperations t := by
  rcases execCases i s with ⟨r, -, e'⟩ | ⟨-, v, e'⟩ | ⟨h, -, v, e'⟩ | ⟨h, as, v, -, hx, -, hend, -, e'⟩ |
    ⟨h, -, hb, -, e'⟩ | ⟨h, clk, dq, rst, a, b, c, rfl, hf, ha⟩ | ⟨h, rfl, hf, -, e'⟩
  · cases e'.symm.trans e
  · cases e'.symm.trans e
    exact between_logReturn hs none v
  · cases e'.symm.trans e
    exact between_logReturn hs (some h) v
  · cases e'.symm.trans e
    refine between_logReturn ?_ (some h) v
    rcases hend with rfl | ⟨hb, hclk, hdirs⟩
    · exact between_guard hs h _
    · exact between_frame hs hb hx ⟨hclk, hdirs⟩
  · obtain rfl := Host.Outcome.next.inj (e'.symm.trans e)
    have ran := between_frame (acc := 0#16) hs hb (exclAfter_startActs · (s.code .startConv) (s.code .readConfig))
      (leavesRest_startActs _ _)
    have polls := between_setTask_poll ran (h := h) (by simpa using hb)
    rwa [pollTask_congr (runActs_params h _ ⟨0#16, s⟩)] at polls
  · exact between_init hs hf ha e
  · cases e'.symm.trans e
    exact between_logReturn (between_setHandle hs (by simpa [State.busy] using hf) fun hb => by cases hb) _ _

/-- A resume turn between operations is one poll read. -/
theorem between_resume {h : HandleId} {s t : State} (hs : BetweenOperations s) (e : resumeTurn h s = .next t) :
    BetweenOperations t := by
  rcases resumeNext e with rfl | ⟨k, hk, -, e⟩
  · exact hs
  · obtain ⟨rfl, hb⟩ := hs.polls h k hk
    have ran : BetweenOperations (runActs h (pollTask s).acts ⟨(pollTask s).acc, s.clearTask h⟩).st :=
      between_frame (between_clearTask hs h) (by simpa using hb) (fun x => exclAfter_readActs x _ _)
        (leavesRest_readActs _ _)
    cases finishNext e with
    | returned v e => exact e ▸ between_logReturn ran _ v
    | polls hf e => exact e ▸ between_setTask_poll ran (by simpa using hb)
    | binds hf e => cases hf

/-- The turn of a schedule of whole turns is whole, and so is the default turn. -/
theorem turn_whole {s : State} (hs : ∀ t, t ∈ s.sched → Turn.whole t = true) : Turn.whole s.turn = true := by
  rw [State.turn]
  cases hd : s.sched with
  | cons t rest => exact hs t (by simp [hd])
  | nil => cases s.tasks <;> rfl

/-- Settles O11: on whole turns only polls are ever in progress, and each operation leaves its lines at rest. -/
theorem wholeOperationsEndAtRest : Obligations.WholeOperationsEndAtRest := by
  intro s t hs e
  have hpop : BetweenOperations s.popTurn := between_congr hs rfl rfl rfl rfl rfl (List.tail_subset _)
  have whole := turn_whole hs.sched
  cases stepNext e with
  | idle e => exact e ▸ hpop
  | exec i e =>
    have hreq : BetweenOperations s.popTurn.popRequest := between_congr hpop rfl rfl rfl rfl rfl (List.Subset.refl _)
    exact between_exec hreq e
  | issue ht i e => rw [ht] at whole; cases whole
  | event h ht e => rw [ht] at whole; cases whole
  | resume h e => exact between_resume hpop e
  | setIe b hx e => exact e ▸ between_congr hpop rfl rfl rfl rfl rfl (List.Subset.refl _)

end Sys2Proof.Proofs
end

section
/-! PROOFS. What one event does to the lines (10_state.md R23), the codec called on its own (42_temperature_codec.md R87 to
R89) and the flag tests (R93). -/

namespace Sys2Proof.Proofs

open Sys2Proof.Machine Sys2Proof.Safety

/-! ## One event -/

/-- Settles O22: Drive and SetDir write one field of their line's latch, the other events no latch. -/
theorem eventsSetTheirLineOnly : Obligations.EventsSetTheirLineOnly := by
  intro h p b d i r
  refine ⟨?_, ?_, fun l hl => ⟨?_, ?_⟩, fun l => ⟨rfl, rfl, rfl, rfl, rfl⟩⟩
  · simp [performAct, State.latch_drive]
  · simp [performAct, State.latch_setDir]
  · simp [performAct, State.latch_drive, hl]
  · simp [performAct, State.latch_setDir, hl]

/-! ## The codec on its own -/

/-- Settles O49: decodeC returns `celsiusOf` of its operand. -/
theorem decodeCReturnsCelsius : Obligations.DecodeCReturnsCelsius :=
  fun r _ => ⟨celsiusOf r, rfl, isCelsius_celsiusOf r⟩

/-- Inside its domain toF is the exact quotient, truncated toward zero (R88). -/
theorem fahrenheitOf_eq {c : Word} (hlo : -3640 ≤ c.toInt) (hhi : c.toInt ≤ 3623) :
    ∃ f, fahrenheitOf c = some f ∧ f.toInt = (9 * c.toInt + 160).tdiv 5 := by
  have fits : (fitsWord (9 * c.toInt + 160) && fitsWord (9 * c.toInt)) = true := by
    simp only [fitsWord, Bool.and_eq_true, decide_eq_true_eq]; omega
  obtain ⟨blo, bhi⟩ := tdiv5_bounds (n := 9 * c.toInt + 160) (by omega) (by omega)
  exact ⟨_, if_pos fits, wrap16_toInt blo bhi⟩

/-- Outside its domain one of toF's two checks fails (R88). -/
theorem fahrenheitOf_eq_none {c : Word} (hc : c.toInt < -3640 ∨ 3623 < c.toInt) : fahrenheitOf c = none := by
  refine if_neg ?_
  simp only [fitsWord, Bool.and_eq_true, decide_eq_true_eq]
  omega

theorem exec_toF (c : Word) (s : State) : exec (.toF c) s = (codecCall (fahrenheitOf c) s).run := rfl

/-- Settles O50: the domain is exactly where neither check of toF fails. -/
theorem toFReturnsOrRefuses : Obligations.ToFReturnsOrRefuses := by
  intro c s
  refine ⟨fun hlo hhi => ?_, fun hc => ?_⟩
  · obtain ⟨f, hf, hval⟩ := fahrenheitOf_eq hlo hhi
    exact ⟨f, by rw [exec_toF, hf]; rfl, hval⟩
  · rw [exec_toF, fahrenheitOf_eq_none hc]; rfl

/-- Settles O51: a shift by one doubles modulo 2^16. -/
theorem encodeTReturnsTwice : Obligations.EncodeTReturnsTwice := by
  intro t s
  refine ⟨thresholdPayload t, rfl, ?_⟩
  rw [thresholdPayload_eq, BitVec.toNat_ofNat]

/-! ## Flags -/

/-- The byte of a flag shows that flag and no other (10_state.md R31). -/
theorem test_bit (j k : Flag) : Flag.test j.bit k = decide (k = j) := by
  cases j <;> cases k <;> rfl

theorem position_lt (k : Flag) : k.position < 8 := by cases k <;> decide

/-- Settles O52: setting joins the flag's own bit to the byte, clearing takes it off. -/
theorem flagTestsAreIndependent : Obligations.FlagTestsAreIndependent := by
  intro c j k
  have hbit : j.bit.getLsbD k.position = decide (k = j) := test_bit j k
  refine ⟨?_, ?_⟩
  · rw [Flag.test, Flag.set, BitVec.getLsbD_or, hbit, Bool.or_comm, Flag.test]
  · rw [Flag.test, Flag.clear, BitVec.getLsbD_and, BitVec.getLsbD_not, hbit, Bool.and_comm, Flag.test]
    simp [position_lt]

end Sys2Proof.Proofs
end

section
/-! PROOFS. Along a primitive: the interrupt state at each of its events (20_memory.md R41, 60_exceptions.md R98), DQ's
direction (70_reset_and_hazards.md R117), and what stays as it was (40_transaction_engine.md R70). -/

namespace Sys2Proof.Proofs

open Sys2Proof.Machine Sys2Proof.Safety

/-! ## The exclusion region, event by event -/

theorem quiet_take {as : List Act} (hq : quiet as = true) (k : Nat) : quiet (as.take k) = true :=
  List.all_eq_true.mpr fun a ha => List.all_eq_true.mp hq a (List.mem_of_mem_take ha)

/-- After a proper non-empty part of a region with none inside it, one more value is saved and interrupts are off. -/
theorem exclAfter_take_region {body : List Act} (hq : quiet body = true) (x : Bit × List Bit) {k : Nat} (hk : 0 < k)
    (hl : k < (.exclEnter :: (body ++ [.exclExit]) : List Act).length) :
    exclAfter x ((.exclEnter :: (body ++ [.exclExit])).take k) = (false, x.1 :: x.2) := by
  obtain ⟨j, rfl⟩ := Nat.exists_eq_succ_of_ne_zero hk.ne'
  have hj : j ≤ body.length := by simpa using hl
  rw [Nat.succ_eq_add_one, List.take_succ_cons, List.take_append_of_le_length hj]
  exact exclAfter_quiet (false, x.1 :: x.2) (quiet_take hq j)

theorem exclAfter_take_writeActs (x : Bit × List Bit) (cmd : Byte) (pay : Word) (w : Nat) {k : Nat} (hk : 0 < k)
    (hl : k < (writeActs cmd pay w).length) : exclAfter x ((writeActs cmd pay w).take k) = (false, x.1 :: x.2) := by
  rw [writeActs_eq] at hl ⊢
  exact exclAfter_take_region (quiet_writeBody cmd pay w) x hk hl

/-- The write that a read calls is 43 events long, from the read's 3rd to its 45th (R67). -/
theorem length_inner_write (cmd : Byte) : (writeActs cmd noPayload 0).length = 43 := by
  rw [length_writeActs]; rfl

theorem length_readTail (w : Nat) : (readTail w).length = 3 + 5 * w := by
  simp [readTail, length_sampleCells]; omega

/-- A read is two deep inside the write it calls, one deep before it and after it (the spec's decision D31). -/
theorem exclAfter_take_readActs (x : Bit × List Bit) (cmd : Byte) (w : Nat) {k : Nat} (hk : 0 < k)
    (hl : k < (readActs cmd w).length) : exclAfter x ((readActs cmd w).take k) =
      (false, if 3 ≤ k ∧ k ≤ 44 then false :: x.1 :: x.2 else x.1 :: x.2) := by
  have hinner := length_inner_write cmd
  rw [length_readActs] at hl
  rw [readActs_eq]
  match k, hk with
  | 1, _ => rfl
  | 2, _ => rfl
  | j + 3, _ =>
    rw [List.take_succ_cons, List.take_succ_cons]
    change exclAfter (false, x.1 :: x.2) ((writeActs cmd noPayload 0 ++ (readTail w ++ [Act.exclExit])).take (j + 1)) = _
    by_cases hj : j + 3 ≤ 44
    · rw [List.take_append_of_le_length (by omega), exclAfter_take_writeActs _ _ _ _ (by omega) (by omega),
        if_pos ⟨by omega, hj⟩]
    · obtain ⟨i, hi⟩ := Nat.exists_eq_add_of_le (show 43 ≤ j + 1 by omega)
      have htail : i ≤ (readTail w).length := by rw [length_readTail]; omega
      rw [hi, ← hinner, List.take_length_add_append, List.take_append_of_le_length htail, exclAfter_append,
        exclAfter_writeActs, exclAfter_quiet _ (quiet_take (quiet_readTail w) i), if_neg (by omega)]

/-- Settles O16: what each part of a primitive makes of the interrupt state. -/
theorem regionKeepsInterruptsOff : Obligations.RegionKeepsInterruptsOff := by
  intro h cmd pay w k r hk
  refine ⟨fun hl => ?_, fun hl => ?_, fun hl => ?_⟩
  · exact Prod.mk.inj ((runActs_excl h _ r).trans (exclAfter_take_writeActs _ cmd pay w hk hl))
  · exact Prod.mk.inj ((runActs_excl h _ r).trans (exclAfter_take_region (body := []) rfl _ hk hl))
  · exact Prod.mk.inj ((runActs_excl h _ r).trans (exclAfter_take_readActs _ cmd w hk hl))

/-! ## DQ's direction, event by event -/

/-- Events are safe for DQ when their first part is, and the rest is from the direction that part leaves. -/
theorem dqSafe_append (d : Dir) (as bs : List Act) :
    dqSafe d (as ++ bs) = (dqSafe d as && dqSafe (dirAfter .dq d as) bs) := by
  induction as generalizing d with
  | nil => rfl
  | cons a as ih =>
    cases a with
    | drive p b => cases p <;> simp [dqSafe, ih, dirAfter, Act.dirAfter, Bool.and_assoc]
    | setDir p e => cases p <;> simp [dqSafe, ih, dirAfter, Act.dirAfter, Bool.and_assoc]
    | _ => simp [dqSafe, ih, dirAfter, Act.dirAfter, Bool.and_assoc]

/-- Events that start with DQ in direction `d` are safe for DQ and leave it in direction `e`. -/
def DqRuns (d : Dir) (as : List Act) (e : Dir) : Prop := dqSafe d as = true ∧ dirAfter .dq d as = e

theorem DqRuns.append {d e f : Dir} {as bs : List Act} (ha : DqRuns d as e) (hb : DqRuns e bs f) :
    DqRuns d (as ++ bs) f := by
  obtain ⟨hsafe, rfl⟩ := ha
  refine ⟨?_, by rw [dirAfter_append]; exact hb.2⟩
  rw [dqSafe_append, hsafe, hb.1, Bool.and_self]

/-- Cells that each leave DQ's direction as they find it do so one after the other. -/
theorem DqRuns.flatMap {d : Dir} {cell : Nat → List Act} (hc : ∀ i, DqRuns d (cell i) d) (is : List Nat) :
    DqRuns d (is.flatMap cell) d := by
  induction is with
  | nil => exact ⟨rfl, rfl⟩
  | cons i is ih => exact (hc i).append ih

theorem dqRuns_closeWrite (w : Nat) : DqRuns .output (closeWrite w) .output := by
  rw [closeWrite]
  split_ifs
  · exact ⟨rfl, rfl⟩
  · exact ⟨rfl, rfl⟩

/-- A write drives DQ, an output all along (R66). -/
theorem dqRuns_writeActs (cmd : Byte) (pay : Word) (w : Nat) : DqRuns .output (writeActs cmd pay w) .output := by
  have opening : DqRuns .output [.exclEnter, .drive .rst true] .output := ⟨rfl, rfl⟩
  have cells : ∀ (f : Nat → Bit) (is : List Nat), DqRuns .output (is.flatMap fun i => writeCell (f i)) .output :=
    fun f => DqRuns.flatMap fun _ => ⟨rfl, rfl⟩
  have closing : DqRuns .output [.exclExit] .output := ⟨rfl, rfl⟩
  exact (((opening.append (cells cmd.getLsbD _)).append (cells pay.getLsbD _)).append (dqRuns_closeWrite w)).append closing

/-- A read makes DQ an input for its samples and an output again after them (R67, the spec's decision D29). -/
theorem dqRuns_readActs (cmd : Byte) (w : Nat) : DqRuns .output (readActs cmd w) .output := by
  have opening : DqRuns .output [.exclEnter, .drive .rst true] .output := ⟨rfl, rfl⟩
  have turn : DqRuns .output [.setDir .dq .input] .input := ⟨rfl, rfl⟩
  have cells : DqRuns .input (sampleCells w) .input := DqRuns.flatMap (fun _ => ⟨rfl, rfl⟩) _
  have closing : DqRuns .input [.drive .rst false, .setDir .dq .output, .exclExit] .output := ⟨rfl, rfl⟩
  exact (((opening.append (dqRuns_writeActs cmd noPayload 0)).append turn).append cells).append closing

theorem dqRuns_of_frameActs {as : List Act} {f : Finish} (ha : FrameActs as f) : DqRuns .output as .output := by
  cases ha with
  | write cmd pay w => exact dqRuns_writeActs cmd pay w
  | read cmd w k => exact dqRuns_readActs cmd w
  | settle cmd pay w => exact (dqRuns_writeActs cmd pay w).append ⟨rfl, rfl⟩
  | start c d => exact (dqRuns_writeActs c noPayload 0).append (dqRuns_readActs d 8)

/-- Settles O21: an operation starts a frame or a guard path, unless it is an init. -/
theorem dqIsNeverDrivenAsInput : Obligations.DqIsNeverDrivenAsInput := by
  refine ⟨fun i s u h k hc hf => ?_, fun s => (dqRuns_readActs _ _).1⟩
  have shape := callCases i s
  rw [hc] at shape
  cases shape with
  | guarded => rfl
  | frame _ _ _ _ as f ha => exact (dqRuns_of_frameActs ha).1
  | init => exact absurd rfl hf

/-! ## What a primitive leaves alone -/

/-- Only DQ's direction is ever set among these events. -/
def TurnsOnlyDq (as : List Act) : Prop := ∀ p d, .setDir p d ∈ as → p = .dq

theorem turnsOnlyDq_writeActs (cmd : Byte) (pay : Word) (w : Nat) : TurnsOnlyDq (writeActs cmd pay w) := by
  intro p d hm
  by_cases e : w = 0 <;> simp [writeActs, commandCells, payloadCells, writeCell, closeWrite, e] at hm

theorem turnsOnlyDq_readActs (cmd : Byte) (w : Nat) : TurnsOnlyDq (readActs cmd w) := by
  intro p d hm
  simp only [readActs, List.mem_append] at hm
  rcases hm with (((hm | hm) | hm) | hm) | hm
  · simp at hm
  · exact turnsOnlyDq_writeActs cmd noPayload 0 p d hm
  · simp at hm; exact hm.1
  · simp [sampleCells, readCell] at hm
  · simp at hm; exact hm.1

theorem turnsOnlyDq_of_primitiveActs {w : Nat} {as : List Act} {k : Result} (hp : PrimitiveActs w as k) : TurnsOnlyDq as := by
  cases hp with
  | write cmd pay => exact turnsOnlyDq_writeActs cmd pay w
  | read cmd => exact turnsOnlyDq_readActs cmd w

/-- An event changes no direction but its pin's, and only if it sets one. -/
theorem performAct_dir {h : HandleId} {a : Act} {r : Run} {l : LineId}
    (ha : ∀ p d, a = .setDir p d → l ≠ (r.st.handle h).line p) :
    ((performAct h a r).st.latch l).dir = (r.st.latch l).dir := by
  cases a with
  | drive p b =>
    rw [performAct, State.latch_drive]
    split_ifs with e
    · rw [e]
    · rfl
  | setDir p d => rw [performAct, State.latch_setDir, if_neg (ha p d rfl)]
  | _ => rfl

/-- Every direction but DQ's stays as it was. -/
theorem runActs_dir {as : List Act} (ha : TurnsOnlyDq as) {h : HandleId} {r : Run} {l : LineId}
    (hl : l ≠ (r.st.handle h).dq) : ((runActs h as r).st.latch l).dir = (r.st.latch l).dir := by
  induction as generalizing r with
  | nil => rfl
  | cons a as ih =>
    rw [runActs_cons, ih (fun p d hm => ha p d (List.mem_cons_of_mem a hm)) (by simpa using hl)]
    refine performAct_dir fun p d e => ?_
    rw [ha p d (e ▸ List.mem_cons_self)]
    exact hl

/-- An operation that neither polls nor binds returns. -/
theorem runTask_next_returned {h : HandleId} {k : Task} {s t : State}
    (hk : (∃ r, k.fin = .returns r) ∨ ∃ r, k.fin = .guarded r) (e : runTask h k s = .next t) :
    ∃ v, t = (runActs h k.acts ⟨k.acc, s⟩).st.logReturn (some h) v := by
  cases finishNext e with
  | returned v e => exact ⟨v, e⟩
  | polls hf _ => rcases hk with ⟨r, hr⟩ | ⟨r, hr⟩ <;> simp [hr] at hf
  | binds hf _ => rcases hk with ⟨r, hr⟩ | ⟨r, hr⟩ <;> simp [hr] at hf

/-- A primitive that completes ran its own events or the guard's, and returned. -/
theorem primitiveCall_next {h : HandleId} {w : Nat} {as : List Act} {k : Result} {s t : State}
    (e : (primitiveCall h w as k s).run = .next t) :
    ∃ bs v, (bs = as ∨ bs = guardActs) ∧ t = (runActs h bs ⟨0#16, s⟩).st.logReturn (some h) v := by
  rw [primitiveCall] at e
  split_ifs at e with hw hf hb
  · cases e
  · cases e
  · obtain ⟨v, e⟩ := runTask_next_returned (.inl ⟨k, rfl⟩) e
    exact ⟨as, v, .inl rfl, e⟩
  · obtain ⟨v, e⟩ := runTask_next_returned (.inr ⟨k, rfl⟩) e
    exact ⟨guardActs, v, .inr rfl, e⟩

/-- What a primitive keeps when it completes, whichever of its two paths it took (R70). -/
theorem primitiveCall_keeps {h : HandleId} {w : Nat} {as : List Act} {k : Result} {s t : State} (hp : PrimitiveActs w as k)
    (e : (primitiveCall h w as k s).run = .next t) :
    Keeps s t ∧ OtherLinesKept (s.handle h) s t ∧ ∀ l, l ≠ (s.handle h).dq → (t.latch l).dir = (s.latch l).dir := by
  obtain ⟨bs, v, hbs, rfl⟩ := primitiveCall_next e
  have balanced : ∀ x, exclAfter x bs = x := by
    rcases hbs with rfl | rfl
    · cases hp with
      | write cmd pay => exact fun x => exclAfter_writeActs x cmd pay w
      | read cmd => exact fun x => exclAfter_readActs x cmd w
    · exact fun _ => rfl
  have turns : TurnsOnlyDq bs := by
    rcases hbs with rfl | rfl
    · exact turnsOnlyDq_of_primitiveActs hp
    · intro p d hm; simp [guardActs] at hm
  exact ⟨keeps_runActs h bs 0#16 s _ v balanced, fun l hl => runActs_latch_other h bs ⟨0#16, s⟩ hl,
    fun l hl => runActs_dir turns (r := ⟨0#16, s⟩) hl⟩

/-- Settles O25: both paths of either primitive keep all but DQ and what the frame drives. -/
theorem primitivesKeepTheRest : Obligations.PrimitivesKeepTheRest := by
  intro h cmd pay w s t e
  rcases e with e | e
  · exact primitiveCall_keeps (.write cmd pay) e
  · exact primitiveCall_keeps (.read cmd) e

end Sys2Proof.Proofs
end

section
/-! PROOFS. The frames of the two primitives and of the command rows (40_transaction_engine.md R62 to R69, 30_encoding.md R50):
what they run, what they leave on the lines, their clock pulses and their lengths, and the guard path of an invalid handle. -/

namespace Sys2Proof.Proofs

open Sys2Proof.Machine Sys2Proof.Safety

/-! ## Writes -/

/-- Events after a frame that only wait: they take no sample, touch no line and leave the interrupt state alone. -/
structure Waits (after : List Act) : Prop where
  samples : samplesIn after = 0
  excl : ∀ x, exclAfter x after = x
  out : ∀ p b, outAfter p b after = b
  dir : ∀ p d, dirAfter p d after = d

theorem waits_nil : Waits [] := ⟨rfl, fun _ => rfl, fun _ _ => rfl, fun _ _ => rfl⟩

theorem waits_settle : Waits [.delaySettle] := ⟨rfl, fun _ => rfl, fun _ _ => rfl, fun _ _ => rfl⟩

/-- What a write frame and a wait after it leave on the handle's lines (R66, R26). -/
theorem writeLevels_runActs {h : HandleId} {s : State} (hd : (s.handle h).distinct = true) (cmd : Byte) (pay : Word)
    (w : Nat) {after : List Act} (ha : Waits after) (acc : Word) (v : Ending) :
    WriteLevels h cmd pay w s ((runActs h (writeActs cmd pay w ++ after) ⟨acc, s⟩).st.logReturn (some h) v) := by
  have pin := runActs_pin h (writeActs cmd pay w ++ after) ⟨acc, s⟩ hd
  simp only [outAfter_append, dirAfter_append, ha.out, ha.dir, outAfter_writeActs, dirAfter_writeActs] at pin
  constructor
  · rw [State.outOf_logReturn, (pin .clk).1]
  · rw [State.outOf_logReturn, (pin .rst).1]
  · rw [State.outOf_logReturn, (pin .dq).1]
  · intro p; rw [State.dirOf_logReturn, (pin p).2]

/-- A write frame and a wait after it, performed on a handle with distinct lines, run the spec's trace (R66). -/
theorem runsWrite_of_acts {h : HandleId} {s : State} (hd : (s.handle h).distinct = true) (cmd : Byte) (pay : Word)
    (w : Nat) {after : List Act} (ha : Waits after) {a : Answer}
    (e : a = .next ((runActs h (writeActs cmd pay w ++ after) ⟨0#16, s⟩).st.logReturn (some h) (.done none))) :
    RunsWrite h cmd pay w (eventsFrom (s.handle h) s.params s.drawAt 0 after) s a := by
  refine ⟨_, e, writeLevels_runActs hd cmd pay w ha _ _, ?_⟩
  have balanced : ∀ x, exclAfter x (writeActs cmd pay w ++ after) = x := fun x => by
    rw [exclAfter_append, exclAfter_writeActs, ha.excl]
  have ran := ran_runActs h (writeActs cmd pay w ++ after) 0#16 s (.done none) balanced
  rwa [eventsFrom_append, eventsFrom_writeActs, samplesIn_append, samplesIn_writeActs, ha.samples] at ran

/-- A ready writeTransaction of an admitted width runs its frame (R66). -/
theorem runsWrite_writeTransaction {h : HandleId} {s : State} (hr : Ready h s) (cmd : Byte) (pay : Word) {w : Nat}
    (hw : w ≤ 16) : RunsWrite h cmd pay w [] s (exec (.writeTransaction h cmd pay w) s) := by
  refine runsWrite_of_acts hr.distinct cmd pay w waits_nil ?_
  rw [List.append_nil, exec_writeTransaction_of_ready hr hw]

/-- Settles O23: a ready write is its frame. -/
theorem writeTransactionRunsFrame : Obligations.WriteTransactionRunsFrame :=
  fun _ cmd pay _ _ hr hw => runsWrite_writeTransaction hr cmd pay hw

/-- Settles O32: each of these rows is the writeTransaction of its command and width. -/
theorem writeCommandsRunFrames : Obligations.WriteCommandsRunFrames := by
  intro h pay s hr
  exact ⟨runsWrite_writeTransaction hr (s.code .startConv) 0 (Nat.zero_le 16),
    runsWrite_writeTransaction hr (s.code .stopConv) 0 (Nat.zero_le 16),
    runsWrite_writeTransaction hr (s.code .writeHTemp) pay (w := 9) (by decide),
    runsWrite_writeTransaction hr (s.code .writeLTemp) pay (w := 9) (by decide),
    runsWrite_writeTransaction hr (s.code .writeConfig) pay (w := 8) (by decide)⟩

/-! ## Reads -/

/-- What events that end in a read frame leave on the handle's lines (R67). -/
theorem readLevels_of_pin {h : HandleId} {s t : State} {cmd : Byte} {w : Nat} {b : Pin → Bit}
    (pin : ∀ p, t.outOf h p = outAfter p (b p) (readActs cmd w) ∧
      t.dirOf h p = dirAfter p (s.dirOf h p) (readActs cmd w)) :
    ReadLevels h cmd s t := by
  simp only [outAfter_readActs, dirAfter_readActs] at pin
  exact ⟨(pin .clk).1, (pin .rst).1, (pin .dq).1, (pin .dq).2, (pin .clk).2, (pin .rst).2⟩

/-- The trace of a read frame is 49 + 5w events long (R67). -/
theorem length_readEvents (h : HandleId) (s : State) (cmd : Byte) (w : Nat) :
    (readEvents (s.handle h) s.params.tUnitUs cmd (drawnBits s w)).length = 49 + 5 * w := by
  have e := eventsFrom_readActs (s.handle h) s.params s.drawAt 0 cmd w
  simp only [Nat.zero_add] at e
  rw [drawnBits, ← e, eventsFrom_length, length_readActs]

/-- A read frame performed on a handle with distinct lines runs the spec's trace and holds the draws; a value returned of
them that has the property `P` is what the operation returns (R67, R55). -/
theorem runsRead_of_acts {h : HandleId} {s : State} (hd : (s.handle h).distinct = true) (cmd : Byte) {w : Nat}
    (hw : w ≤ 16) {P : Word → Word → Prop} {v : Word} (hP : P (runActs h (readActs cmd w) ⟨0#16, s⟩).acc v)
    {a : Answer} (e : a = .next ((runActs h (readActs cmd w) ⟨0#16, s⟩).st.logReturn (some h) (.done (some v)))) :
    RunsRead h cmd w P s a := by
  have ran := ran_runActs h (readActs cmd w) 0#16 s (.done (some v)) (fun x => exclAfter_readActs x cmd w)
  simp only [eventsFrom_readActs, samplesIn_readActs, Nat.zero_add] at ran
  refine ⟨_, _, v, e, fun i _ => runActs_readActs_acc h cmd w hw s i, hP, ?_, ?_, ran⟩
  · exact readLevels_of_pin (w := w) fun p => by
      simpa using runActs_pin h (readActs cmd w) ⟨0#16, s⟩ hd p
  · rw [ran.trace, List.length_append, List.length_map, ← length_readEvents h s cmd w, drawnBits]

/-- A ready readTransaction of an admitted width runs its frame and returns its accumulator (R67). -/
theorem runsRead_readTransaction {h : HandleId} {s : State} (hr : Ready h s) (cmd : Byte) {w : Nat} (hw : w ≤ 16)
    {P : Word → Word → Prop} (hP : ∀ r, HoldsDraws s w r → P r r) :
    RunsRead h cmd w P s (exec (.readTransaction h cmd w) s) :=
  runsRead_of_acts hr.distinct cmd hw (hP _ fun i _ => runActs_readActs_acc h cmd w hw s i)
    (exec_readTransaction_of_ready hr hw cmd)

/-- Settles O24: a ready read is its frame, and it returns the word it accumulated. -/
theorem readTransactionRunsFrame : Obligations.ReadTransactionRunsFrame :=
  fun _ cmd _ _ hr hw => runsRead_readTransaction hr cmd hw fun _ _ => rfl

/-- A read narrower than a word returns its raw bits (R90). -/
theorem runsRead_readTransaction_raw {h : HandleId} {s : State} (hr : Ready h s) (cmd : Byte) {w : Nat} (hw : w < 16) :
    RunsRead h cmd w (IsRaw w) s (exec (.readTransaction h cmd w) s) :=
  runsRead_readTransaction hr cmd hw.le fun _ hd => isRaw_of_holdsDraws hw hd

/-- Settles O33: each of these rows is the readTransaction of its command and width. -/
theorem readCommandsRunFrames : Obligations.ReadCommandsRunFrames := by
  intro h s hr
  have nine : ∀ cmd, RunsRead h cmd 9 (IsRaw 9) s (exec (.readTransaction h cmd 9) s) := fun cmd =>
    runsRead_readTransaction_raw hr cmd (by decide)
  have eight : ∀ cmd, RunsRead h cmd 8 (IsRaw 8) s (exec (.readTransaction h cmd 8) s) := fun cmd =>
    runsRead_readTransaction_raw hr cmd (by decide)
  exact ⟨nine (s.code .readTemp), nine (s.code .readHTemp), nine (s.code .readLTemp), eight (s.code .readCounter),
    eight (s.code .readSlope), eight (s.code .readConfig)⟩

/-! ## Clock pulses and lengths -/

theorem countEvents_append (e : Event) (es fs : List Event) :
    countEvents e (es ++ fs) = countEvents e es + countEvents e fs := by
  simp [countEvents]

/-- Cells that each have one such event have as many as they are. -/
theorem countEvents_cells {e : Event} {cell : Bit → List Event} (hc : ∀ b, countEvents e (cell b) = 1) (bits : List Bit) :
    countEvents e (bits.flatMap cell) = bits.length := by
  induction bits with
  | nil => rfl
  | cons b bits ih => rw [List.flatMap_cons, countEvents_append, hc, ih, List.length_cons, Nat.add_comm]

/-- A read cell has one falling and one rising edge of CLK (R65). -/
theorem countEvents_readCell (g : Handle) (unit : Nat) (b c : Bit) :
    countEvents (.drive g.clk b) (readCellEvents g unit c) = 1 := by
  cases b <;> simp [countEvents, readCellEvents]

section Pulses

variable {g : Handle} (hd : g.distinct = true) (unit : Nat) (b : Bit)
include hd

/-- A drive of another pin is no edge of CLK. -/
theorem drive_ne_clk {p : Pin} (hp : p ≠ .clk) (c : Bit) : Event.drive (g.line p) c ≠ .drive g.clk b := by
  intro e
  exact hp ((Handle.line_injective hd (q := .clk)).mp (Event.drive.inj e).1)

/-- A write cell has one falling and one rising edge of CLK (R64). -/
theorem countEvents_writeCell (c : Bit) : countEvents (.drive g.clk b) (writeCellEvents g unit c) = 1 := by
  have hdq : Event.drive g.dq c ≠ .drive g.clk b := drive_ne_clk hd b (p := .dq) (by decide) c
  cases b <;> simp [countEvents, writeCellEvents, hdq]

/-- A write has one pulse of CLK per bit (R69). -/
theorem countEvents_writeEvents (cmd : Byte) (pay : Word) (w : Nat) :
    countEvents (.drive g.clk b) (writeEvents g unit cmd pay w) = 8 + w := by
  have hrst : ∀ c, Event.drive g.rst c ≠ .drive g.clk b := drive_ne_clk hd b (p := .rst) (by decide)
  have opening : countEvents (.drive g.clk b) [.exclEnter, .drive g.rst true] = 0 := by simp [countEvents, hrst]
  have closing : countEvents (.drive g.clk b) (if w = 0 then [] else [.drive g.rst false]) = 0 := by
    split_ifs <;> simp [countEvents, hrst]
  have leaving : countEvents (.drive g.clk b) [.exclExit] = 0 := rfl
  rw [writeEvents, countEvents_append, countEvents_append, countEvents_append, opening, closing, leaving,
    countEvents_cells (countEvents_writeCell hd unit b), List.length_append, length_lowBits, length_lowBits]
  omega

/-- A read has one pulse of CLK per bit (R69). -/
theorem countEvents_readEvents (cmd : Byte) (bits : List Bit) :
    countEvents (.drive g.clk b) (readEvents g unit cmd bits) = 8 + bits.length := by
  have hrst : ∀ c, Event.drive g.rst c ≠ .drive g.clk b := drive_ne_clk hd b (p := .rst) (by decide)
  have opening : countEvents (.drive g.clk b) [.exclEnter, .drive g.rst true] = 0 := by simp [countEvents, hrst]
  have turning : countEvents (.drive g.clk b) [.setDir g.dq .input] = 0 := rfl
  have closing : countEvents (.drive g.clk b) [.drive g.rst false, .setDir g.dq .output, .exclExit] = 0 := by
    simp [countEvents, hrst]
  simp only [readEvents, countEvents_append, opening, turning, closing, countEvents_writeEvents hd,
    countEvents_cells (countEvents_readCell g unit b)]
  omega

end Pulses

/-- Settles O26: the two traces have one pulse per cell. -/
theorem clockPulsesCountTheBits : Obligations.ClockPulsesCountTheBits := by
  intro h cmd pay w s hr hw
  obtain ⟨t, ht, wrote⟩ := writeTransaction_ran hr hw cmd pay
  obtain ⟨u, v, hu, -, read⟩ := readTransaction_ran hr hw cmd
  have writes := fun b => countEvents_writeEvents hr.distinct s.params.tUnitUs b cmd pay w
  have reads := fun b => countEvents_readEvents hr.distinct s.params.tUnitUs b cmd (drawnBits s w)
  simp only [drawnBits, List.length_map, List.length_range] at reads
  exact ⟨t, u, _, _, ht, hu, wrote.trace, read.trace, writes false, writes true, reads false, reads true⟩

/-- The trace of a write frame is 43 + 5w events long, and one more for a payload (R66). -/
theorem length_writeEvents (g : Handle) (s : State) (cmd : Byte) (pay : Word) (w : Nat) :
    (writeEvents g s.params.tUnitUs cmd pay w).length = 43 + 5 * w + if w = 0 then 0 else 1 := by
  rw [← eventsFrom_writeActs g s.params s.drawAt 0, eventsFrom_length, length_writeActs]

/-- A trace that grew by these events is longer by their number. -/
theorem length_of_traced {h : HandleId} {es : List Event} {s t : State} (ht : Traced h es s t) :
    t.trace.length = s.trace.length + es.length := by
  rw [ht, List.length_append, List.length_map]

/-- Settles O28: the two traces are the spec's, and those have these lengths. -/
theorem traceLengthsOfFrames : Obligations.TraceLengthsOfFrames := by
  intro h cmd pay w s hr hw
  obtain ⟨t, ht, wrote⟩ := writeTransaction_ran hr hw cmd pay
  obtain ⟨u, v, hu, -, read⟩ := readTransaction_ran hr hw cmd
  exact ⟨t, u, ht, hu, by rw [length_of_traced wrote.trace, length_writeEvents],
    by rw [length_of_traced read.trace, length_readEvents]⟩

/-! ## The guard path -/

/-- On an invalid handle with nothing in progress a primitive of an admitted width enters and leaves its region (R62). -/
theorem isGuarded_primitiveCall {h : HandleId} {s : State} (hb : (s.handle h).bound = false) (hf : s.busy h = false)
    {w : Nat} (hw : w ≤ 16) (as : List Act) (k : Result) : IsGuarded h k.zero s (primitiveCall h w as k s).run := by
  have hw' : ¬ Config.maxWidth < w := Nat.not_lt.mpr hw
  have call : primitiveCall h w as k s = .started h ⟨guardActs, 0#16, .guarded k⟩ s := by
    simp [primitiveCall, hw', hf, hb]
  rw [call, IsGuarded]
  simp [Call.run, runTask, finish, guardActs, performAct, State.exclEnter, State.exclExit, State.emit, State.logReturn]

/-- Settles O29: each of these calls is a primitive's of an admitted width. -/
theorem invalidHandleGuardsPrimitives : Obligations.InvalidHandleGuardsPrimitives := by
  intro h cmd pay w s hb hf
  have write : ∀ cmd pay {w}, w ≤ 16 → IsGuarded h none s (writeCall h cmd pay w s).run := fun cmd pay _ hw =>
    isGuarded_primitiveCall hb hf hw _ .nothing
  have read : ∀ cmd {w}, w ≤ 16 → IsGuarded h (some 0) s (readCall h cmd w s).run := fun cmd _ hw =>
    isGuarded_primitiveCall hb hf hw _ .raw
  have zero : 0 ≤ 16 := by decide
  have eight : 8 ≤ 16 := by decide
  have nine : 9 ≤ 16 := by decide
  exact ⟨fun hw => ⟨write cmd pay hw, read cmd hw⟩, write (s.code .startConv) noPayload zero,
    write (s.code .stopConv) noPayload zero, write (s.code .writeHTemp) pay nine, write (s.code .writeLTemp) pay nine,
    write (s.code .writeConfig) pay eight, read (s.code .readTemp) nine, read (s.code .readHTemp) nine,
    read (s.code .readLTemp) nine, read (s.code .readCounter) eight, read (s.code .readSlope) eight,
    read (s.code .readConfig) eight⟩

end Sys2Proof.Proofs
end

section
/-! PROOFS. The register API's one-frame operations (41_register_api.md R71, R75 to R85): each is one transaction whose word is
returned through its transform, or one write, and a no-op on an invalid handle. -/

namespace Sys2Proof.Proofs

open Sys2Proof.Machine Sys2Proof.Safety

/-! ## Results -/

/-- Of any word that holds `w` draws the result `k` is a value with the property `P`. -/
def Gives (k : Result) (w : Nat) (P : Word → Word → Prop) : Prop :=
  ∀ s r, HoldsDraws s w r → ∃ v, k.value r = some (some v) ∧ P r v

theorem gives_raw {w : Nat} (hw : w < 16) : Gives .raw w (IsRaw w) :=
  fun _ r hd => ⟨r, rfl, isRaw_of_holdsDraws hw hd⟩

theorem gives_celsius (w : Nat) : Gives .celsius w IsCelsius :=
  fun _ r _ => ⟨celsiusOf r, rfl, isCelsius_celsiusOf r⟩

theorem gives_fahrenheit (w : Nat) : Gives .fahrenheit w IsFahrenheit := by
  intro _ r _
  obtain ⟨f, hf, hval⟩ := fahrenheitOf_celsiusOf r
  exact ⟨f, by rw [Result.value, hf]; rfl, hval⟩

/-! ## Reads -/

theorem width_le_sixteen (c : Command) : c.width ≤ 16 := (width_le_nine c).trans (by decide)

/-- On a ready handle a register read runs its frame and returns what its transform gives of the accumulator (R72). -/
theorem apiRead_run_of_ready {h : HandleId} {s : State} (hr : Ready h s) (c : Command) {k : Result} {v : Word}
    (hv : k.value (runActs h (readActs (s.code c) c.width) ⟨0#16, s⟩).acc = some (some v)) :
    (apiRead h c k s).run =
      .next ((runActs h (readActs (s.code c) c.width) ⟨0#16, s⟩).st.logReturn (some h) (.done (some v))) := by
  rw [apiRead, apiCall_of_ready hr, Call.run, runTask, finish, hv]

/-- A register read runs its command's read frame (R72). -/
theorem runsRead_apiRead {h : HandleId} {s : State} (hr : Ready h s) (c : Command) {k : Result} {P : Word → Word → Prop}
    (hk : Gives k c.width P) : RunsRead h (s.code c) c.width P s (apiRead h c k s).run := by
  have holds : HoldsDraws s c.width _ := fun i _ => runActs_readActs_acc h (s.code c) c.width (width_le_sixteen c) s i
  obtain ⟨v, hv, hP⟩ := hk s _ holds
  exact runsRead_of_acts hr.distinct (s.code c) (width_le_sixteen c) hP (apiRead_run_of_ready hr c hv)

/-- A register read is its command's readTransaction but for the value returned (R72). -/
theorem readsOnce_apiRead {h : HandleId} {s : State} (hr : Ready h s) (c : Command) {k : Result} {P : Word → Word → Prop}
    (hk : Gives k c.width P) : ReadsOnce h (s.code c) c.width (49 + 5 * c.width) P s (apiRead h c k s).run := by
  have hw := width_le_sixteen c
  have holds : HoldsDraws s c.width _ := fun i _ => runActs_readActs_acc h (s.code c) c.width hw s i
  obtain ⟨v, hv, hP⟩ := hk s _ holds
  refine ⟨_, _, v, exec_readTransaction_of_ready hr hw (s.code c), by simp [Returned], hP, ?_, ?_⟩
  · simp [runActs_trace, eventsFrom_length, length_readActs]
  · rw [apiRead_run_of_ready hr c hv]
    simp [State.logReturn]

/-! ## Writes -/

theorem runsWrite_apiWrite {h : HandleId} {s : State} (hr : Ready h s) (c : Command) (pay : Word) {after : List Act}
    (ha : Waits after) : RunsWrite h (s.code c) pay c.width (eventsFrom (s.handle h) s.params s.drawAt 0 after) s
      (apiWrite h c pay after s).run := by
  refine runsWrite_of_acts hr.distinct (s.code c) pay c.width ha ?_
  rw [apiWrite, apiCall_of_ready hr]
  rfl

/-- Under the parameters of `s` these acts do nothing but put these events into the trace. -/
def OnlyTraces (h : HandleId) (s : State) (after : List Act) (es : List Event) : Prop :=
  ∀ r : Run, r.st.params = s.params →
    runActs h after r = { r with st := { r.st with trace := r.st.trace ++ es.map (Entry.mk h) } }

theorem onlyTraces_nil (h : HandleId) (s : State) : OnlyTraces h s [] [] := fun r _ => by simp

/-- The settle delay is one event (R83). -/
theorem onlyTraces_settle (h : HandleId) (s : State) : OnlyTraces h s [.delaySettle] [.delayMs s.params.tNvMs] :=
  fun r hp => by rw [← hp]; rfl

/-- A register write is its command's writeTransaction with the wait's events behind it (R72, R83). -/
theorem writesOnce_apiWrite {h : HandleId} {s : State} (hr : Ready h s) (c : Command) (pay : Word) {after : List Act}
    {es : List Event} (ha : OnlyTraces h s after es) :
    WritesOnce h (s.code c) pay c.width es ((writeActs (s.code c) pay c.width).length + es.length) s
      (apiWrite h c pay after s).run := by
  refine ⟨_, exec_writeTransaction_of_ready hr (width_le_sixteen c) (s.code c) pay, ?_, ?_⟩
  · simp [runActs_trace, eventsFrom_length]
  · have waited := ha (runActs h (writeActs (s.code c) pay c.width) ⟨0#16, s⟩) (by simp)
    rw [apiWrite, apiCall_of_ready hr, Call.run, runTask, runActs_append, waited]
    rfl

/-! ## Invalid handles -/

/-- On an invalid handle a register-API operation is a no-op (R71). -/
theorem isNoOp_apiCall {h : HandleId} {s : State} (hb : (s.handle h).bound = false) (as : List Act) (k : Result)
    (f : Finish) : IsNoOp h k.zero s (apiCall h as k f s).run := by
  rw [apiCall, if_neg (by simp [hb])]
  rfl

/-- Settles O34: readTempC is the register read of READ_TEMP through decodeC. -/
theorem readTempCReturnsCelsius : Obligations.ReadTempCReturnsCelsius :=
  fun _ _ => ⟨fun hr => readsOnce_apiRead hr .readTemp (gives_celsius 9), fun hb => isNoOp_apiCall hb _ .celsius _⟩

/-- Settles O35: the two are the register reads of READ_H_TEMP and READ_L_TEMP through decodeC. -/
theorem thresholdReadsReturnCelsius : Obligations.ThresholdReadsReturnCelsius :=
  fun _ _ => ⟨fun hr => ⟨readsOnce_apiRead hr .readHTemp (gives_celsius 9),
      readsOnce_apiRead hr .readLTemp (gives_celsius 9)⟩,
    fun hb => ⟨isNoOp_apiCall hb _ .celsius _, isNoOp_apiCall hb _ .celsius _⟩⟩

/-- Settles O36: readTempF is the register read of READ_TEMP through decodeC and toF. -/
theorem readTempFReturnsFahrenheit : Obligations.ReadTempFReturnsFahrenheit :=
  fun _ _ => ⟨fun hr => readsOnce_apiRead hr .readTemp (gives_fahrenheit 9), fun hb => isNoOp_apiCall hb _ .fahrenheit _⟩

/-- No flag of the zero byte tests true. -/
theorem test_zero (k : Flag) : Flag.test 0 k = false := by cases k <;> rfl

/-- Settles O37: the four are register reads that return the accumulator. -/
theorem rawReadsReturnBits : Obligations.RawReadsReturnBits := by
  intro h s
  have nine : Gives .raw 9 (IsRaw 9) := gives_raw (by decide)
  have eight : Gives .raw 8 (IsRaw 8) := gives_raw (by decide)
  refine ⟨fun hr => ⟨?_, ?_, ?_, ?_⟩, fun hb => ⟨?_, ?_, ?_, ?_⟩, test_zero⟩
  · exact readsOnce_apiRead hr .readTemp nine
  · exact readsOnce_apiRead hr .readCounter eight
  · exact readsOnce_apiRead hr .readSlope eight
  · exact readsOnce_apiRead hr .readConfig eight
  all_goals exact isNoOp_apiCall hb _ .raw _

/-- Settles O38: writeConfig is the register write of WRITE_CONFIG and the settle delay. -/
theorem writeConfigSendsAndSettles : Obligations.WriteConfigSendsAndSettles :=
  fun h c s => ⟨fun hr => writesOnce_apiWrite hr .writeConfig (configPayload c) (onlyTraces_settle h s),
    fun hb => isNoOp_apiCall hb _ .nothing _⟩

/-- Bit 0 of a doubled value is 0 (42_temperature_codec.md R89). -/
theorem getLsbD_zero_double (n : Nat) : (BitVec.ofNat 16 (2 * n)).getLsbD 0 = false := by
  rw [BitVec.getLsbD_ofNat, Nat.testBit_zero]
  simp

/-- Settles O39: the two are register writes of the doubled threshold. -/
theorem thresholdWritesSendTwice : Obligations.ThresholdWritesSendTwice := by
  intro h t s
  refine ⟨fun hr => ?_, fun hb => ⟨isNoOp_apiCall hb _ .nothing _, isNoOp_apiCall hb _ .nothing _⟩,
    getLsbD_zero_double t.toNat, fun hout v hv e => ?_⟩
  · rw [← thresholdPayload_eq]
    exact ⟨writesOnce_apiWrite hr .writeHTemp (thresholdPayload t) (onlyTraces_nil h s),
      writesOnce_apiWrite hr .writeLTemp (thresholdPayload t) (onlyTraces_nil h s)⟩
  · obtain ⟨-, hlo, hhi⟩ := hv
    rw [e] at hlo hhi
    omega

/-- Settles O40: each of the eleven is a register read or a register write. -/
theorem apiOperationsRunFrames : Obligations.ApiOperationsRunFrames := by
  intro h c t s hr
  have nine : Gives .raw 9 (IsRaw 9) := gives_raw (by decide)
  have eight : Gives .raw 8 (IsRaw 8) := gives_raw (by decide)
  rw [← thresholdPayload_eq]
  refine ⟨?_, ?_, ?_, ?_, ?_, ?_, ?_, ?_, ?_, ?_, ?_⟩
  · exact runsRead_apiRead hr .readTemp (gives_celsius 9)
  · exact runsRead_apiRead hr .readTemp (gives_fahrenheit 9)
  · exact runsRead_apiRead hr .readTemp nine
  · exact runsRead_apiRead hr .readHTemp (gives_celsius 9)
  · exact runsRead_apiRead hr .readLTemp (gives_celsius 9)
  · exact runsRead_apiRead hr .readCounter eight
  · exact runsRead_apiRead hr .readSlope eight
  · exact runsRead_apiRead hr .readConfig eight
  · exact runsWrite_apiWrite hr .writeConfig (configPayload c) waits_settle
  · exact runsWrite_apiWrite hr .writeHTemp (thresholdPayload t) waits_nil
  · exact runsWrite_apiWrite hr .writeLTemp (thresholdPayload t) waits_nil

end Sys2Proof.Proofs
end

section
/-! PROOFS. startConversion and its poll (41_register_api.md R74, 60_exceptions.md R96): the first read decides whether it
returns or polls, each poll read decides again, and nothing bounds how many there are. -/

namespace Sys2Proof.Proofs

open Sys2Proof.Machine Sys2Proof.Safety

/-! ## An operation that goes on to poll, and one that ends its poll -/

/-- Whole events performed with nothing in progress on the handle, then its poll put in progress. -/
theorem polling_runActs {h : HandleId} {s : State} {as : List Act} (hx : ∀ x, exclAfter x as = x) (acc : Word) :
    Polling h (eventsFrom (s.handle h) s.params s.drawAt 0 as) (samplesIn as) s
      ((runActs h as ⟨acc, s.clearTask h⟩).st.setTask h (pollTask (runActs h as ⟨acc, s.clearTask h⟩).st)) where
  params := by simp
  handles := by simp
  ie := (region_runActs hx h ⟨acc, s.clearTask h⟩).1
  excl := (region_runActs hx h ⟨acc, s.clearTask h⟩).2
  script := by simp
  sched := by simp
  returns := by simp
  task := by rw [State.task_setTask_same, pollTask_congr (s := s) (by simp)]
  others := fun g hg => by simp [hg]
  lines := fun l hl => runActs_latch_other h as ⟨acc, s.clearTask h⟩ (by simpa using hl)
  trace := runActs_trace h as ⟨acc, s.clearTask h⟩
  drew := runActs_drew h as ⟨acc, s.clearTask h⟩

/-- Whole events performed with nothing in progress on the handle, then a return. -/
theorem pollEnded_runActs {h : HandleId} {s : State} {as : List Act} (hx : ∀ x, exclAfter x as = x) (acc : Word) :
    PollEnded h (eventsFrom (s.handle h) s.params s.drawAt 0 as) (samplesIn as) s
      ((runActs h as ⟨acc, s.clearTask h⟩).st.logReturn (some h) (.done none)) where
  params := by simp
  handles := by simp
  ie := (region_runActs hx h ⟨acc, s.clearTask h⟩).1
  excl := (region_runActs hx h ⟨acc, s.clearTask h⟩).2
  script := by simp
  sched := by simp
  returned := by simp [Returned]
  task := by simp
  others := fun g hg => by simp [hg]
  lines := fun l hl => runActs_latch_other h as ⟨acc, s.clearTask h⟩ (by simpa using hl)
  trace := runActs_trace h as ⟨acc, s.clearTask h⟩
  drew := runActs_drew h as ⟨acc, s.clearTask h⟩

/-! ## The call -/

/-- The frames of startConversion's call. -/
def startActs (s : State) : List Act := writeActs (s.code .startConv) noPayload 0 ++ readActs (s.code .readConfig) 8

theorem samplesIn_startActs (s : State) : samplesIn (startActs s) = 8 := by simp [startActs]

theorem length_startActs (s : State) : (startActs s).length = 132 := by
  simp [startActs, length_writeActs, length_readActs]

/-- The trace of startConversion's frames (R74). -/
theorem eventsFrom_startActs (h : HandleId) (s : State) :
    eventsFrom (s.handle h) s.params s.drawAt 0 (startActs s) =
      writeEvents (s.handle h) s.params.tUnitUs (s.code .startConv) 0 0 ++
        readEvents (s.handle h) s.params.tUnitUs (s.code .readConfig) (drawnBits s 8) := by
  rw [startActs, eventsFrom_append, eventsFrom_writeActs, eventsFrom_readActs, samplesIn_writeActs, drawnBits]
  simp [noPayload]

theorem startActs_balance (s : State) (x : Bit × List Bit) : exclAfter x (startActs s) = x :=
  exclAfter_startActs x _ _

/-- startConversion's frames leave the levels of their last, the config read (R67). -/
theorem readLevels_startActs {h : HandleId} {s t : State} (hd : (s.handle h).distinct = true) (acc : Word)
    (ho : ∀ p, t.outOf h p = (runActs h (startActs s) ⟨acc, s⟩).st.outOf h p)
    (hdir : ∀ p, t.dirOf h p = (runActs h (startActs s) ⟨acc, s⟩).st.dirOf h p) :
    ReadLevels h (s.code .readConfig) s t := by
  have pin := runActs_pin h (startActs s) ⟨acc, s⟩ hd
  simp only [startActs, outAfter_append, dirAfter_append, dirAfter_writeActs] at pin
  exact readLevels_of_pin fun p => ⟨(ho p).trans (pin p).1, (hdir p).trans (pin p).2⟩

/-- On a ready handle startConversion tests the 1SHOT bit of its config read (R74). -/
theorem exec_startConversion_of_ready {h : HandleId} {s : State} (hr : Ready h s) :
    exec (.startConversion h) s = finish h .testOneShot (runActs h (startActs s) ⟨0#16, s⟩) := by
  have call : exec (.startConversion h) s = (callStartConversion h s).run := rfl
  rw [call, callStartConversion, apiCall_of_ready hr]
  rfl

/-- The 1SHOT bit of the config read is its first draw (10_state.md R31). -/
theorem oneShot_startActs (h : HandleId) (s : State) :
    Flag.test (configByte (runActs h (startActs s) ⟨0#16, s⟩).acc) .oneShot = s.drawAt 0 :=
  oneShot_configByte (runActs_startActs_acc h _ _ noPayload s 0)

/-- With 1SHOT clear startConversion returns. -/
theorem exec_startConversion_returns {h : HandleId} {s : State} (hr : Ready h s) (hd : s.drawAt 0 = false) :
    exec (.startConversion h) s = .next ((runActs h (startActs s) ⟨0#16, s⟩).st.logReturn (some h) (.done none)) := by
  rw [exec_startConversion_of_ready hr, finish, oneShot_startActs, hd, if_neg Bool.false_ne_true]

/-- With 1SHOT set startConversion goes on to poll. -/
theorem exec_startConversion_polls {h : HandleId} {s : State} (hr : Ready h s) (hd : s.drawAt 0 = true) :
    exec (.startConversion h) s = .next ((runActs h (startActs s) ⟨0#16, s⟩).st.setTask h
      (pollTask (runActs h (startActs s) ⟨0#16, s⟩).st)) := by
  rw [exec_startConversion_of_ready hr, finish, oneShot_startActs, hd, if_pos rfl]

theorem task_of_ready {h : HandleId} {s : State} (hr : Ready h s) : s.task h = none :=
  task_of_not_busy (by simp [hr.free])

/-- Settles O41: the first draw of the config read decides between the return and the poll. -/
theorem startConversionStarts : Obligations.StartConversionStarts := by
  intro h s
  refine ⟨fun hr => ?_, fun hb => isNoOp_apiCall hb _ .nothing _⟩
  cases hd : s.drawAt 0 with
  | false =>
    refine ⟨_, exec_startConversion_returns hr hd, readLevels_startActs hr.distinct 0#16 (by simp) (by simp), ?_,
      fun _ => ?_, fun e => by cases e⟩
    · simp [runActs_trace, eventsFrom_length, length_startActs]
    · have ran := ran_runActs h (startActs s) 0#16 s (.done none) (startActs_balance s)
      rwa [eventsFrom_startActs, samplesIn_startActs] at ran
  | true =>
    refine ⟨_, exec_startConversion_polls hr hd, readLevels_startActs hr.distinct 0#16 (by simp) (by simp), ?_,
      fun e => (by cases e), fun _ => ?_⟩
    · simp [runActs_trace, eventsFrom_length, length_startActs]
    · have polls := polling_runActs (h := h) (s := s) (startActs_balance s) 0#16
      rwa [eventsFrom_startActs, samplesIn_startActs, clearTask_of_task_none (task_of_ready hr)] at polls

/-! ## One poll read -/

/-- The state after the poll read in progress on `h`, and its accumulator. -/
def pollRun (h : HandleId) (s : State) : Run := runActs h (pollTask s).acts ⟨0#16, s.clearTask h⟩

/-- A resume turn of the poll is one read whose DONE bit is tested (R74). -/
theorem resumeTurn_of_pollReady {h : HandleId} {s : State} (hp : PollReady h s) :
    resumeTurn h s = finish h .untilDone (pollRun h s) := by
  have hu : underflows s.excl.length (pollTask s).acts = false :=
    underflows_of_depthAfter (frameActs_balance (.read _ _ .raw) _)
  rw [resumeTurn_of_task hp.task hu]
  rfl

/-- The DONE bit of a poll read is its eighth draw (10_state.md R31). -/
theorem done_pollRun (h : HandleId) (s : State) : Flag.test (configByte (pollRun h s).acc) .done = s.drawAt 7 :=
  done_configByte (runActs_readActs_acc h _ 8 (by decide) (s.clearTask h) 7)

theorem eventsFrom_pollTask (h : HandleId) (s : State) :
    eventsFrom (s.handle h) s.params s.drawAt 0 (pollTask s).acts =
      readEvents (s.handle h) s.params.tUnitUs (s.code .readConfig) (drawnBits s 8) := by
  have e := eventsFrom_readActs (s.handle h) s.params s.drawAt 0 (s.code .readConfig) 8
  simp only [Nat.zero_add] at e
  exact e

/-- A poll read leaves the levels of a read frame (R67). -/
theorem readLevels_pollRun {h : HandleId} {s t : State} (hd : (s.handle h).distinct = true)
    (ho : ∀ p, t.outOf h p = (pollRun h s).st.outOf h p) (hdir : ∀ p, t.dirOf h p = (pollRun h s).st.dirOf h p) :
    ReadLevels h (s.code .readConfig) s t := by
  have pin := runActs_pin h (pollTask s).acts ⟨0#16, s.clearTask h⟩ (by simpa using hd)
  simp only [State.outOf_clearTask, State.dirOf_clearTask] at pin
  exact readLevels_of_pin fun p => ⟨(ho p).trans (pin p).1, (hdir p).trans (pin p).2⟩

/-- Settles O42: the eighth draw of the poll read decides between the return and the next read. -/
theorem pollReadDecides : Obligations.PollReadDecides := by
  intro h s hp
  have balanced : ∀ x, exclAfter x (pollTask s).acts = x := fun x => exclAfter_readActs x _ _
  have samples : samplesIn (pollTask s).acts = 8 := samplesIn_readActs _ _
  rw [resumeTurn_of_pollReady hp, finish, done_pollRun]
  cases hd : s.drawAt 7 with
  | false =>
    refine ⟨_, if_neg Bool.false_ne_true, readLevels_pollRun hp.distinct (by simp) (by simp), fun e => (by cases e),
      fun _ => ?_⟩
    have polls := polling_runActs (h := h) (s := s) balanced 0#16
    rwa [eventsFrom_pollTask, samples] at polls
  | true =>
    refine ⟨_, if_pos rfl, readLevels_pollRun hp.distinct (by simp) (by simp), fun _ => ?_, fun e => by cases e⟩
    have ended := pollEnded_runActs (h := h) (s := s) balanced 0#16
    rwa [eventsFrom_pollTask, samples] at ended

/-! ## Many poll reads -/

/-- A state with `n` draws taken off draws what comes after them. -/
theorem drawAt_of_drew {n : Nat} {s t : State} (hd : Drew n s t) (i : Nat) : t.drawAt i = s.drawAt (n + i) := by
  obtain ⟨hdraws, hdrawn⟩ := hd
  simp only [State.drawAt, hdraws, hdrawn, List.length_drop, List.getElem_drop, Nat.add_assoc]
  split_ifs with a b b
  · rfl
  · omega
  · omega
  · rfl

/-- `m` events and `n` samples of a poll that goes on lie between `s` and `u`: nothing was returned, and the interrupt state is
as it was. -/
structure StillPolling (h : HandleId) (m n : Nat) (s u : State) : Prop where
  ready : PollReady h u
  returns : u.returns = s.returns
  trace : u.trace.length = s.trace.length + m
  draw : ∀ i, u.drawAt i = s.drawAt (n + i)
  ie : u.ie = s.ie
  excl : u.excl = s.excl

theorem StillPolling.trans {h : HandleId} {m n m' n' : Nat} {s t u : State} (a : StillPolling h m n s t)
    (b : StillPolling h m' n' t u) : StillPolling h (m + m') (n + n') s u where
  ready := b.ready
  returns := b.returns.trans a.returns
  trace := by rw [b.trace, a.trace, Nat.add_assoc]
  draw := fun i => by rw [b.draw, a.draw, Nat.add_assoc]
  ie := b.ie.trans a.ie
  excl := b.excl.trans a.excl

/-- An operation that goes on to poll leaves the poll ready for its next read. -/
theorem stillPolling_of_polling {h : HandleId} {s t : State} {es : List Event} {n : Nat}
    (hb : (s.handle h).bound = true) (hd : (s.handle h).distinct = true) (hp : Polling h es n s t) :
    StillPolling h es.length n s t where
  ready := by
    refine ⟨?_, ?_, ?_⟩
    · rwa [State.handle_congr hp.handles]
    · rwa [State.handle_congr hp.handles]
    · rw [hp.task, pollTask_congr hp.params]
  returns := hp.returns
  trace := length_of_traced hp.trace
  draw := drawAt_of_drew hp.drew
  ie := hp.ie
  excl := hp.excl

/-- A ready startConversion whose config read shows 1SHOT goes on to poll, 132 events later (R74). -/
theorem startConversion_stillPolling {h : HandleId} {s : State} (hr : Ready h s) (hd : s.drawAt 0 = true) :
    ∃ t, exec (.startConversion h) s = .next t ∧ StillPolling h 132 8 s t := by
  obtain ⟨t, ht, -, hlen, -, polls⟩ := (startConversionStarts h s).1 hr
  have still := stillPolling_of_polling hr.bound hr.distinct (polls hd)
  exact ⟨t, ht, { still with trace := hlen }⟩

/-- A poll read that shows no DONE leaves the poll going on, 89 events later (R74). -/
theorem resumeTurn_stillPolling {h : HandleId} {s : State} (hp : PollReady h s) (hd : s.drawAt 7 = false) :
    ∃ t, resumeTurn h s = .next t ∧ StillPolling h 89 8 s t := by
  obtain ⟨t, ht, -, -, polls⟩ := pollReadDecides h s hp
  have still := stillPolling_of_polling hp.bound hp.distinct (polls hd)
  rw [length_readEvents] at still
  exact ⟨t, ht, still⟩

/-- As many poll reads as show no DONE leave the poll going on. -/
theorem resumeTurns_stillPolling {h : HandleId} (k : Nat) {s : State} (hp : PollReady h s)
    (hd : ∀ j, j < k → s.drawAt (8 * j + 7) = false) :
    ∃ u, resumeTurns h k s = .next u ∧ StillPolling h (89 * k) (8 * k) s u := by
  induction k generalizing s with
  | zero => exact ⟨s, rfl, hp, rfl, rfl, fun i => by simp, rfl, rfl⟩
  | succ k ih =>
    obtain ⟨t, ht, one⟩ := resumeTurn_stillPolling hp (hd 0 (Nat.succ_pos k))
    have later : ∀ j, j < k → t.drawAt (8 * j + 7) = false := fun j hj => by
      rw [one.draw, show 8 + (8 * j + 7) = 8 * (j + 1) + 7 by omega]
      exact hd (j + 1) (by omega)
    obtain ⟨u, hu, more⟩ := ih one.ready later
    refine ⟨u, by rw [resumeTurns, ht]; exact hu, ?_⟩
    rw [show 89 * (k + 1) = 89 + 89 * k by omega, show 8 * (k + 1) = 8 + 8 * k by omega]
    exact one.trans more

/-- One more resume turn after `k` of them. -/
theorem resumeTurns_succ {h : HandleId} {k : Nat} {s t u : State} (hk : resumeTurns h k s = .next t)
    (hu : resumeTurn h t = .next u) : resumeTurns h (k + 1) s = .next u := by
  induction k generalizing s with
  | zero => cases hk; rw [resumeTurns, hu]; rfl
  | succ k ih =>
    rw [resumeTurns] at hk ⊢
    cases e : resumeTurn h s with
    | next r => rw [e] at hk; exact ih hk
    | fault f => rw [e] at hk; cases hk
    | refused r => rw [e] at hk; cases hk

/-- startConversion and the poll reads after it that show no DONE (R96). -/
theorem startConversion_resumeTurns {h : HandleId} {k : Nat} {s : State} (hr : Ready h s) (hone : s.drawAt 0 = true)
    (hd : ∀ j, j < k → s.drawAt (8 + 8 * j + 7) = false) :
    ∃ t u, exec (.startConversion h) s = .next t ∧ resumeTurns h k t = .next u ∧
      StillPolling h (132 + 89 * k) (8 + 8 * k) s u := by
  obtain ⟨t, ht, started⟩ := startConversion_stillPolling hr hone
  obtain ⟨u, hu, polled⟩ := resumeTurns_stillPolling k started.ready fun j hj => by
    rw [started.draw, ← Nat.add_assoc]; exact hd j hj
  exact ⟨t, u, ht, hu, started.trans polled⟩

/-- Settles O43: the poll goes on over the first k reads, and the next one ends it. -/
theorem pollReturnsAtFirstDone : Obligations.PollReturnsAtFirstDone := by
  intro h k s hr hone hnot hdone
  obtain ⟨t, u, ht, hu, polled⟩ := startConversion_resumeTurns hr hone hnot
  obtain ⟨x, hx, -, ended, -⟩ := pollReadDecides h u polled.ready
  have last := ended (by rw [polled.draw]; exact hdone)
  refine ⟨t, x, ht, resumeTurns_succ hu hx, ?_, ?_, ?_, last.ie.trans polled.ie, last.excl.trans polled.excl⟩
  · rw [State.busy, last.task]; rfl
  · rw [Returned, last.returned, polled.returns]
  · rw [length_of_traced last.trace, polled.trace, length_readEvents]
    omega

/-- Settles O44: over any number of reads without DONE the poll goes on. -/
theorem pollIsUnbounded : Obligations.PollIsUnbounded := by
  intro h k s hr hone hnot
  obtain ⟨t, u, ht, hu, polled⟩ := startConversion_resumeTurns hr hone hnot
  exact ⟨t, u, ht, hu, by rw [State.busy, polled.ready.task]; rfl, polled.returns⟩

end Sys2Proof.Proofs
end

section
/-! PROOFS. A threshold written and read back (42_temperature_codec.md R91): the chip echoes the bits that the write put on the
wire, and what comes back is the threshold wrapped into nine bits of half degrees. -/

namespace Sys2Proof.Proofs

open Sys2Proof.Machine Sys2Proof.Safety

/-- While the state lists draws, a sample reads the next of them. -/
theorem drawAt_of_draws {s : State} {bits more : List Bit} (hd : s.draws = bits ++ more) {i : Nat} (hi : i < bits.length) :
    s.drawAt i = bits[i] := by
  have hlen : i < s.draws.length := by rw [hd, List.length_append]; omega
  rw [State.drawAt, dif_pos hlen]
  simp only [hd, List.getElem_append_left hi]

/-- A word that holds a value's low nine bits, drawn in wire order, agrees with it in them. -/
theorem setWidth_of_holdsDraws {s : State} {pay r : Word} {more : List Bit} (hd : s.draws = lowBits pay 9 ++ more)
    (hr : HoldsDraws s 9 r) : r.setWidth 9 = pay.setWidth 9 := by
  refine BitVec.eq_of_getLsbD_eq fun i hi => ?_
  have hlen : i < (lowBits pay 9).length := by rw [length_lowBits]; exact hi
  simp only [BitVec.getLsbD_setWidth, hi, decide_true, Bool.true_and]
  rw [hr i (by omega), drawAt_of_draws hd hlen]
  simp [lowBits, hi]

/-- Half of the doubled threshold's nine bits is the threshold wrapped into -128..127 (R91). -/
theorem halved_threshold (t : Word) :
    ((thresholdPayload t).setWidth 9).toInt / 2 = (t.toInt + 128) % 256 - 128 := by
  have hn : ((thresholdPayload t).setWidth 9).toNat = 2 * t.toNat % 512 := by
    rw [thresholdPayload_eq, BitVec.toNat_setWidth, BitVec.toNat_ofNat]
    omega
  rw [BitVec.toInt_eq_toNat_cond, BitVec.toInt_eq_toNat_cond, hn]
  split_ifs <;> omega

/-- A register write of nine bits clocks out, after its command, the low nine bits of its payload. -/
theorem apiWrite_clocks {h : HandleId} {s : State} (hr : Ready h s) (c : Command) (hc : c.width = 9) (pay : Word) :
    ∃ u es, (apiWrite h c pay [] s).run = .next u ∧ Traced h es s u ∧ Keeps s u ∧
      (clockedBits (s.handle h) (s.outOf h .dq) es).drop 8 = lowBits pay 9 := by
  obtain ⟨u, hu, -, ran⟩ := runsWrite_apiWrite hr c pay waits_nil
  refine ⟨u, _, hu, ran.trace, ran.keeps, ?_⟩
  rw [eventsFrom, List.append_nil, clockedBits_writeEvents hr.distinct, hc, List.drop_left' (length_lowBits _ 8)]

/-- A register read of nine bits that are a doubled threshold's returns the threshold wrapped into -128..127. -/
theorem apiRead_echo {h : HandleId} {s : State} (hr : Ready h s) (c : Command) (hc : c.width = 9) {t : Word}
    {more : List Bit} (hd : s.draws = lowBits (thresholdPayload t) 9 ++ more) :
    ∃ x v, (apiRead h c .celsius s).run = .next x ∧ Returned (some h) (.done (some v)) s x ∧
      v.toInt = (t.toInt + 128) % 256 - 128 := by
  obtain ⟨x, r, v, hx, holds, ⟨hval, -⟩, -, -, ran⟩ := runsRead_apiRead hr c (gives_celsius c.width)
  rw [hc] at holds
  exact ⟨x, v, hx, ran.returned, by rw [hval, setWidth_of_holdsDraws hd holds, halved_threshold]⟩

/-- A handle is as ready after an operation that kept its record and its tasks, whatever is to be drawn. -/
theorem ready_of_keeps {h : HandleId} {s u : State} (hr : Ready h s) (hk : Keeps s u) (ds : List Bit) :
    Ready h { u with draws := ds } := by
  have hhandle : ({ u with draws := ds } : State).handle h = s.handle h := State.handle_congr hk.handles h
  refine ⟨by rw [hhandle]; exact hr.bound, by rw [hhandle]; exact hr.distinct, ?_⟩
  have htask : ({ u with draws := ds } : State).task h = s.task h := State.task_congr hk.tasks h
  rw [State.busy, htask]
  exact hr.free

/-- A threshold written with one command and read back with another from a chip that echoes the bits on the wire. -/
theorem threshold_echo {h : HandleId} {s : State} (hr : Ready h s) (t : Word) (more : List Bit) (cw cr : Command)
    (hw : cw.width = 9) (hc : cr.width = 9) :
    ∃ u es x v, (apiWrite h cw (thresholdPayload t) [] s).run = .next u ∧ Traced h es s u ∧
      ((clockedBits (s.handle h) (s.outOf h .dq) es).drop 8).length = 9 ∧
      (apiRead h cr .celsius { u with draws := (clockedBits (s.handle h) (s.outOf h .dq) es).drop 8 ++ more }).run = .next x ∧
      Returned (some h) (.done (some v)) u x ∧ v.toInt = (t.toInt + 128) % 256 - 128 := by
  obtain ⟨u, es, hu, htrace, hkeeps, hbits⟩ := apiWrite_clocks hr cw hw (thresholdPayload t)
  obtain ⟨x, v, hx, hret, hval⟩ := apiRead_echo (ready_of_keeps hr hkeeps _) cr hc (congrArg (· ++ more) hbits)
  exact ⟨u, es, x, v, hu, htrace, hbits ▸ length_lowBits _ 9, hx, hret, hval⟩

/-- Settles O45: the two pairs are such a write and such a read. -/
theorem thresholdRoundTrip : Obligations.ThresholdRoundTrip := by
  intro h t s more hr
  exact ⟨threshold_echo hr t more .writeHTemp .readHTemp rfl rfl, threshold_echo hr t more .writeLTemp .readLTemp rfl rfl⟩

end Sys2Proof.Proofs
end
